-- ==== Sys2Proof/Word.lean ====
section
/-! DEFINITION. The bit widths of the pccx ISA (spec 00_scope.md R8): the 64-bit instruction word, the 32-bit host
register, the 17-bit address field, the 6-bit descriptor pointer. Only what the spec treats as bits is a bit vector;
addresses become natural numbers before any arithmetic is done on them (R12, R63: no wrap-around). -/

namespace Sys2Proof

/-- One instruction: 64 bits (R8 `WORD_BITS`, R100). -/
abbrev Word := BitVec 64

/-- One AXI-Lite register access: 32 bits (R8 `AXIL_REG_BITS`). -/
abbrev Half := BitVec 32

/-- One byte of host memory. -/
abbrev Byte := BitVec 8

/-- A 17-bit address field (R8 `ADDR_BITS`). -/
abbrev Addr := BitVec 17

/-- A 6-bit descriptor pointer (R8 `PTR_BITS`). -/
abbrev Ptr := BitVec 6

end Sys2Proof
end

