-- ==== Sys2Proof/Syntax.lean ====
section
/-! DEFINITION. The instructions as syntax: one constructor of `Instr` per row of spec/opcode_table.json, carrying every
field of its body format, the reserved ones too (30_encoding.md R104 to R109), so that a word and its instruction
determine each other (R116). -/

namespace Sys2Proof

/-- Format G, the body of GEMV and GEMM (R104), with the flags field taken apart (R108). -/
structure GemxFields where
  /-- [59:43] -/
  destReg : Addr
  /-- [42:26] -/
  srcAddr : Addr
  /-- [25] -/
  findemax : Bool
  /-- [24] -/
  accm : Bool
  /-- [23] -/
  wScale : Bool
  /-- [22:20], reserved -/
  flagsRsvd : BitVec 3
  /-- [19:14] -/
  sizePtr : Ptr
  /-- [13:8] -/
  shapePtr : Ptr
  /-- [7:3] -/
  parallelLane : BitVec 5
  /-- [2:0], reserved -/
  rsvd : BitVec 3
  deriving DecidableEq, Repr, Inhabited

/-- Format M, the body of MEMCPY (R105). -/
structure MemcpyFields where
  /-- [59]: 0 = FROM_NPU, 1 = FROM_HOST -/
  fromDevice : Bool
  /-- [58]: 0 = TO_NPU, 1 = TO_HOST -/
  toDevice : Bool
  /-- [57:41] -/
  destAddr : Addr
  /-- [40:24] -/
  srcAddr : Addr
  /-- [23:7], reserved (R178) -/
  auxAddr : Addr
  /-- [6:1] -/
  shapePtr : Ptr
  /-- [0]: 1 = asynchronous transfer -/
  async : Bool
  deriving DecidableEq, Repr, Inhabited

/-- Format S, the body of MEMSET (R106). -/
structure MemsetFields where
  /-- [59:58]: 0 = fmap_shape, 1 = weight_shape -/
  destCache : BitVec 2
  /-- [57:52], a descriptor pointer although it shares its name with MEMCPY's address (90_conflicts.md C9) -/
  destAddr : Ptr
  /-- [51:36] -/
  aValue : BitVec 16
  /-- [35:20] -/
  bValue : BitVec 16
  /-- [19:4] -/
  cValue : BitVec 16
  /-- [3:0], reserved -/
  rsvd : BitVec 4
  deriving DecidableEq, Repr, Inhabited

/-- Format C, the body of the eight CVO functions, less the function code [59:56], which is the constructor (R107, R109). -/
structure CvoFields where
  /-- [55:39] -/
  srcAddr : Addr
  /-- [38:22] -/
  dstAddr : Addr
  /-- [21:6] -/
  length : BitVec 16
  /-- [5] -/
  subEmax : Bool
  /-- [4] -/
  recipScale : Bool
  /-- [3] -/
  accm : Bool
  /-- [2:1], reserved -/
  flagsRsvd : BitVec 2
  /-- [0] -/
  async : Bool
  deriving DecidableEq, Repr, Inhabited

/-- The eight defined CVO function codes (R110). -/
inductive CvoFunc where
  | exp | sqrt | gelu | sin | cos | reduceSum | scale | recip
  deriving DecidableEq, Repr, Inhabited

/-- The twelve instructions (R230), one constructor per row of spec/opcode_table.json. -/
inductive Instr where
  | gemv (f : GemxFields)
  | gemm (f : GemxFields)
  | memcpy (f : MemcpyFields)
  | memset (f : MemsetFields)
  | cvoExp (f : CvoFields)
  | cvoSqrt (f : CvoFields)
  | cvoGelu (f : CvoFields)
  | cvoSin (f : CvoFields)
  | cvoCos (f : CvoFields)
  | cvoReduceSum (f : CvoFields)
  | cvoScale (f : CvoFields)
  | cvoRecip (f : CvoFields)
  deriving DecidableEq, Repr, Inhabited

end Sys2Proof
end

