-- ==== Sys2Proof/WellFormed.lean ====
section
/-! DEFINITION. What software must write into an instruction's own fields for the instruction to have a meaning: the
reserved fields zero (R112) and the field values to which the spec gives a meaning (R115). Everything here is a fact
about the word alone; what depends on the state (extents, ranges, unwritten locations) is checked by the meanings. -/

namespace Sys2Proof

/-- Format G: both reserved fields zero (R112), at least one active lane (R146). -/
def GemxFields.wellFormed (f : GemxFields) : Bool :=
  f.flagsRsvd == 0 && f.rsvd == 0 && f.parallelLane != 0

/-- Format M: `aux_addr` zero (R178), the data comes from one side and goes to the other (R174, R175). -/
def MemcpyFields.wellFormed (f : MemcpyFields) : Bool :=
  f.auxAddr == 0 && f.fromDevice != f.toDevice

/-- Format S: reserved bits zero (R112), one of the two named caches (R192). -/
def MemsetFields.wellFormed (f : MemsetFields) : Bool :=
  f.rsvd == 0 && decide (f.destCache.toNat < 2)

/-- Format C: reserved bits zero (R112), a non-zero length (R213), `recip_scale` on CVO_SCALE only (R210). -/
def CvoFields.wellFormed (func : CvoFunc) (f : CvoFields) : Bool :=
  f.flagsRsvd == 0 && f.length != 0 && (!f.recipScale || func == CvoFunc.scale)

/-- The instruction's own fields are ones the spec gives a meaning to. -/
def Instr.wellFormed : Instr → Bool
  | .gemv f => f.wellFormed
  | .gemm f => f.wellFormed
  | .memcpy f => f.wellFormed
  | .memset f => f.wellFormed
  | .cvoExp f => f.wellFormed .exp
  | .cvoSqrt f => f.wellFormed .sqrt
  | .cvoGelu f => f.wellFormed .gelu
  | .cvoSin f => f.wellFormed .sin
  | .cvoCos f => f.wellFormed .cos
  | .cvoReduceSum f => f.wellFormed .reduceSum
  | .cvoScale f => f.wellFormed .scale
  | .cvoRecip f => f.wellFormed .recip

end Sys2Proof
end

