-- ==== Sys2Proof/Decode.lean ====
section
/-! DEFINITION. The decoder, total on every 64-bit word and rejecting by name (30_encoding.md R101 to R116), and after it
the encoder, written from the same field tables. Every field is one contiguous slice used as the unsigned integer it
spells (R113). -/

namespace Sys2Proof

/-- What a word that is no instruction of the table decodes to. Nothing of the word is dropped (R116). -/
inductive DecodeError where
  /-- `Reserved(opcode)`: opcode 5 to 15 (R103), with the body, which has no format. -/
  | reservedOpcode (op : BitVec 4) (body : BitVec 60)
  /-- `CVO(fields)` with function code 8 to 15, whose validity is checked at execution (R111, R116). -/
  | reservedCvoFunc (func : BitVec 4) (f : CvoFields)
  deriving DecidableEq, Repr

/-- The word the host's two writes make: the value of offset 0x00 low, the value of offset 0x04 high (R114, R39). -/
def assembleWord (lo hi : Half) : Word := hi ++ lo

/-- Bits [63:60] (R101). -/
def opcodeOf (w : Word) : BitVec 4 := w.extractLsb' 60 4

/-- Format G (R104, R108). -/
def decodeGemx (w : Word) : GemxFields :=
  { destReg := w.extractLsb' 43 17
    srcAddr := w.extractLsb' 26 17
    findemax := w.getLsbD 25
    accm := w.getLsbD 24
    wScale := w.getLsbD 23
    flagsRsvd := w.extractLsb' 20 3
    sizePtr := w.extractLsb' 14 6
    shapePtr := w.extractLsb' 8 6
    parallelLane := w.extractLsb' 3 5
    rsvd := w.extractLsb' 0 3 }

/-- Format M (R105). -/
def decodeMemcpy (w : Word) : MemcpyFields :=
  { fromDevice := w.getLsbD 59
    toDevice := w.getLsbD 58
    destAddr := w.extractLsb' 41 17
    srcAddr := w.extractLsb' 24 17
    auxAddr := w.extractLsb' 7 17
    shapePtr := w.extractLsb' 1 6
    async := w.getLsbD 0 }

/-- Format S (R106). -/
def decodeMemset (w : Word) : MemsetFields :=
  { destCache := w.extractLsb' 58 2
    destAddr := w.extractLsb' 52 6
    aValue := w.extractLsb' 36 16
    bValue := w.extractLsb' 20 16
    cValue := w.extractLsb' 4 16
    rsvd := w.extractLsb' 0 4 }

/-- Format C (R107, R109). -/
def decodeCvo (w : Word) : CvoFields :=
  { srcAddr := w.extractLsb' 39 17
    dstAddr := w.extractLsb' 22 17
    length := w.extractLsb' 6 16
    subEmax := w.getLsbD 5
    recipScale := w.getLsbD 4
    accm := w.getLsbD 3
    flagsRsvd := w.extractLsb' 1 2
    async := w.getLsbD 0 }

/-- The decoder (R102, R110, R116). -/
def decode (w : Word) : Except DecodeError Instr :=
  match (opcodeOf w).toNat with
  | 0 => .ok (.gemv (decodeGemx w))
  | 1 => .ok (.gemm (decodeGemx w))
  | 2 => .ok (.memcpy (decodeMemcpy w))
  | 3 => .ok (.memset (decodeMemset w))
  | 4 =>
    match (w.extractLsb' 56 4).toNat with
    | 0 => .ok (.cvoExp (decodeCvo w))
    | 1 => .ok (.cvoSqrt (decodeCvo w))
    | 2 => .ok (.cvoGelu (decodeCvo w))
    | 3 => .ok (.cvoSin (decodeCvo w))
    | 4 => .ok (.cvoCos (decodeCvo w))
    | 5 => .ok (.cvoReduceSum (decodeCvo w))
    | 6 => .ok (.cvoScale (decodeCvo w))
    | 7 => .ok (.cvoRecip (decodeCvo w))
    | _ => .error (.reservedCvoFunc (w.extractLsb' 56 4) (decodeCvo w))
  | _ => .error (.reservedOpcode (opcodeOf w) (w.extractLsb' 0 60))

/-- The instruction the decoder reads from a row of spec/opcode_table.json: bit 0 of `w` is bit 0 of the 64-bit word,
bits from `nbits` up are 0; a value that does not fit one word is no instruction (R100: one length, 64 bits). -/
def decodeTableWord (nbits w : Nat) : Option Instr :=
  let v := w % 2 ^ nbits
  if v < 2 ^ 64 then (decode (BitVec.ofNat 64 v)).toOption else none

/-- A format G word under its opcode (R104). -/
def encodeGemx (op : BitVec 4) (f : GemxFields) : Word :=
  op ++ f.destReg ++ f.srcAddr ++ BitVec.ofBool f.findemax ++ BitVec.ofBool f.accm ++ BitVec.ofBool f.wScale ++
    f.flagsRsvd ++ f.sizePtr ++ f.shapePtr ++ f.parallelLane ++ f.rsvd

/-- A format M word (R105). -/
def encodeMemcpy (f : MemcpyFields) : Word :=
  2#4 ++ BitVec.ofBool f.fromDevice ++ BitVec.ofBool f.toDevice ++ f.destAddr ++ f.srcAddr ++ f.auxAddr ++
    f.shapePtr ++ BitVec.ofBool f.async

/-- A format S word (R106). -/
def encodeMemset (f : MemsetFields) : Word :=
  3#4 ++ f.destCache ++ f.destAddr ++ f.aValue ++ f.bValue ++ f.cValue ++ f.rsvd

/-- A format C word under its function code (R107). -/
def encodeCvo (func : BitVec 4) (f : CvoFields) : Word :=
  4#4 ++ func ++ f.srcAddr ++ f.dstAddr ++ f.length ++ BitVec.ofBool f.subEmax ++ BitVec.ofBool f.recipScale ++
    BitVec.ofBool f.accm ++ f.flagsRsvd ++ BitVec.ofBool f.async

/-- The instruction's word. -/
def encode : Instr → Word
  | .gemv f => encodeGemx 0 f
  | .gemm f => encodeGemx 1 f
  | .memcpy f => encodeMemcpy f
  | .memset f => encodeMemset f
  | .cvoExp f => encodeCvo 0 f
  | .cvoSqrt f => encodeCvo 1 f
  | .cvoGelu f => encodeCvo 2 f
  | .cvoSin f => encodeCvo 3 f
  | .cvoCos f => encodeCvo 4 f
  | .cvoReduceSum f => encodeCvo 5 f
  | .cvoScale f => encodeCvo 6 f
  | .cvoRecip f => encodeCvo 7 f

/-- The word of anything the decoder answers, reserved words too (R116: every result re-encodes to its word). -/
def encodeDecoded : Except DecodeError Instr → Word
  | .ok i => encode i
  | .error (.reservedOpcode op body) => op ++ body
  | .error (.reservedCvoFunc func f) => encodeCvo func f

end Sys2Proof
end

