-- ==== Sys2Proof/Config.lean ====
section
/-! DEFINITION. What the spec leaves open (00_scope.md R9). Types of open content are named, never interpreted. The
arithmetic, the weights and the drawn status bits are opaque constants without a body: nothing in Lean can evaluate
them, so a claim holds for every choice. The parameters that decide which way an instruction goes (extents, host
mapping, layout, policy, depths, base address) are plain data, `Platform`, carried by State and changed by no step, so
that a claim over every state is a claim over every platform; State.reset takes it from an opaque constant (log 4). -/

namespace Sys2Proof

/-- The content of one L2 location: the open type `Elem` (R9, R63). `code` only names the content; no rule computes
with it (log 2). -/
structure Elem where
  code : Nat
  deriving DecidableEq, Repr, Inhabited

/-- The content of the e_max register: the open type `Emax` (R34; log 2). -/
structure Emax where
  code : Nat
  deriving DecidableEq, Repr, Inhabited

/-- What the weight oracle supplies to one instruction: weights and scale factors (R38, R149; log 23). -/
structure Weights where
  code : Nat
  deriving DecidableEq, Repr, Inhabited

/-- One descriptor entry: the three MEMSET values (R31). -/
structure Descriptor where
  a : BitVec 16
  b : BitVec 16
  c : BitVec 16
  deriving DecidableEq, Repr, Inhabited

/-- Which multiply: the argument `kind` of R147 and R149. -/
inductive GemxKind where
  | gemv | gemm
  deriving DecidableEq, Repr, Inhabited

/-- The five engines and their FIFOs (R40, R243). -/
inductive Engine where
  | gemv | gemm | cvo | mem | memset
  deriving DecidableEq, Repr, Inhabited

/-- One thing for each engine. -/
structure PerEngine (α : Type) where
  gemv : α
  gemm : α
  cvo : α
  mem : α
  memset : α
  deriving DecidableEq, Repr, Inhabited

/-- The thing of engine `e`. -/
def PerEngine.get {α : Type} (p : PerEngine α) : Engine → α
  | .gemv => p.gemv
  | .gemm => p.gemm
  | .cvo => p.cvo
  | .mem => p.mem
  | .memset => p.memset

/-- `p` with the thing of engine `e` replaced. -/
def PerEngine.set {α : Type} (p : PerEngine α) (e : Engine) (v : α) : PerEngine α :=
  match e with
  | .gemv => { p with gemv := v }
  | .gemm => { p with gemm := v }
  | .cvo => { p with cvo := v }
  | .mem => { p with mem := v }
  | .memset => { p with memset := v }

/-- The same thing for every engine. -/
def PerEngine.all {α : Type} (v : α) : PerEngine α := ⟨v, v, v, v, v⟩

/-- The five engines in the order of the table in R245. -/
def Engine.list : List Engine := [.gemv, .gemm, .mem, .memset, .cvo]

/-- The eight routes of `data_route_e` (R117). -/
inductive Route where
  | hostToL2 | l2ToHost | l2ToL1Gemm | l2ToL1Gemv | l2ToCvo | gemvResToL2 | gemmResToL2 | cvoResToL2
  deriving DecidableEq, Repr, Inhabited

/-- The two routes a MEMCPY can name (R172). -/
inductive CopyRoute where
  | hostToL2 | l2ToHost
  deriving DecidableEq, Repr, Inhabited

/-- The descriptor bundle of a GEMV or GEMM (R147): both pointers, and the entries of both caches at each. -/
structure GemxBundle where
  shapePtr : Ptr
  fmapAtShape : Option Descriptor
  weightAtShape : Option Descriptor
  sizePtr : Ptr
  fmapAtSize : Option Descriptor
  weightAtSize : Option Descriptor
  deriving DecidableEq, Repr, Inhabited

/-- The descriptor bundle of a MEMCPY (R177). -/
structure CopyBundle where
  shapePtr : Ptr
  fmapAtShape : Option Descriptor
  weightAtShape : Option Descriptor
  deriving DecidableEq, Repr, Inhabited

/-- Which entries of a GEMV/GEMM bundle an extent function is declared to depend on (R65). -/
structure GemxDepends where
  fmapAtShape : Bool
  weightAtShape : Bool
  fmapAtSize : Bool
  weightAtSize : Bool
  deriving DecidableEq, Repr, Inhabited

/-- Which entries of a MEMCPY bundle an extent function is declared to depend on (R65). -/
structure CopyDepends where
  fmapAtShape : Bool
  weightAtShape : Bool
  deriving DecidableEq, Repr, Inhabited

/-- `Extents.GemxInLen` or `Extents.GemxOutLen` of one kind (R147): the entries it depends on, its results by bundle with
the other entries left out, and its result for every bundle not listed. The function itself is `gemxExtent`. -/
structure GemxExtent where
  depends : GemxDepends
  table : List (GemxBundle × Nat)
  otherwise : Nat
  deriving DecidableEq, Repr, Inhabited

/-- `Extents.CopyLen` of one route (R177), as `GemxExtent`. The function itself is `copyExtent`. -/
structure CopyExtent where
  depends : CopyDepends
  table : List (CopyBundle × Nat)
  otherwise : Nat
  deriving DecidableEq, Repr, Inhabited

/-- `BUSY_POLICY` (R9, R26). -/
inductive BusyPolicy where
  | loose | quiescent | frontend
  deriving DecidableEq, Repr, Inhabited

/-- `SCALE_LAYOUT` (R9, R223). -/
inductive ScaleLayout where
  | vectorAfterScalar | vectorFromScalar | inPlaceDst
  deriving DecidableEq, Repr, Inhabited

/-- The open parameters that are plain data (R9). A function of the spec is its table of arguments and results. An
`Extents` function answers for every bundle in which the entries it depends on are written, and for no other (R65; log 5);
an argument that the host mapping does not list has "no mapping" (R294; log 6). -/
structure Platform where
  /-- `AXIL_BASE` (R270). -/
  axilBase : Nat
  /-- `BUSY_POLICY` (R26). -/
  busyPolicy : BusyPolicy
  /-- `FIFO_DEPTH[e]` less one: a depth is at least 1 (R254; log 14). -/
  fifoDepthPred : PerEngine Nat
  /-- `Extents.GemxInLen` of kind GEMV (R147). -/
  gemvInLen : GemxExtent
  /-- `Extents.GemxOutLen` of kind GEMV (R147). -/
  gemvOutLen : GemxExtent
  /-- `Extents.GemxInLen` of kind GEMM (R147). -/
  gemmInLen : GemxExtent
  /-- `Extents.GemxOutLen` of kind GEMM (R147). -/
  gemmOutLen : GemxExtent
  /-- `Extents.CopyLen` of the route from the host (R177). -/
  fromHostLen : CopyExtent
  /-- `Extents.CopyLen` of the route to the host (R177). -/
  toHostLen : CopyExtent
  /-- `HostAddr`: the host byte address a 17-bit field names (R64). -/
  hostAddr : List (Addr × Nat)
  /-- The part of `HostCodec` that says how many bytes n elements occupy (R64), where the count is listed. -/
  hostSpan : List (Nat × Nat)
  /-- The same for every count that is not listed. -/
  hostSpanOtherwise : Nat
  /-- The windows (base, size) of host addresses the platform lets a copy reach (R294). -/
  hostWindows : List (Nat × Nat)
  /-- `SCALE_LAYOUT` (R223). -/
  scaleLayout : ScaleLayout
  deriving DecidableEq, Repr, Inhabited

/-- μCVO-Cores inside the CVO Core (R8 `N_UCVO_CORES`). A fact about the hardware (90_conflicts.md C8): how the two share
an instruction's elements is not stated, the CVO Core takes its steps as one agent (R219), and no rule depends on it. -/
def uCvoCores : Nat := 2

/-- Locations of L2 (R61). -/
def l2Size : Nat := 131072

/-- Entries of one descriptor cache (R8 `DESC_ENTRIES`). -/
def descEntries : Nat := 64

/-- The platform of the machine as it stands at reset: some platform, and nothing says which (log 4). -/
opaque Config.platform : Platform

/-- `Numerics.GemvFn` (R149): element number `i` of the result, last argument, for the fmap elements, the weights, the
bundle, `w_scale`, the lane count and the old destination. -/
opaque Config.gemvFn : List Elem → Weights → GemxBundle → Bool → BitVec 5 → Option (List Elem) → Nat → Elem

/-- `Numerics.GemmFn` (R149), as `gemvFn`. -/
opaque Config.gemmFn : List Elem → Weights → GemxBundle → Bool → BitVec 5 → Option (List Elem) → Nat → Elem

/-- `Numerics.EmaxFn` (R143): kind, previous e_max or none, result elements. -/
opaque Config.emaxFn : GemxKind → Option Emax → List Elem → Emax

/-- `Numerics.EmaxToElem` (R209, R215). -/
opaque Config.emaxToElem : Emax → Elem

/-- `Numerics.CvoExp` (R201). -/
opaque Config.cvoExp : Elem → Elem
/-- `Numerics.CvoSqrt` (R202). -/
opaque Config.cvoSqrt : Elem → Elem
/-- `Numerics.CvoGelu` (R203). -/
opaque Config.cvoGelu : Elem → Elem
/-- `Numerics.CvoSin` (R204). -/
opaque Config.cvoSin : Elem → Elem
/-- `Numerics.CvoCos` (R205). -/
opaque Config.cvoCos : Elem → Elem
/-- `Numerics.CvoRecip` (R208, R210). -/
opaque Config.cvoRecip : Elem → Elem
/-- `Numerics.CvoMul` (R207). -/
opaque Config.cvoMul : Elem → Elem → Elem
/-- `Numerics.CvoAdd` (R211). -/
opaque Config.cvoAdd : Elem → Elem → Elem
/-- `Numerics.CvoSub` (R209). -/
opaque Config.cvoSub : Elem → Elem → Elem
/-- `Numerics.CvoSum` (R206). -/
opaque Config.cvoSum : List Elem → Elem

/-- `WeightStore` (R38, R149): the oracle, asked with the kind, the instruction's fields and its bundle. -/
opaque Config.weightStore : GemxKind → GemxFields → GemxBundle → Weights

/-- `HostCodec.decode` (R64): element `i`, last argument, of the `n` elements coded by the bytes. -/
opaque Config.hostDecode : Nat → List Byte → Nat → Elem

/-- `HostCodec.encode` (R64): byte `j`, last argument, of the image of the elements. -/
opaque Config.hostEncode : List Elem → Nat → Byte

/-- The host's own content of a byte that nothing in the run has written (R47, R182; log 7). -/
opaque Config.hostInitial : Nat → Byte

/-- The free value of STATUS read number `n` (R26 to R28; log 13). -/
opaque Config.drawStatus : Nat → BitVec 32

end Sys2Proof
end

