-- ==== Sys2Proof/Machine/State.lean ====
section
/-! DEFINITION. The machine's state as plain data (10_state.md R20), the reasons a step can stop (60_exceptions.md R292,
R293), and the state right after reset (R47). A store that may hold `none` (R46) is a list of (index, content) pairs in
one canonical form: indices strictly rising, an index that is not listed holds `none`. -/

namespace Sys2Proof.Machine

/-- A run of locations of one store: what footprints are made of (20_memory.md R76). -/
inductive Region where
  /-- L2 addresses `base` to `base + len - 1`. -/
  | l2 (base len : Nat)
  /-- Host byte addresses `base` to `base + len - 1`. -/
  | host (base len : Nat)
  | fmapShape (p : Ptr)
  | weightShape (p : Ptr)
  | eMax
  deriving DecidableEq, Repr, Inhabited

/-- One location, as footprints count them (20_memory.md R76). -/
inductive Loc where
  | l2 (a : Nat)
  | host (a : Nat)
  | fmapShape (p : Ptr)
  | weightShape (p : Ptr)
  | eMax
  deriving DecidableEq, Repr, Inhabited

/-- The read and write footprint of one instruction, computed when it is latched (R76). `known = false`: it could not be
computed, and stands for every location (R76, R261). -/
structure Footprint where
  known : Bool
  reads : List Region
  writes : List Region
  deriving DecidableEq, Repr, Inhabited

/-- An instruction on its way: its number (R43), its word, its footprint. A FIFO holds the word, from which every
micro-op is a pure function (44_uops_and_dispatch.md R242; log 15). -/
structure Entry where
  number : Nat
  word : Word
  footprint : Footprint
  deriving DecidableEq, Repr, Inhabited

/-- The deferred effects of an accepted asynchronous instruction (R42, 41_memcpy.md R171, 43_cvo.md R221). -/
inductive Deferred where
  /-- A transfer of `n` elements; `n` and the route were fixed when the engine accepted it. -/
  | copy (route : CopyRoute) (dest src : Addr) (n : Nat)
  /-- The effects of a CVO function, its checks already passed. -/
  | cvo (func : CvoFunc) (f : CvoFields)
  deriving DecidableEq, Repr, Inhabited

/-- A member of `pending_async` (R42), less its tag, which is its index in the list. -/
structure Pending where
  op : Deferred
  footprint : Footprint
  deriving DecidableEq, Repr, Inhabited

/-- A step of the Host agent (45_host_interface.md R270 to R274). Addresses are bus addresses; `width` is in bits. -/
inductive HostAccess where
  | busWrite (addr width : Nat) (v : Half)
  | busRead (addr width : Nat)
  | memWrite (addr : Nat) (bytes : List Byte)
  | memRead (addr len : Nat)
  deriving DecidableEq, Repr, Inhabited

/-- Whose footprint the conflict check is made for (R292: "the two instruction numbers (or the access)"). -/
inductive Requester where
  /-- Instruction `k`, being latched. -/
  | instr (k : Nat)
  /-- The host, accessing its own memory. -/
  | host (a : HostAccess)
  deriving DecidableEq, Repr, Inhabited

/-- One agent's step, named (R240). -/
inductive Move where
  | host (a : HostAccess)
  | dispatch
  | engine (e : Engine)
  /-- The asynchronous agent performs the pending operation tagged `k` (R256). -/
  | performAsync (k : Nat)
  deriving DecidableEq, Repr, Inhabited

/-- Which store a read found empty (R292: "which store, which index or address"). -/
inductive StoreRef where
  | cmdLo
  | descriptor (ptrs : List Ptr)
  | l2 (addr : Nat)
  | eMax
  deriving DecidableEq, Repr, Inhabited

/-- The faults (R292). Each ends the run where the chip may go on: safe. -/
inductive Fault where
  /-- A step needs a store's content and finds `none`: the spec's own stop (10_state.md R46, 60_exceptions.md R292,
  93_implementation_defined.md items 17 and 20). Raised at the latch, by GEMV, GEMM, MEMCPY, CVO and by the asynchronous
  agent; `k` is the instruction's number. Safe: no initial content is invented. -/
  | unwrittenRead (what : StoreRef) (k : Nat)
  /-- The new instruction or the host memory access `who` conflicts with instruction `other` in flight, and `loc` is one
  conflicting location (`none` only where an unknown footprint meets one that holds no location; log 18) (R77, R261,
  R274). Raised at the latch and at host memory accesses. Safe. -/
  | inFlightConflict (who : Requester) (other : Nat) (loc : Option Loc)
  /-- Opcode 5 to 15, raised at dispatch (R103). Safe. -/
  | reservedOpcode (w : Word)
  /-- CVO function 8 to 15, raised when the CVO engine starts it (R111). Safe. -/
  | reservedCvoFunc (w : Word)
  /-- The platform maps no host range for the field and count; raised by MEMCPY when the copy is performed (R294). Safe. -/
  | hostMemoryFault (route : CopyRoute) (field : Addr) (n : Nat)
  deriving DecidableEq, Repr

/-- The refusals (R293): the spec gives the input no meaning, and the run ends. Each is safe: nothing is concluded about
what the chip does. -/
inductive Refusal where
  /-- Raised by `exec`'s arm of an instruction that has no meaning in this model; no arm is left so. Safe. -/
  | notModelled (mnemonic : String)
  /-- A reserved field is not zero; raised at dispatch (R112, R178). Safe. -/
  | reservedFieldNonzero
  /-- GEMV or GEMM with `parallel_lane = 0`; raised at dispatch (R146). Safe. -/
  | zeroLanes
  /-- MEMCPY with both selectors equal; raised at dispatch (R174, R175). Safe. -/
  | memcpyRouteUnspecified
  /-- MEMSET with `dest_cache` 2 or 3; raised at dispatch (R192). Safe. -/
  | undefinedDestCache
  /-- `recip_scale` on a function other than CVO_SCALE; raised when the CVO engine runs it (R210). Safe. -/
  | flagNotApplicable
  /-- CVO `length = 0`, or an extent of 0; raised at execution (R213, R151, R171). Safe. -/
  | zeroExtent
  /-- An operand range would pass L2 address 2^17 - 1; raised at execution (R66). Safe. -/
  | addressRangeOverflow
  /-- Source and destination overlap other than as the instruction's rule allows; raised at execution (R85). Safe. -/
  | operandOverlap
  /-- A write of offset 0x00 or 0x04 with no BUSY = 0 read since the last latch; raised at the host's write (R276). Safe. -/
  | issuedWithoutBusyClear
  /-- A bus access other than the three of the register map; raised at the host's access (R278). Safe. -/
  | unsupportedRegisterAccess
  deriving DecidableEq, Repr

/-- The complete state (R20), and after it the model's own fields. -/
structure State where
  /-- `CMD_LO`, offset 0x00 (R23). -/
  cmdLo : Option Half
  /-- `latched` (R39), with the number and footprint the latch gave it (R43, R76). -/
  latched : Option Entry
  /-- Descriptor cache 0 (R29). -/
  fmapShape : List (Nat × Descriptor)
  /-- Descriptor cache 1 (R30). -/
  weightShape : List (Nat × Descriptor)
  /-- `e_max` (R34). -/
  eMax : Option Emax
  /-- The on-chip store (R35). -/
  l2 : List (Nat × Elem)
  /-- Host DDR4 as the NPU sees it (R37): the bytes written in the run; see `hostByte` for the others. -/
  hostMem : List Host.Cell
  /-- The engine FIFOs (R40), heads first. -/
  fifo : PerEngine (List Entry)
  /-- The entry each engine is executing (R41). -/
  running : PerEngine (Option Entry)
  /-- `pending_async` (R42): operations by instruction number, numbers strictly rising. -/
  pendingAsync : List (Nat × Pending)
  /-- `n_latched` (R43). -/
  nLatched : Nat
  /-- `completed` (R43), strictly rising. -/
  completed : List Nat
  /-- `fault` (R44). -/
  faults : List Fault
  /-- `refused` (R44), with its reason. -/
  refused : Option Refusal
  /-- `issue_ok` (R44, R276). -/
  issueOk : Bool
  /-- The MODEL's own: the open parameters (R9, R45); no step changes it (log 4). -/
  platform : Platform
  /-- The MODEL's own: the moves still to be made, the host's program and the schedule in one list (R22, R45; log 8). -/
  script : List Move
  /-- The MODEL's own: the STATUS values returned so far, newest first (R285; log 12). -/
  statusReads : List (BitVec 32)
  /-- The MODEL's own: how many free STATUS values were drawn (log 13). -/
  draws : Nat
  deriving DecidableEq, Repr

/-- The initial state (R47, 70_reset_and_hazards.md R321). -/
def State.reset : State :=
  { cmdLo := none
    latched := none
    fmapShape := []
    weightShape := []
    eMax := none
    l2 := []
    hostMem := []
    fifo := PerEngine.all []
    running := PerEngine.all none
    pendingAsync := []
    nLatched := 0
    completed := []
    faults := []
    refused := none
    issueOk := false
    platform := Config.platform
    script := []
    statusReads := []
    draws := 0 }

/-- The outcome of a step or of a meaning. -/
abbrev Result := Host.Outcome State Fault Refusal

/-- Why a computation stops (R291): the model's word for `raise` and `refuse` inside a meaning. -/
inductive Stop where
  | fault (r : Fault)
  | refused (r : Refusal)
  deriving DecidableEq, Repr

/-- A computation that yields a value or stops. -/
abbrev Run (α : Type) := Except Stop α

end Sys2Proof.Machine
end

