-- ==== Sys2Proof/Machine/Ops.lean ====
section
/-! DEFINITION. The named operations over the stores: sparse lists with `none` for what is not listed (R46), elements of
L2 (R60, R63), bytes of HOST (R64), descriptor entries (R65); and what a fault or a refusal does (R292, R293), which is
all there is of taking an exception: nothing is saved, no handler runs (R298), nothing returns from one (R299). -/

namespace Sys2Proof.Machine

/-- The content at index `a`, `none` where nothing is listed (R46). -/
def cellRead {α : Type} : List (Nat × α) → Nat → Option α
  | [], _ => none
  | (k, v) :: m, a => if a = k then some v else cellRead m a

/-- `m` with `v` written at index `a`, keeping the indices rising. -/
def cellWrite {α : Type} : List (Nat × α) → Nat → α → List (Nat × α)
  | [], a, v => [(a, v)]
  | (k, w) :: m, a, v =>
    if a < k then (a, v) :: (k, w) :: m
    else if a = k then (a, v) :: m
    else (k, w) :: cellWrite m a v

/-- `m` with nothing at index `a`. -/
def cellErase {α : Type} : List (Nat × α) → Nat → List (Nat × α)
  | [], _ => []
  | (k, v) :: m, a => if a = k then cellErase m a else (k, v) :: cellErase m a

/-- Consecutive writes from index `b` on. -/
def cellWriteMany {α : Type} (m : List (Nat × α)) (b : Nat) : List α → List (Nat × α)
  | [] => m
  | v :: vs => cellWriteMany (cellWrite m b v) (b + 1) vs

/-- The `n` contents from index `b` on, or the first index that holds `none`. -/
def cellReadMany {α : Type} (m : List (Nat × α)) (b : Nat) : Nat → Except Nat (List α)
  | 0 => .ok []
  | n + 1 =>
    match cellRead m b with
    | none => .error b
    | some v =>
      match cellReadMany m (b + 1) n with
      | .error a => .error a
      | .ok vs => .ok (v :: vs)

/-- The canonical form: indices strictly rising. No entry can equal what an unlisted index reads as, which is `none`. -/
def cellsRising {α : Type} (m : List (Nat × α)) : Bool := decide ((m.map Prod.fst).Pairwise (· < ·))

/-- Every index is below `bound`. -/
def cellsBelow {α : Type} (bound : Nat) (m : List (Nat × α)) : Bool := m.all fun c => decide (c.1 < bound)

/-- The set `ns` with `k` put in, strictly rising. -/
def numberInsert : List Nat → Nat → List Nat
  | [], k => [k]
  | n :: ns, k => if k < n then k :: n :: ns else if k = n then n :: ns else n :: numberInsert ns k

/-- All memories of a state are in canonical form and inside their address spaces (R61, R65). -/
def Memory.wf (s : State) : Bool :=
  cellsRising s.l2 && cellsBelow l2Size s.l2 && cellsRising s.fmapShape && cellsBelow descEntries s.fmapShape &&
    cellsRising s.weightShape && cellsBelow descEntries s.weightShape && cellsRising s.hostMem

/-- `raise`: the computation stops with a fault (R292). -/
def raise {α : Type} (r : Fault) : Run α := .error (.fault r)

/-- `refuse R` where the condition holds (R293). -/
def refuseIf (c : Bool) (r : Refusal) : Run Unit := if c then .error (.refused r) else .ok ()

/-- The value of an option, or a fault where there is none (R46). -/
def orRaise {α : Type} (o : Option α) (r : Fault) : Run α :=
  match o with
  | some v => .ok v
  | none => raise r

/-- A computation of the next state as an outcome. -/
def toResult : Run State → Result
  | .ok s => .next s
  | .error (.fault r) => .fault r
  | .error (.refused r) => .refused r

/-- `raise F` on the state: the fault joins `fault`, and nothing else changes (R292). -/
def State.recordFault (r : Fault) (s : State) : State := { s with faults := s.faults ++ [r] }

/-- `refuse R` on the state: `refused` is set with its reason, and nothing else changes (R293). -/
def State.recordRefusal (r : Refusal) (s : State) : State := { s with refused := some r }

/-- One element of L2, `none` where nothing was written (R46, R63). -/
def State.readL2 (s : State) (a : Nat) : Option Elem := cellRead s.l2 a

/-- `MemRead(L2, b, n)` (R13, R63): the elements, or `UnwrittenRead` for instruction `k` at the first empty address. -/
def State.readL2Many (s : State) (k b n : Nat) : Run (List Elem) :=
  match cellReadMany s.l2 b n with
  | .ok xs => .ok xs
  | .error a => raise (.unwrittenRead (.l2 a) k)

/-- `MemWrite(L2, b, n, vs)` (R13, R63). -/
def State.writeL2Many (s : State) (b : Nat) (vs : List Elem) : State := { s with l2 := cellWriteMany s.l2 b vs }

/-- One byte of HOST as the run has written it: `none` where only the host's own content stands. -/
def State.readHost (s : State) (a : Nat) : Option Byte := cellRead s.hostMem a

/-- One byte of HOST as a copy reads it: never `none` (R171); a byte nothing in the run has written is the host's own
(R182; log 7). -/
def State.hostByte (s : State) (a : Nat) : Byte := (s.readHost a).getD (Config.hostInitial a)

/-- Bytes stored to HOST from address `b` on. -/
def State.writeHostMany (s : State) (b : Nat) (bs : List Byte) : State :=
  { s with hostMem := cellWriteMany s.hostMem b bs }

/-- `fmap_shape[p]` (R29). -/
def State.readFmapShape (s : State) (p : Ptr) : Option Descriptor := cellRead s.fmapShape p.toNat

/-- `weight_shape[p]` (R30). -/
def State.readWeightShape (s : State) (p : Ptr) : Option Descriptor := cellRead s.weightShape p.toNat

/-- `fmap_shape[p] <- d`, the whole entry at once (R29, R71). -/
def State.writeFmapShape (s : State) (p : Ptr) (d : Descriptor) : State :=
  { s with fmapShape := cellWrite s.fmapShape p.toNat d }

/-- `weight_shape[p] <- d`, the whole entry at once (R30, R71). -/
def State.writeWeightShape (s : State) (p : Ptr) (d : Descriptor) : State :=
  { s with weightShape := cellWrite s.weightShape p.toNat d }

/-- The number of the instruction engine `e` is executing (R41, R43); log 11 says what it is where none runs. -/
def State.runningNumber (s : State) (e : Engine) : Nat :=
  match s.running.get e with
  | some en => en.number
  | none => s.nLatched

/-- The footprint the latch gave the instruction engine `e` is executing (R76). -/
def State.runningFootprint (s : State) (e : Engine) : Footprint :=
  match s.running.get e with
  | some en => en.footprint
  | none => { known := false, reads := [], writes := [] }

/-- An accepted asynchronous operation joins `pending_async` under its number (R42, R251). -/
def State.addPending (s : State) (e : Engine) (op : Deferred) : State :=
  { s with
    pendingAsync :=
      cellWrite s.pendingAsync (s.runningNumber e) { op := op, footprint := s.runningFootprint e } }

/-- The platform lets a copy reach the host byte `a`: it lies in one of the windows (R294). -/
def hostMapped (p : Platform) (a : Nat) : Bool := p.hostWindows.any fun w => decide (w.1 ≤ a ∧ a < w.1 + w.2)

/-- How many bytes `HostCodec` gives `n` elements (R64). -/
def codecSize (p : Platform) (n : Nat) : Nat := (p.hostSpan.lookup n).getD p.hostSpanOtherwise

/-- The host byte range (base, length) that `HostCodec` occupies for `n` elements from `HostAddr` of a field on (R64, R179),
reachable or not; none where `HostAddr` has no mapping for the field (R292). -/
def hostImage (p : Platform) (field : Addr) (n : Nat) : Option (Nat × Nat) :=
  (p.hostAddr.lookup field).map fun b => (b, codecSize p n)

/-- The same range where a copy can be performed: every byte of it may be reached (R294). -/
def hostRange (p : Platform) (field : Addr) (n : Nat) : Option (Nat × Nat) :=
  (hostImage p field n).filter fun r => (List.range r.2).all fun j => hostMapped p (r.1 + j)

/-- `MemRead(HOST, field, n)` (R64): the `n` elements the bytes of the range code. -/
def State.readHostElems (s : State) (b len n : Nat) : List Elem :=
  (List.range n).map (Config.hostDecode n ((List.range len).map fun j => s.hostByte (b + j)))

/-- `HostCodec.encode(vs)` (R64): the `len` bytes of the image. -/
def encodeHost (vs : List Elem) (len : Nat) : List Byte := (List.range len).map (Config.hostEncode vs)

end Sys2Proof.Machine
end

