-- ==== Sys2Proof/Machine/Operands.lean ====
section
/-! DEFINITION. Operand forms: element ranges and their overlap (R63, R66, R85), descriptor bundles and extents (R147,
R177), the numeric inputs of GEMV and GEMM (R149), the vector and accumulator operands of CVO (R209, R211, R214, R223). -/

namespace Sys2Proof.Machine

/-- An operand of `n` elements at base `b` stays inside L2: its last address is at most 2^17 - 1 (R66). -/
def fitsL2 (b n : Nat) : Bool := decide (b + n ≤ l2Size)

/-- The ranges of `n` addresses at `b` and of `n'` at `b'` share an address. -/
def rangesMeet (b n b' n' : Nat) : Bool := decide (0 < n ∧ 0 < n' ∧ b < b' + n' ∧ b' < b + n)

/-- The first location two regions share, if they share one (R76). -/
def sharedLoc : Region → Region → Option Loc
  | .l2 b n, .l2 b' n' => if rangesMeet b n b' n' then some (.l2 (max b b')) else none
  | .host b n, .host b' n' => if rangesMeet b n b' n' then some (.host (max b b')) else none
  | .fmapShape p, .fmapShape q => if p = q then some (.fmapShape p) else none
  | .weightShape p, .weightShape q => if p = q then some (.weightShape p) else none
  | .eMax, .eMax => some .eMax
  | _, _ => none

/-- An input range of `n` elements at `src` and an output range at `dst` may be used together: disjoint, or the same
index for index (R85, R214). -/
def sameIndexOrDisjoint (src dst n : Nat) : Bool := src == dst || !rangesMeet src n dst n

/-- The bundle of a GEMV or GEMM (R147). -/
def gemxBundle (f : GemxFields) (s : State) : GemxBundle :=
  { shapePtr := f.shapePtr
    fmapAtShape := s.readFmapShape f.shapePtr
    weightAtShape := s.readWeightShape f.shapePtr
    sizePtr := f.sizePtr
    fmapAtSize := s.readFmapShape f.sizePtr
    weightAtSize := s.readWeightShape f.sizePtr }

/-- An entry handed to an extent function is missing: the function depends on it and nothing has written it (R65). -/
def entryMissing (depends : Bool) (d : Option Descriptor) : Bool := depends && d.isNone

/-- An entry as an extent function sees it: not at all, where it does not depend on it (R65). -/
def entrySeen (depends : Bool) (d : Option Descriptor) : Option Descriptor := if depends then d else none

/-- An extent function of a GEMV/GEMM bundle (R65, R147): `none` exactly where an entry it depends on is `none`; else a
number that depends on the pointers and on those entries alone. -/
def gemxExtent (e : GemxExtent) (b : GemxBundle) : Option Nat :=
  let d := e.depends
  if entryMissing d.fmapAtShape b.fmapAtShape || entryMissing d.weightAtShape b.weightAtShape ||
      entryMissing d.fmapAtSize b.fmapAtSize || entryMissing d.weightAtSize b.weightAtSize then none
  else
    some ((e.table.lookup { b with
      fmapAtShape := entrySeen d.fmapAtShape b.fmapAtShape
      weightAtShape := entrySeen d.weightAtShape b.weightAtShape
      fmapAtSize := entrySeen d.fmapAtSize b.fmapAtSize
      weightAtSize := entrySeen d.weightAtSize b.weightAtSize }).getD e.otherwise)

/-- An extent function of a MEMCPY bundle (R65, R177), as `gemxExtent`. -/
def copyExtent (e : CopyExtent) (b : CopyBundle) : Option Nat :=
  let d := e.depends
  if entryMissing d.fmapAtShape b.fmapAtShape || entryMissing d.weightAtShape b.weightAtShape then none
  else
    some ((e.table.lookup { b with
      fmapAtShape := entrySeen d.fmapAtShape b.fmapAtShape
      weightAtShape := entrySeen d.weightAtShape b.weightAtShape }).getD e.otherwise)

/-- `Extents.GemxInLen` of one kind (R147). -/
def gemxInExtent (p : Platform) : GemxKind → GemxExtent
  | .gemv => p.gemvInLen
  | .gemm => p.gemmInLen

/-- `Extents.GemxOutLen` of one kind (R147). -/
def gemxOutExtent (p : Platform) : GemxKind → GemxExtent
  | .gemv => p.gemvOutLen
  | .gemm => p.gemmOutLen

/-- `Extents.CopyLen` of one route (R177). -/
def copyRouteExtent (p : Platform) : CopyRoute → CopyExtent
  | .hostToL2 => p.fromHostLen
  | .l2ToHost => p.toHostLen

/-- `Extents.GemxInLen(kind, D)` (R147). -/
def gemxInLen (kind : GemxKind) (f : GemxFields) (s : State) : Option Nat :=
  gemxExtent (gemxInExtent s.platform kind) (gemxBundle f s)

/-- `Extents.GemxOutLen(kind, D)` (R147). -/
def gemxOutLen (kind : GemxKind) (f : GemxFields) (s : State) : Option Nat :=
  gemxExtent (gemxOutExtent s.platform kind) (gemxBundle f s)

/-- The engine of a multiply (R152). -/
def gemxEngine : GemxKind → Engine
  | .gemv => .gemv
  | .gemm => .gemm

/-- Element `i` of the product (R149): `GemvFn` or `GemmFn` of the fmap elements, the oracle's weights, the bundle,
`w_scale`, the lanes and the old destination. -/
def gemxElem (kind : GemxKind) (f : GemxFields) (s : State) (x : List Elem) (old : Option (List Elem)) (i : Nat) : Elem :=
  let d := gemxBundle f s
  let w := Config.weightStore kind f d
  match kind with
  | .gemv => Config.gemvFn x w d f.wScale f.parallelLane old i
  | .gemm => Config.gemmFn x w d f.wScale f.parallelLane old i

/-- The bundle of a MEMCPY (R177). -/
def copyBundle (f : MemcpyFields) (s : State) : CopyBundle :=
  { shapePtr := f.shapePtr
    fmapAtShape := s.readFmapShape f.shapePtr
    weightAtShape := s.readWeightShape f.shapePtr }

/-- `Extents.CopyLen(route, D)` (R177). -/
def copyLen (route : CopyRoute) (f : MemcpyFields) (s : State) : Option Nat :=
  copyExtent (copyRouteExtent s.platform route) (copyBundle f s)

/-- The route the two selectors name, none where they are equal (R172, R174, R175). -/
def copyRoute (f : MemcpyFields) : Option CopyRoute :=
  match f.fromDevice, f.toDevice with
  | true, false => some .hostToL2
  | false, true => some .l2ToHost
  | _, _ => none

/-- Where CVO_SCALE finds its vector (R207, R223). -/
def scaleBase (layout : ScaleLayout) (f : CvoFields) : Nat :=
  match layout with
  | .vectorAfterScalar => f.srcAddr.toNat + 1
  | .vectorFromScalar => f.srcAddr.toNat
  | .inPlaceDst => f.dstAddr.toNat

/-- The base of the vector a CVO function reads (R214, R223). -/
def cvoVectorBase (func : CvoFunc) (f : CvoFields) (s : State) : Nat :=
  match func with
  | .scale => scaleBase s.platform.scaleLayout f
  | _ => f.srcAddr.toNat

/-- How many locations a CVO function writes (R214). -/
def cvoOutLen (func : CvoFunc) (f : CvoFields) : Nat :=
  match func with
  | .reduceSum => 1
  | _ => f.length.toNat

/-- The input of a CVO function overlaps its output other than as its rule allows (R214, R206, R207). CVO_SCALE of length 1
with `dst_addr = src_addr + 1` under `vector_from_scalar` reads and writes disjoint ranges, which R85, R207 and R214 admit,
while R223 says without a length that such a program is refused; the model admits it: DESIGN CHOICE, log 37. -/
def cvoOverlap (func : CvoFunc) (f : CvoFields) (s : State) : Bool :=
  let n := f.length.toNat
  match func with
  | .reduceSum => rangesMeet f.srcAddr.toNat n f.dstAddr.toNat 1
  | .scale =>
    rangesMeet f.srcAddr.toNat 1 f.dstAddr.toNat n ||
      !sameIndexOrDisjoint (cvoVectorBase .scale f s) f.dstAddr.toNat n
  | _ => !sameIndexOrDisjoint f.srcAddr.toNat f.dstAddr.toNat n

/-- `sub_emax`: with the flag, every element has the registered e_max subtracted, or `UnwrittenRead` where there is none;
without it, the elements as they are (R209). -/
def subtractEmax (f : CvoFields) (s : State) (k : Nat) (xs : List Elem) : Run (List Elem) :=
  if f.subEmax then do
    let m ← orRaise s.eMax (.unwrittenRead .eMax k)
    return xs.map fun x => Config.cvoSub x (Config.emaxToElem m)
  else return xs

/-- `accm`: with the flag, the old destination is read and added to, element by element; without it, it is not read
(R211). -/
def accumulate (f : CvoFields) (s : State) (k : Nat) (ys : List Elem) : Run (List Elem) :=
  if f.accm then do
    let old ← s.readL2Many k f.dstAddr.toNat ys.length
    return List.zipWith Config.cvoAdd old ys
  else return ys

end Sys2Proof.Machine
end

