-- ==== Sys2Proof/Machine/Flags.lean ====
section
/-! DEFINITION. The only flags of the hardware: the two status bits, computed at each read from the rest of the state
(10_state.md R25 to R28, R48), and what they are computed from: in flight, quiescent, complete for status
(44_uops_and_dispatch.md R252, R253, R255). -/

namespace Sys2Proof.Machine

/-- What is in flight (R252): latched, queued, running or pending, each with its number and footprint. -/
def State.inFlight (s : State) : List (Nat × Footprint) :=
  (s.latched.toList ++ Engine.list.flatMap (fun e => s.fifo.get e ++ (s.running.get e).toList)).map
      (fun en => (en.number, en.footprint)) ++
    s.pendingAsync.map fun c => (c.1, c.2.footprint)

/-- Nothing is latched, queued, running or pending (R253). -/
def State.quiescent (s : State) : Bool :=
  s.latched.isNone && Engine.list.all (fun e => (s.fifo.get e).isEmpty && (s.running.get e).isNone) &&
    s.pendingAsync.isEmpty

/-- BUSY, `STATUS[0]` (R26); `d` is the value drawn where the rule leaves it open. -/
def State.busy (s : State) (d : Bool) : Bool :=
  if s.latched.isSome then true
  else if s.quiescent then false
  else
    match s.platform.busyPolicy with
    | .loose => d
    | .quiescent => true
    | .frontend => false

/-- DONE, `STATUS[1]` (R27); `d` is the value drawn before the first latch. After a fault it reads 0 (R292, R280), before
the first latch too, where R27 by itself would draw it: DESIGN CHOICE between the two rules, log 32. After a refusal it
reads as R27 and D6 say, which name faults alone, where D26 says 0 of refusals too: DESIGN CHOICE, log 34. -/
def State.done (s : State) (d : Bool) : Bool :=
  if !s.faults.isEmpty then false
  else if s.nLatched = 0 then d
  else s.completed.contains s.nLatched

/-- The value a read of offset 0x08 returns (R25, R273): bits [31:2] drawn, DONE, BUSY. -/
def State.status (s : State) : BitVec 32 :=
  let d := Config.drawStatus s.draws
  d.extractLsb' 2 30 ++ BitVec.ofBool (s.done (d.getLsbD 1)) ++ BitVec.ofBool (s.busy (d.getLsbD 0))

/-- Instruction `k` becomes complete for status (R255). -/
def State.complete (s : State) (k : Nat) : State := { s with completed := numberInsert s.completed k }

end Sys2Proof.Machine
end

