-- ==== Sys2Proof/Machine/Cvo.lean ====
section
/-! DEFINITION. OP_CVO and its eight functions (43_cvo.md): the common checks R221, the element-wise skeleton R218, the
reduction R206, the scaling R207. The effects of each function are a definition of their own, used when the engine runs a
synchronous instruction and when the asynchronous agent performs a pending one (R212, R256). -/

namespace Sys2Proof.Machine

/-- The check of R221 that the front end makes at dispatch, before the function code is examined. -/
def cvoDispatchCheck (flagsRsvd : BitVec 2) : Run Unit := refuseIf (flagsRsvd != 0) .reservedFieldNonzero

/-- `CVO_MAP(f, g)` (R218): subtract, apply, accumulate, store. -/
def cvoMap (g : Elem → Elem) (f : CvoFields) (k : Nat) (s : State) : Run State := do
  let x ← s.readL2Many k f.srcAddr.toNat f.length.toNat
  let x ← subtractEmax f s k x
  let y ← accumulate f s k (x.map g)
  return s.writeL2Many f.dstAddr.toNat y

/-- The effects of CVO_EXP (R201). -/
def effectsCvoExp (f : CvoFields) (k : Nat) (s : State) : Run State := cvoMap Config.cvoExp f k s
/-- The effects of CVO_SQRT (R202). -/
def effectsCvoSqrt (f : CvoFields) (k : Nat) (s : State) : Run State := cvoMap Config.cvoSqrt f k s
/-- The effects of CVO_GELU (R203). -/
def effectsCvoGelu (f : CvoFields) (k : Nat) (s : State) : Run State := cvoMap Config.cvoGelu f k s
/-- The effects of CVO_SIN (R204). -/
def effectsCvoSin (f : CvoFields) (k : Nat) (s : State) : Run State := cvoMap Config.cvoSin f k s
/-- The effects of CVO_COS (R205). -/
def effectsCvoCos (f : CvoFields) (k : Nat) (s : State) : Run State := cvoMap Config.cvoCos f k s
/-- The effects of CVO_RECIP (R208). -/
def effectsCvoRecip (f : CvoFields) (k : Nat) (s : State) : Run State := cvoMap Config.cvoRecip f k s

/-- The effects of CVO_REDUCE_SUM (R206): one scalar at `dst_addr`. -/
def effectsCvoReduceSum (f : CvoFields) (k : Nat) (s : State) : Run State := do
  let x ← s.readL2Many k f.srcAddr.toNat f.length.toNat
  let x ← subtractEmax f s k x
  let y ← accumulate f s k [Config.cvoSum x]
  return s.writeL2Many f.dstAddr.toNat y

/-- The factor CVO_SCALE multiplies by: the scalar, or with `recip_scale` its reciprocal (R207, R210). -/
def scaleFactor (f : CvoFields) (c : Elem) : Elem := if f.recipScale then Config.cvoRecip c else c

/-- The effects of CVO_SCALE (R207): the scalar at `src_addr` is read first and is not reduced by e_max (R209). -/
def effectsCvoScale (f : CvoFields) (k : Nat) (s : State) : Run State := do
  let c ← orRaise (s.readL2 f.srcAddr.toNat) (.unwrittenRead (.l2 f.srcAddr.toNat) k)
  let x ← s.readL2Many k (cvoVectorBase .scale f s) f.length.toNat
  let x ← subtractEmax f s k x
  let y ← accumulate f s k (x.map fun v => Config.cvoMul v (scaleFactor f c))
  return s.writeL2Many f.dstAddr.toNat y

/-- The effects of function `func`, for the asynchronous agent (R256). -/
def cvoEffects (func : CvoFunc) (f : CvoFields) (k : Nat) (s : State) : Run State :=
  match func with
  | .exp => effectsCvoExp f k s
  | .sqrt => effectsCvoSqrt f k s
  | .gelu => effectsCvoGelu f k s
  | .sin => effectsCvoSin f k s
  | .cos => effectsCvoCos f k s
  | .reduceSum => effectsCvoReduceSum f k s
  | .scale => effectsCvoScale f k s
  | .recip => effectsCvoRecip f k s

/-- The checks of R221 made when the CVO engine starts the entry, in order; the reserved function codes were faulted
before (R111). -/
def cvoCheck (func : CvoFunc) (f : CvoFields) (s : State) : Run Unit := do
  refuseIf (f.recipScale && func != .scale) .flagNotApplicable
  refuseIf (f.length == 0) .zeroExtent
  refuseIf (!fitsL2 (cvoVectorBase func f s) f.length.toNat) .addressRangeOverflow
  refuseIf (!fitsL2 f.dstAddr.toNat (cvoOutLen func f)) .addressRangeOverflow
  refuseIf (cvoOverlap func f s) .operandOverlap

/-- `CVO(f)` (R221): the checks, then the effects now, or later where `async = 1` (R212). The check made at dispatch
stands here too (log 10). -/
def cvo (func : CvoFunc) (effects : CvoFields → Nat → State → Run State) (f : CvoFields) (s : State) : Run State := do
  cvoDispatchCheck f.flagsRsvd
  cvoCheck func f s
  if f.async then return s.addPending .cvo (.cvo func f)
  else effects f (s.runningNumber .cvo) s

/-- CVO_EXP (R201). -/
def execCvoExp (f : CvoFields) (s : State) : Result := toResult (cvo .exp effectsCvoExp f s)
/-- CVO_SQRT (R202). -/
def execCvoSqrt (f : CvoFields) (s : State) : Result := toResult (cvo .sqrt effectsCvoSqrt f s)
/-- CVO_GELU (R203). -/
def execCvoGelu (f : CvoFields) (s : State) : Result := toResult (cvo .gelu effectsCvoGelu f s)
/-- CVO_SIN (R204). -/
def execCvoSin (f : CvoFields) (s : State) : Result := toResult (cvo .sin effectsCvoSin f s)
/-- CVO_COS (R205). -/
def execCvoCos (f : CvoFields) (s : State) : Result := toResult (cvo .cos effectsCvoCos f s)
/-- CVO_REDUCE_SUM (R206). -/
def execCvoReduceSum (f : CvoFields) (s : State) : Result := toResult (cvo .reduceSum effectsCvoReduceSum f s)
/-- CVO_SCALE (R207). -/
def execCvoScale (f : CvoFields) (s : State) : Result := toResult (cvo .scale effectsCvoScale f s)
/-- CVO_RECIP (R208). -/
def execCvoRecip (f : CvoFields) (s : State) : Result := toResult (cvo .recip effectsCvoRecip f s)

end Sys2Proof.Machine
end

