-- ==== Sys2Proof/Machine/Gemx.lean ====
section
/-! DEFINITION. GEMV and GEMM (40_gemv_gemm.md). One body layout, one rule, R151; two opcodes, engines and numeric
functions. -/

namespace Sys2Proof.Machine

/-- The checks of R151 that the front end makes at dispatch. -/
def gemxDispatchCheck (f : GemxFields) : Run Unit := do
  refuseIf (f.rsvd != 0 || f.flagsRsvd != 0) .reservedFieldNonzero
  refuseIf (f.parallelLane == 0) .zeroLanes

/-- The old destination elements, read with `accm` only (R144). -/
def gemxOld (f : GemxFields) (s : State) (k nOut : Nat) : Run (Option (List Elem)) :=
  if f.accm then do
    let old ← s.readL2Many k f.destReg.toNat nOut
    return some old
  else return none

/-- `e_max` after a result: with `findemax` the new value, else as it was (R143). -/
def gemxEmax (kind : GemxKind) (f : GemxFields) (s : State) (out : List Elem) : Option Emax :=
  if f.findemax then some (Config.emaxFn kind s.eMax out) else s.eMax

/-- The common semantics `GEMX(kind, f)` (R151), checks in the order written, every read before the first write (R295).
The checks made at dispatch stand here too (log 10). -/
def gemx (kind : GemxKind) (f : GemxFields) (s : State) : Run State := do
  gemxDispatchCheck f
  let k := s.runningNumber (gemxEngine kind)
  let missing := Fault.unwrittenRead (.descriptor [f.shapePtr, f.sizePtr]) k
  let nIn ← orRaise (gemxInLen kind f s) missing
  let nOut ← orRaise (gemxOutLen kind f s) missing
  refuseIf (nIn == 0 || nOut == 0) .zeroExtent
  refuseIf (!fitsL2 f.srcAddr.toNat nIn) .addressRangeOverflow
  refuseIf (!fitsL2 f.destReg.toNat nOut) .addressRangeOverflow
  refuseIf (rangesMeet f.srcAddr.toNat nIn f.destReg.toNat nOut) .operandOverlap
  let x ← s.readL2Many k f.srcAddr.toNat nIn
  let old ← gemxOld f s k nOut
  let out := (List.range nOut).map (gemxElem kind f s x old)
  return { s.writeL2Many f.destReg.toNat out with eMax := gemxEmax kind f s out }

/-- OP_GEMV, vector-matrix multiply on the Vector Core (R141). -/
def execGemv (f : GemxFields) (s : State) : Result := toResult (gemx .gemv f s)

/-- OP_GEMM, matrix-matrix multiply on the Matrix Core (R142). -/
def execGemm (f : GemxFields) (s : State) : Result := toResult (gemx .gemm f s)

end Sys2Proof.Machine
end

