-- ==== Sys2Proof/Machine/Memcpy.lean ====
section
/-! DEFINITION. MEMCPY, the only load and store of the ISA (41_memcpy.md). -/

namespace Sys2Proof.Machine

/-- The checks of R171 that the front end makes at dispatch. -/
def memcpyDispatchCheck (f : MemcpyFields) : Run Unit := do
  refuseIf (f.auxAddr != 0) .reservedFieldNonzero
  refuseIf (copyRoute f).isNone .memcpyRouteUnspecified

/-- Host to L2 (R176): the elements the host bytes code go to L2 from `dest` on. -/
def copyFromHost (dest src : Addr) (n : Nat) (s : State) : Run State := do
  let r ← orRaise (hostRange s.platform src n) (.hostMemoryFault .hostToL2 src n)
  return s.writeL2Many dest.toNat (s.readHostElems r.1 r.2 n)

/-- L2 to host (R173): the elements from `src` on are read, coded and stored to the host range. -/
def copyToHost (dest src : Addr) (n k : Nat) (s : State) : Run State := do
  let vs ← s.readL2Many k src.toNat n
  let r ← orRaise (hostRange s.platform dest n) (.hostMemoryFault .l2ToHost dest n)
  return s.writeHostMany r.1 (encodeHost vs r.2)

/-- The transfer of R171, for instruction `k`, on the state as it is when the transfer is performed (R180). -/
def copyTransfer (route : CopyRoute) (dest src : Addr) (n k : Nat) (s : State) : Run State :=
  match route with
  | .hostToL2 => copyFromHost dest src n s
  | .l2ToHost => copyToHost dest src n k s

/-- `MEMCPY(f)` (R171), checks in the order written; the checks made at dispatch stand here too (log 10). -/
def memcpy (f : MemcpyFields) (s : State) : Run State := do
  memcpyDispatchCheck f
  let k := s.runningNumber .mem
  match copyRoute f with
  | none => .error (.refused .memcpyRouteUnspecified)
  | some route =>
    let n ← orRaise (copyLen route f s) (.unwrittenRead (.descriptor [f.shapePtr]) k)
    refuseIf (n == 0) .zeroExtent
    refuseIf (route == .l2ToHost && !fitsL2 f.srcAddr.toNat n) .addressRangeOverflow
    refuseIf (route == .hostToL2 && !fitsL2 f.destAddr.toNat n) .addressRangeOverflow
    if f.async then return s.addPending .mem (.copy route f.destAddr f.srcAddr n)
    else copyTransfer route f.destAddr f.srcAddr n k s

/-- OP_MEMCPY on the MEM dispatcher (R171). -/
def execMemcpy (f : MemcpyFields) (s : State) : Result := toResult (memcpy f s)

end Sys2Proof.Machine
end

