-- ==== Sys2Proof/Machine/Memset.lean ====
section
/-! DEFINITION. MEMSET, which writes one descriptor entry (42_memset.md). -/

namespace Sys2Proof.Machine

/-- The checks of R191, both made at dispatch. -/
def memsetDispatchCheck (f : MemsetFields) : Run Unit := do
  refuseIf (f.rsvd != 0) .reservedFieldNonzero
  refuseIf (decide (2 ≤ f.destCache.toNat)) .undefinedDestCache

/-- The entry a MEMSET writes (R31, R190). -/
def memsetEntry (f : MemsetFields) : Descriptor := { a := f.aValue, b := f.bValue, c := f.cValue }

/-- `MEMSET(f)` (R191); the checks made at dispatch stand here too (log 10). -/
def memset (f : MemsetFields) (s : State) : Run State := do
  memsetDispatchCheck f
  return if f.destCache == 0 then s.writeFmapShape f.destAddr (memsetEntry f)
    else s.writeWeightShape f.destAddr (memsetEntry f)

/-- OP_MEMSET on the memory-set unit (R191, R194). -/
def execMemset (f : MemsetFields) (s : State) : Result := toResult (memset f s)

end Sys2Proof.Machine
end

