-- ==== Sys2Proof/Machine/Dispatch.lean ====
section
/-! DEFINITION. One arm per instruction: the meaning of what an engine executes. -/

namespace Sys2Proof.Machine

def exec (i : Instr) (s : State) : Host.Outcome State Fault Refusal :=
  match i with
  | .gemv f => Sys2Proof.Machine.execGemv f s
  | .gemm f => Sys2Proof.Machine.execGemm f s
  | .memcpy f => Sys2Proof.Machine.execMemcpy f s
  | .memset f => Sys2Proof.Machine.execMemset f s
  | .cvoExp f => Sys2Proof.Machine.execCvoExp f s
  | .cvoSqrt f => Sys2Proof.Machine.execCvoSqrt f s
  | .cvoGelu f => Sys2Proof.Machine.execCvoGelu f s
  | .cvoSin f => Sys2Proof.Machine.execCvoSin f s
  | .cvoCos f => Sys2Proof.Machine.execCvoCos f s
  | .cvoReduceSum f => Sys2Proof.Machine.execCvoReduceSum f s
  | .cvoScale f => Sys2Proof.Machine.execCvoScale f s
  | .cvoRecip f => Sys2Proof.Machine.execCvoRecip f s

end Sys2Proof.Machine
end

