-- ==== Sys2Proof/Machine/Footprints.lean ====
section
/-! DEFINITION. Footprints and conflicts (20_memory.md R76, R77): what an instruction reads and writes, computed from its
word and the state at the moment it is latched, and when two footprints conflict (R261). -/

namespace Sys2Proof.Machine

/-- The footprint that could not be computed: every location (R76, R261). -/
def unknownFootprint : Footprint := { known := false, reads := [], writes := [] }

/-- One region if the flag is set. -/
def regionIf (c : Bool) (r : Region) : List Region := if c then [r] else []

/-- GEMV and GEMM (R150). -/
def gemxFootprint (kind : GemxKind) (f : GemxFields) (s : State) : Footprint :=
  match gemxInLen kind f s, gemxOutLen kind f s with
  | some nIn, some nOut =>
    let out := Region.l2 f.destReg.toNat nOut
    { known := true
      reads :=
        [.fmapShape f.shapePtr, .weightShape f.shapePtr, .fmapShape f.sizePtr, .weightShape f.sizePtr,
          .l2 f.srcAddr.toNat nIn] ++ regionIf f.accm out ++ regionIf f.findemax .eMax
      writes := [out] ++ regionIf f.findemax .eMax }
  | _, _ => unknownFootprint

/-- The host bytes a copy touches (R179), whether or not the platform lets it reach them (R294): none where the field has
no address, since such a copy faults before it touches a byte (DESIGN CHOICE, log 36). -/
def hostRegions (p : Platform) (field : Addr) (n : Nat) : List Region :=
  (hostImage p field n).toList.map fun r => .host r.1 r.2

/-- MEMCPY (R179). A word that dispatch will refuse reads its descriptor entries and writes nothing (log 17). -/
def memcpyFootprint (f : MemcpyFields) (s : State) : Footprint :=
  let entries := [Region.fmapShape f.shapePtr, .weightShape f.shapePtr]
  match copyRoute f with
  | none => { known := true, reads := entries, writes := [] }
  | some route =>
    match route, copyLen route f s with
    | _, none => unknownFootprint
    | .hostToL2, some n =>
      { known := true
        reads := entries ++ hostRegions s.platform f.srcAddr n
        writes := [.l2 f.destAddr.toNat n] }
    | .l2ToHost, some n =>
      { known := true
        reads := entries ++ [.l2 f.srcAddr.toNat n]
        writes := hostRegions s.platform f.destAddr n }

/-- MEMSET (R191): one entry of one cache. With `dest_cache` 2 or 3, which is refused at dispatch (R192) and to which R191
gives no footprint, it touches nothing: DESIGN CHOICE, log 35. -/
def memsetFootprint (f : MemsetFields) : Footprint :=
  { known := true
    reads := []
    writes :=
      regionIf (f.destCache == 0) (.fmapShape f.destAddr) ++ regionIf (f.destCache == 1) (.weightShape f.destAddr) }

/-- The input regions of a CVO function (R214; for CVO_SCALE also the scalar, R220). -/
def cvoInputs (func : CvoFunc) (f : CvoFields) (s : State) : List Region :=
  let vector := Region.l2 (cvoVectorBase func f s) f.length.toNat
  match func with
  | .scale => [.l2 f.srcAddr.toNat 1, vector]
  | _ => [vector]

/-- CVO (R220). -/
def cvoFootprint (func : CvoFunc) (f : CvoFields) (s : State) : Footprint :=
  let out := Region.l2 f.dstAddr.toNat (cvoOutLen func f)
  { known := true
    reads := cvoInputs func f s ++ regionIf f.accm out ++ regionIf f.subEmax .eMax
    writes := [out] }

/-- The footprint of an instruction at a state (R76). -/
def instrFootprint (i : Instr) (s : State) : Footprint :=
  match i with
  | .gemv f => gemxFootprint .gemv f s
  | .gemm f => gemxFootprint .gemm f s
  | .memcpy f => memcpyFootprint f s
  | .memset f => memsetFootprint f
  | .cvoExp f => cvoFootprint .exp f s
  | .cvoSqrt f => cvoFootprint .sqrt f s
  | .cvoGelu f => cvoFootprint .gelu f s
  | .cvoSin f => cvoFootprint .sin f s
  | .cvoCos f => cvoFootprint .cos f s
  | .cvoReduceSum f => cvoFootprint .reduceSum f s
  | .cvoScale f => cvoFootprint .scale f s
  | .cvoRecip f => cvoFootprint .recip f s

/-- The footprint of a word; a reserved word touches nothing, it only faults (log 17). -/
def footprintOf (w : Word) (s : State) : Footprint :=
  match decode w with
  | .ok i => instrFootprint i s
  | .error _ => { known := true, reads := [], writes := [] }

/-- The footprint of a host memory read of `len` bytes (R274). -/
def hostReadFootprint (a len : Nat) : Footprint := { known := true, reads := [.host a len], writes := [] }

/-- The footprint of a host memory write of `len` bytes (R274). -/
def hostWriteFootprint (a len : Nat) : Footprint := { known := true, reads := [], writes := [.host a len] }

/-- The first location of a region, if it holds one. -/
def regionFirst : Region → Option Loc
  | .l2 b n => if n = 0 then none else some (.l2 b)
  | .host b n => if n = 0 then none else some (.host b)
  | .fmapShape p => some (.fmapShape p)
  | .weightShape p => some (.weightShape p)
  | .eMax => some .eMax

/-- The first location that a region of one list and a region of another share. -/
def regionsShare (rs qs : List Region) : Option Loc := rs.findSome? fun r => qs.findSome? (sharedLoc r)

/-- One location that two footprints, one of them unknown, both hold: the unknown one holds every location (R76). Where
both are unknown, e_max stands for any (log 18). -/
def unknownShare (a b : Footprint) : Option Loc :=
  if a.known then (a.writes ++ a.reads).findSome? regionFirst
  else if b.known then (b.writes ++ b.reads).findSome? regionFirst
  else some .eMax

/-- Whether two footprints conflict (R77), and if so at which location (R292). An unknown footprint conflicts with
everything (R261), even with one that holds no location, where there is none to name. -/
def footprintConflict (a b : Footprint) : Option (Option Loc) :=
  if a.known && b.known then
    ((regionsShare a.writes (b.reads ++ b.writes)).or (regionsShare a.reads b.writes)).map some
  else some (unknownShare a b)

/-- The first instruction in flight that a footprint conflicts with, and where (R261). -/
def firstConflict (fp : Footprint) : List (Nat × Footprint) → Option (Nat × Option Loc)
  | [] => none
  | (k, g) :: rest =>
    match footprintConflict fp g with
    | some loc => some (k, loc)
    | none => firstConflict fp rest

end Sys2Proof.Machine
end

