-- ==== Sys2Proof/Machine/FrontEnd.lean ====
section
/-! DEFINITION. The front end's dispatch step (44_uops_and_dispatch.md R244, R245, R254). -/

namespace Sys2Proof.Machine

/-- The engine an opcode is routed to, none for a reserved opcode (R245, R103). -/
def engineOfOpcode (op : BitVec 4) : Option Engine :=
  match op.toNat with
  | 0 => some .gemv
  | 1 => some .gemm
  | 2 => some .mem
  | 3 => some .memset
  | 4 => some .cvo
  | _ => none

/-- `FIFO_DEPTH[e]` (R254): at least 1. -/
def fifoDepth (p : Platform) (e : Engine) : Nat := p.fifoDepthPred.get e + 1

/-- The checks the front end makes on a decoded instruction (R244). -/
def instrDispatchCheck : Instr → Run Unit
  | .gemv f => gemxDispatchCheck f
  | .gemm f => gemxDispatchCheck f
  | .memcpy f => memcpyDispatchCheck f
  | .memset f => memsetDispatchCheck f
  | .cvoExp f => cvoDispatchCheck f.flagsRsvd
  | .cvoSqrt f => cvoDispatchCheck f.flagsRsvd
  | .cvoGelu f => cvoDispatchCheck f.flagsRsvd
  | .cvoSin f => cvoDispatchCheck f.flagsRsvd
  | .cvoCos f => cvoDispatchCheck f.flagsRsvd
  | .cvoReduceSum f => cvoDispatchCheck f.flagsRsvd
  | .cvoScale f => cvoDispatchCheck f.flagsRsvd
  | .cvoRecip f => cvoDispatchCheck f.flagsRsvd

/-- The checks of R244 on a word of a defined opcode; a CVO word's function code is not examined here (R221). -/
def dispatchCheck (w : Word) : Run Unit :=
  match decode w with
  | .ok i => instrDispatchCheck i
  | .error (.reservedCvoFunc _ f) => cvoDispatchCheck f.flagsRsvd
  | .error (.reservedOpcode _ _) => raise (.reservedOpcode w)

/-- `s` with the entry at the tail of the FIFO of `e` and nothing latched (R244). -/
def dispatchState (e : Engine) (en : Entry) (s : State) : State :=
  { s with fifo := s.fifo.set e (s.fifo.get e ++ [en]), latched := none }

/-- The FIFO of `e` has room (R244, R254). -/
def fifoHasRoom (e : Engine) (s : State) : Bool := decide ((s.fifo.get e).length < fifoDepth s.platform e)

/-- The dispatch step (R244). Where it is not enabled (nothing latched, or no room, R254) nothing happens. -/
def dispatch (s : State) : Result :=
  match s.latched with
  | none => .next s
  | some en =>
    match engineOfOpcode (opcodeOf en.word) with
    | none => .fault (.reservedOpcode en.word)
    | some e =>
      if fifoHasRoom e s then
        toResult do
          dispatchCheck en.word
          return dispatchState e en s
      else .next s

/-- The dispatch step is enabled (R244): a reserved opcode needs no room. -/
def dispatchEnabled (s : State) : Bool :=
  match s.latched with
  | none => false
  | some en =>
    match engineOfOpcode (opcodeOf en.word) with
    | none => true
    | some e => fifoHasRoom e s

end Sys2Proof.Machine
end

