-- ==== Sys2Proof/Machine/HostPort.lean ====
section
/-! DEFINITION. The Host agent's steps (45_host_interface.md): the write of the low word (R271), the latch (R272), the
status read (R273), every other bus access (R278), and the host's accesses to its own memory (R274, R281). -/

namespace Sys2Proof.Machine

/-- Write of `v` to offset 0x00 (R271), under the host's duty (R276). -/
def hostWriteLow (v : Half) (s : State) : Result :=
  if s.issueOk then .next { s with cmdLo := some v } else .refused .issuedWithoutBusyClear

/-- The state after the latch of `v` and `lo` (R272, R39): the instruction gets its number and its footprint. -/
def latchState (v lo : Half) (s : State) : State :=
  let w := assembleWord lo v
  { s with
    latched := some { number := s.nLatched + 1, word := w, footprint := footprintOf w s }
    cmdLo := none
    nLatched := s.nLatched + 1
    issueOk := false }

/-- Write of `v` to offset 0x04: the latch (R272), checks in the order written. The host's own accesses are whole steps,
so none is under way when the latch happens (log 18). A latch that finds no low word counts nothing, so the number its
fault records is the one the word would have had: DESIGN CHOICE, log 33. -/
def hostWriteHigh (v : Half) (s : State) : Result :=
  if s.issueOk then
    match s.cmdLo with
    | none => .fault (.unwrittenRead .cmdLo (s.nLatched + 1))
    | some lo =>
      match firstConflict (footprintOf (assembleWord lo v) s) s.inFlight with
      | some (other, loc) => .fault (.inFlightConflict (.instr (s.nLatched + 1)) other loc)
      | none => .next (latchState v lo s)
  else .refused .issuedWithoutBusyClear

/-- Read of offset 0x08 (R273): the value goes to the host, `issue_ok` becomes "BUSY was 0", nothing else of the NPU
changes. -/
def hostReadStatus (s : State) : State :=
  { s with
    issueOk := !s.status.getLsbD 0
    statusReads := s.status :: s.statusReads
    draws := s.draws + 1 }

/-- The host stores bytes to its own memory (R274); a copy in flight that touches them is a conflict (R182, R281). -/
def hostMemWrite (a : Nat) (bytes : List Byte) (s : State) : Result :=
  match firstConflict (hostWriteFootprint a bytes.length) s.inFlight with
  | some (other, loc) => .fault (.inFlightConflict (.host (.memWrite a bytes)) other loc)
  | none => .next (s.writeHostMany a bytes)

/-- The host loads bytes of its own memory (R274): nothing of the NPU changes; a copy in flight that writes them is a
conflict (R182, R281). -/
def hostMemRead (a len : Nat) (s : State) : Result :=
  match firstConflict (hostReadFootprint a len) s.inFlight with
  | some (other, loc) => .fault (.inFlightConflict (.host (.memRead a len)) other loc)
  | none => .next s

/-- One step of the Host agent (R270): three bus accesses, its own memory, and every other bus access refused (R278). -/
def hostStep (a : HostAccess) (s : State) : Result :=
  match a with
  | .busWrite addr width v =>
    if width = 32 ∧ addr = s.platform.axilBase then hostWriteLow v s
    else if width = 32 ∧ addr = s.platform.axilBase + 4 then hostWriteHigh v s
    else .refused .unsupportedRegisterAccess
  | .busRead addr width =>
    if width = 32 ∧ addr = s.platform.axilBase + 8 then .next (hostReadStatus s)
    else .refused .unsupportedRegisterAccess
  | .memWrite addr bytes => hostMemWrite addr bytes s
  | .memRead addr len => hostMemRead addr len s

end Sys2Proof.Machine
end

