-- ==== Sys2Proof/Machine/Engines.lean ====
section
/-! DEFINITION. The steps of the engines and of the asynchronous agent (44_uops_and_dispatch.md R251, R256), which move
comes next (R240), and how a word is put where the next step executes it (log 21). -/

namespace Sys2Proof.Machine

/-- The fault of a word that is no instruction, when an engine starts it (R111; R103 for an opcode no FIFO can hold). -/
def decodeFault (w : Word) : DecodeError → Fault
  | .reservedOpcode _ _ => .reservedOpcode w
  | .reservedCvoFunc _ _ => .reservedCvoFunc w

/-- The entry at the head of the FIFO of `e` is popped and running (R251). -/
def popState (e : Engine) (en : Entry) (rest : List Entry) (s : State) : State :=
  { s with fifo := s.fifo.set e rest, running := s.running.set e (some en) }

/-- Instruction `k` on engine `e` is complete for status and no longer running (R251, R255). -/
def retire (e : Engine) (k : Nat) (s : State) : State := { s.complete k with running := s.running.set e none }

/-- An outcome with a function applied to its next state. -/
def mapNext (g : State → State) : Result → Result
  | .next t => .next (g t)
  | .fault r => .fault r
  | .refused r => .refused r

/-- The engine runs an entry it has popped (R251): its instruction's meaning, then the entry retires. -/
def runEntry (e : Engine) (en : Entry) (s : State) : Result :=
  match decode en.word with
  | .error d => .fault (decodeFault en.word d)
  | .ok i => mapNext (retire e en.number) (exec i s)

/-- The engine step of `e` (R251): pop, execute, complete, as one step. Where it is not enabled nothing happens. -/
def engineStep (e : Engine) (s : State) : Result :=
  match s.running.get e, s.fifo.get e with
  | none, en :: rest => runEntry e en (popState e en rest s)
  | _, _ => .next s

/-- The engine step of `e` is enabled (R251). -/
def engineEnabled (e : Engine) (s : State) : Bool := (s.running.get e).isNone && !(s.fifo.get e).isEmpty

/-- A pending operation's effects, on the state as it is now (R256). -/
def performDeferred (op : Deferred) (k : Nat) (s : State) : Run State :=
  match op with
  | .copy route dest src n => copyTransfer route dest src n k s
  | .cvo func f => cvoEffects func f k s

/-- Nothing is pending under number `k` any more (R256). -/
def removePending (k : Nat) (s : State) : State := { s with pendingAsync := cellErase s.pendingAsync k }

/-- The asynchronous agent's step for the pending operation tagged `k` (R256). Where nothing is pending under `k`,
nothing happens. -/
def asyncStep (k : Nat) (s : State) : Result :=
  match cellRead s.pendingAsync k with
  | none => .next s
  | some p => mapNext (removePending k) (toResult (performDeferred p.op k s))

/-- One agent's step (R240). -/
def moveStep (m : Move) (s : State) : Result :=
  match m with
  | .host a => hostStep a s
  | .dispatch => dispatch s
  | .engine e => engineStep e s
  | .performAsync k => asyncStep k s

/-- When the script has run out: an enabled agent, if there is one (R258: an enabled agent eventually steps; log 8). -/
def drainMove (s : State) : Option Move :=
  if dispatchEnabled s then some .dispatch
  else
    match Engine.list.find? fun e => engineEnabled e s with
    | some e => some (.engine e)
    | none =>
      match s.pendingAsync with
      | (k, _) :: _ => some (.performAsync k)
      | [] => none

/-- The move the next step makes: the head of the script; with no script left, a drain move (log 8). -/
def nextMove (s : State) : Option Move :=
  match s.script with
  | m :: _ => some m
  | [] => drainMove s

/-- The state in which a step makes its move: the script no longer names it. -/
def State.advance (s : State) : State := { s with script := s.script.tail }

/-- The next agent's step; with nothing left to do, the machine stays as it is (R286: a run's normal end). -/
def agentStep (s : State) : Result :=
  match nextMove s with
  | some m => moveStep m s.advance
  | none => .next s

/-- One step: a run that has recorded a fault or a refusal takes none (R286). -/
def stepOf (s : State) : Result :=
  match s.faults, s.refused with
  | r :: _, _ => .fault r
  | [], some r => .refused r
  | [], none => agentStep s

/-- What is left of a host access that stopped (R272, R292): a latch that found a conflict has taken the low word, the
number and the host's permission; the word itself is in flight no more (R252; log 9). Every other access leaves nothing. -/
def abandonHost (a : HostAccess) (s : State) : State :=
  match a with
  | .busWrite addr width _ =>
    if width = 32 ∧ addr = s.platform.axilBase + 4 ∧ s.issueOk = true ∧ s.cmdLo.isSome = true then
      { s with cmdLo := none, nLatched := s.nLatched + 1, issueOk := false }
    else s
  | _ => s

/-- The state without the instruction that stopped in move `m`: it is neither latched (R244), nor in its engine's FIFO or
running (R251), nor pending (R256), so it is in flight no more (R252), and it never becomes complete (R244). -/
def abandon (m : Move) (s : State) : State :=
  match m with
  | .host a => abandonHost a s
  | .dispatch => { s with latched := none }
  | .engine e => { s with fifo := s.fifo.set e (s.fifo.get e).tail, running := s.running.set e none }
  | .performAsync k => removePending k s

/-- The state a step that stopped at `s` leaves, before the stop is recorded. -/
def stoppedState (s : State) : State :=
  match nextMove s with
  | some m => abandon m s.advance
  | none => s

/-- A fault or a refusal is recorded: the run has ended abnormally (R286). -/
def State.stopped (s : State) : Bool := !s.faults.isEmpty || s.refused.isSome

/-- The state after a step, stops included (R292, R293): `Host.Outcome` carries no state with a stop, and this is the one
the spec gives (log 9). Only the first stop is ever recorded (R297). -/
def afterStep (s : State) : State :=
  if s.stopped then s
  else
    match stepOf s with
    | .next t => t
    | .fault r => (stoppedState s).recordFault r
    | .refused r => (stoppedState s).recordRefusal r

/-- The word gets past the front end, or is an instruction, whose meaning makes the front end's checks again (log 10). -/
def runsOnEngine (w : Word) : Bool := (decode w).isOk || (dispatchCheck w).isOk

/-- `s` with `w` latched, dispatched and at the head of its engine's FIFO, that engine idle and next to step, the run not
ended. A word that is no instruction and that the front end turns away is latched with the front end next, which has room
in every FIFO: a reserved opcode, and a reserved CVO function with a reserved flag bit set (R297; log 21). -/
def loadWord (w : Word) (s : State) : State :=
  let en : Entry := { number := s.nLatched + 1, word := w, footprint := footprintOf w s }
  let t := { s with nLatched := s.nLatched + 1, faults := [], refused := none }
  match runsOnEngine w, engineOfOpcode (opcodeOf w) with
  | true, some e =>
    { t with
      fifo := s.fifo.set e (en :: s.fifo.get e)
      running := s.running.set e none
      script := .engine e :: s.script }
  | _, _ => { t with latched := some en, fifo := PerEngine.all [], script := .dispatch :: s.script }

end Sys2Proof.Machine
end

