-- ==== Sys2Proof/Machine/Step.lean ====
section
/-! DEFINITION. The step function, and how the host's tools place a word where the next step executes it. -/

namespace Sys2Proof.Machine

/-- One step of the machine. -/
def step (s : State) : Host.Outcome State Fault Refusal := stepOf s

/-- `s` with the instruction whose bits are `w` (those from `nbits` up zero) where the next step executes it. -/
def State.withFetchWord (s : State) (nbits w : Nat) : State := loadWord (BitVec.ofNat 64 (w % 2 ^ nbits)) s

end Sys2Proof.Machine
end

