-- ==== Sys2Proof/Machine/Observe.lean ====
section
/-! DEFINITION. Runs and what they show to the outside (45_host_interface.md R285, R286): the status values the host read,
masked to BUSY and DONE; the content of host memory; whether a fault or a refusal was recorded. Nothing else of the state
is seen (10_state.md R49). -/

namespace Sys2Proof.Machine

/-- The status values the host has read, in order, masked to bits [1:0] (R285): DONE high, BUSY low. -/
def State.observedStatus (s : State) : List (BitVec 2) := s.statusReads.reverse.map fun v => v.extractLsb' 0 2

/-- The bytes of a host buffer, given as its base and its length. -/
def State.bufferBytes (s : State) (b : Nat × Nat) : List Byte := (List.range b.2).map fun j => s.hostByte (b.1 + j)

/-- The host's program: its accesses, without the schedule of the NPU's own agents (R22, R45). -/
def State.hostProgram (s : State) : List HostAccess :=
  s.script.filterMap fun m =>
    match m with
    | .host a => some a
    | _ => none

/-- `n` steps, stops included. -/
def runSteps : Nat → State → State
  | 0, s => s
  | n + 1, s => runSteps n (afterStep s)

/-- A run has ended: abnormally, or with the host's program exhausted and nothing in flight (R286). -/
def State.ended (s : State) : Bool := s.stopped || (s.hostProgram.isEmpty && s.quiescent)

/-- What the end of a run shows of the buffers its program declares as output (R285). -/
structure Observation where
  outputs : List (List Byte)
  stopped : Bool
  deriving DecidableEq, Repr

/-- The observation of an ended run. -/
def State.observe (s : State) (buffers : List (Nat × Nat)) : Observation :=
  { outputs := buffers.map s.bufferBytes, stopped := s.stopped }

/-- Two runs start with the same host program, the same configuration and the same content of host memory (R285). -/
def sameInputs (s s' : State) : Bool :=
  s.hostProgram == s'.hostProgram && s.platform == s'.platform && s.hostMem == s'.hostMem

/-- Two runs with the same inputs, of `n` and `n'` steps, both ended, are equivalent (R285). -/
def runsEquivalent (buffers : List (Nat × Nat)) (s : State) (n : Nat) (s' : State) (n' : Nat) : Bool :=
  sameInputs s s' && (runSteps n s).ended && (runSteps n' s').ended &&
    (runSteps n s).observe buffers == (runSteps n' s').observe buffers

end Sys2Proof.Machine
end

