-- ==== Sys2Proof/Machine/Uops.lean ====
section
/-! DEFINITION. The micro-ops the Global Scheduler forms from an instruction body (44_uops_and_dispatch.md R242, R246 to
R250), their packed layout (R257), and the route codes (30_encoding.md R117, R118). Every micro-op is a pure function of
the instruction, so the FIFOs hold the word and these are computed from it (log 15). -/

namespace Sys2Proof.Machine

/-- The 8-bit code of a route: source node high, destination node low (R117). -/
def routeCode : Route → BitVec 8
  | .hostToL2 => 0x01#8
  | .l2ToHost => 0x10#8
  | .l2ToL1Gemm => 0x12#8
  | .l2ToL1Gemv => 0x13#8
  | .l2ToCvo => 0x14#8
  | .gemvResToL2 => 0x31#8
  | .gemmResToL2 => 0x21#8
  | .cvoResToL2 => 0x41#8

/-- A copy's route among the eight (R172). -/
def copyRouteOf : CopyRoute → Route
  | .hostToL2 => .hostToL2
  | .l2ToHost => .l2ToHost

/-- `gemv_control_uop_t`, also `gemm_control_uop_t` (R246). -/
structure GemxUop where
  flags : BitVec 6
  sizePtr : Ptr
  parallelLane : BitVec 5
  deriving DecidableEq, Repr

/-- `memory_control_uop_t` (R247). -/
structure MemUop where
  dataDest : Route
  destAddr : Addr
  srcAddr : Addr
  shapePtr : Ptr
  async : Bool
  deriving DecidableEq, Repr

/-- `memory_set_uop_t` (R248). -/
structure MemsetUop where
  destCache : BitVec 2
  destAddr : Ptr
  aValue : BitVec 16
  bValue : BitVec 16
  cValue : BitVec 16
  deriving DecidableEq, Repr

/-- `cvo_control_uop_t` (R250). -/
structure CvoUop where
  cvoFunc : BitVec 4
  srcAddr : Addr
  dstAddr : Addr
  length : BitVec 16
  flags : BitVec 5
  async : Bool
  deriving DecidableEq, Repr

/-- A micro-op of any engine. -/
inductive Uop where
  | gemx (u : GemxUop)
  | mem (u : MemUop)
  | memset (u : MemsetUop)
  | cvo (u : CvoUop)
  deriving DecidableEq, Repr

/-- 17 bits, first member most significant (R246, R257). -/
def GemxUop.pack (u : GemxUop) : BitVec 17 := u.flags ++ u.sizePtr ++ u.parallelLane

/-- 49 bits (R247, R257). -/
def MemUop.pack (u : MemUop) : BitVec 49 :=
  routeCode u.dataDest ++ u.destAddr ++ u.srcAddr ++ u.shapePtr ++ BitVec.ofBool u.async

/-- 56 bits (R248, R257). -/
def MemsetUop.pack (u : MemsetUop) : BitVec 56 := u.destCache ++ u.destAddr ++ u.aValue ++ u.bValue ++ u.cValue

/-- 60 bits (R250, R257). -/
def CvoUop.pack (u : CvoUop) : BitVec 60 :=
  u.cvoFunc ++ u.srcAddr ++ u.dstAddr ++ u.length ++ u.flags ++ BitVec.ofBool u.async

/-- The 6-bit `flags_t` of a format G body (R108). -/
def gemxFlags (f : GemxFields) : BitVec 6 :=
  BitVec.ofBool f.findemax ++ BitVec.ofBool f.accm ++ BitVec.ofBool f.wScale ++ f.flagsRsvd

/-- The 5-bit `cvo_flags_t` of a format C body (R109). -/
def cvoFlags (f : CvoFields) : BitVec 5 :=
  BitVec.ofBool f.subEmax ++ BitVec.ofBool f.recipScale ++ BitVec.ofBool f.accm ++ f.flagsRsvd

/-- The function code of a CVO function (R110). -/
def cvoFuncCode : CvoFunc → BitVec 4
  | .exp => 0
  | .sqrt => 1
  | .gelu => 2
  | .sin => 3
  | .cos => 4
  | .reduceSum => 5
  | .scale => 6
  | .recip => 7

/-- The micro-ops of a GEMV or GEMM (R246, R249): one for the compute engine, and one for each half of its data movement
(R148). -/
def gemxUops (fill drain : Route) (f : GemxFields) : List Uop :=
  let move := fun r => Uop.mem
    { dataDest := r, destAddr := f.destReg, srcAddr := f.srcAddr, shapePtr := f.shapePtr, async := false }
  [.gemx { flags := gemxFlags f, sizePtr := f.sizePtr, parallelLane := f.parallelLane }, move fill, move drain]

/-- The micro-op of a MEMCPY, none where its selectors name no route (R247, R172). -/
def memcpyUops (f : MemcpyFields) : List Uop :=
  match copyRoute f with
  | some r => [.mem
      { dataDest := copyRouteOf r, destAddr := f.destAddr, srcAddr := f.srcAddr, shapePtr := f.shapePtr,
        async := f.async }]
  | none => []

/-- The micro-op of a MEMSET (R248). -/
def memsetUop (f : MemsetFields) : MemsetUop :=
  { destCache := f.destCache, destAddr := f.destAddr, aValue := f.aValue, bValue := f.bValue, cValue := f.cValue }

/-- The micro-op of a format C body, its function code reserved or not (R250). -/
def cvoUop (func : BitVec 4) (f : CvoFields) : CvoUop :=
  { cvoFunc := func, srcAddr := f.srcAddr, dstAddr := f.dstAddr, length := f.length, flags := cvoFlags f,
    async := f.async }

/-- The micro-ops of an instruction (R242). -/
def splitUops : Instr → List Uop
  | .gemv f => gemxUops .l2ToL1Gemv .gemvResToL2 f
  | .gemm f => gemxUops .l2ToL1Gemm .gemmResToL2 f
  | .memcpy f => memcpyUops f
  | .memset f => [.memset (memsetUop f)]
  | .cvoExp f => [.cvo (cvoUop (cvoFuncCode .exp) f)]
  | .cvoSqrt f => [.cvo (cvoUop (cvoFuncCode .sqrt) f)]
  | .cvoGelu f => [.cvo (cvoUop (cvoFuncCode .gelu) f)]
  | .cvoSin f => [.cvo (cvoUop (cvoFuncCode .sin) f)]
  | .cvoCos f => [.cvo (cvoUop (cvoFuncCode .cos) f)]
  | .cvoReduceSum f => [.cvo (cvoUop (cvoFuncCode .reduceSum) f)]
  | .cvoScale f => [.cvo (cvoUop (cvoFuncCode .scale) f)]
  | .cvoRecip f => [.cvo (cvoUop (cvoFuncCode .recip) f)]

/-- The micro-ops of a word (R242): a CVO word of a reserved function has its micro-op too, for it enters the CVO FIFO
(R250, R116, R221); a reserved opcode has none, for nothing is pushed (R244). -/
def wordUops (w : Word) : List Uop :=
  match decode w with
  | .ok i => splitUops i
  | .error (.reservedCvoFunc func f) => [.cvo (cvoUop func f)]
  | .error (.reservedOpcode _ _) => []

end Sys2Proof.Machine
end

