-- ==== Sys2Proof/Safety.lean ====
section
/-! DEFINITION. The terms claims are made in: a run that has not ended, the locations of the machine and which of them a
footprint holds, what it is for an operand to stand in L2, and the invariants every step keeps. -/

namespace Sys2Proof.Machine

/-- The run has not ended: no fault and no refusal is recorded (R286). -/
def Running (s : State) : Prop := s.faults = [] ∧ s.refused = none

/-- The location lies in the region. -/
def Region.holds : Region → Loc → Prop
  | .l2 b n, .l2 a => b ≤ a ∧ a < b + n
  | .host b n, .host a => b ≤ a ∧ a < b + n
  | .fmapShape p, .fmapShape q => p = q
  | .weightShape p, .weightShape q => p = q
  | .eMax, .eMax => True
  | _, _ => False

/-- The footprint reads the location. -/
def Footprint.readsLoc (fp : Footprint) (l : Loc) : Prop := ∃ r ∈ fp.reads, Region.holds r l

/-- The footprint writes the location. -/
def Footprint.writesLoc (fp : Footprint) (l : Loc) : Prop := ∃ r ∈ fp.writes, Region.holds r l

/-- Two states hold the same at a location. -/
def sameAt (s t : State) : Loc → Prop
  | .l2 a => t.readL2 a = s.readL2 a
  | .host a => t.readHost a = s.readHost a
  | .fmapShape p => t.readFmapShape p = s.readFmapShape p
  | .weightShape p => t.readWeightShape p = s.readWeightShape p
  | .eMax => t.eMax = s.eMax

/-- L2 holds the elements `x 0` to `x (n - 1)` from address `b` on. -/
def L2Holds (s : State) (b n : Nat) (x : Nat → Elem) : Prop := ∀ i, i < n → s.readL2 (b + i) = some (x i)

/-- `t` is `s` but for the L2 addresses `b` to `b + n - 1`. -/
def OnlyL2Range (s t : State) (b n : Nat) : Prop :=
  (∀ a, ¬(b ≤ a ∧ a < b + n) → t.readL2 a = s.readL2 a) ∧ { t with l2 := s.l2 } = s

/-- The two ranges of `n` and `n'` addresses share none. -/
def Apart (b n b' n' : Nat) : Prop := b + n ≤ b' ∨ b' + n' ≤ b

/-- `a` is the first address of the operand at which L2 holds nothing. -/
def FirstEmpty (s : State) (b n a : Nat) : Prop :=
  b ≤ a ∧ a < b + n ∧ s.readL2 a = none ∧ ∀ c, b ≤ c → c < a → s.readL2 c ≠ none

/-- Two footprints conflict (R77, R261): one of them is unknown, or what one writes the other reads or writes. -/
def Footprint.conflicts (a b : Footprint) : Prop :=
  a.known = false ∨ b.known = false ∨
    ∃ l, (a.writesLoc l ∧ (b.readsLoc l ∨ b.writesLoc l)) ∨ (a.readsLoc l ∧ b.writesLoc l)

/-- No two instructions in flight together conflict (R77). -/
def RaceFree (s : State) : Prop := s.inFlight.Pairwise fun x y => ¬Footprint.conflicts x.2 y.2

/-- The constructor of a CVO function (R110). -/
def cvoInstr : CvoFunc → CvoFields → Instr
  | .exp => .cvoExp
  | .sqrt => .cvoSqrt
  | .gelu => .cvoGelu
  | .sin => .cvoSin
  | .cos => .cvoCos
  | .reduceSum => .cvoReduceSum
  | .scale => .cvoScale
  | .recip => .cvoRecip

/-- The constructor of a multiply. -/
def gemxInstr : GemxKind → GemxFields → Instr
  | .gemv => .gemv
  | .gemm => .gemm

/-- The numeric function of an element-wise CVO function (R201 to R205, R208). -/
def cvoUnary : CvoFunc → Option (Elem → Elem)
  | .exp => some Config.cvoExp
  | .sqrt => some Config.cvoSqrt
  | .gelu => some Config.cvoGelu
  | .sin => some Config.cvoSin
  | .cos => some Config.cvoCos
  | .reduceSum => none
  | .scale => none
  | .recip => some Config.cvoRecip

/-- Element `i` of what the numeric function of a multiply makes of fmap elements and an old destination (R149). -/
def productElem (kind : GemxKind) (f : GemxFields) (d : GemxBundle) (xs : List Elem) (old : Option (List Elem))
    (i : Nat) : Elem :=
  match kind with
  | .gemv => Config.gemvFn xs (Config.weightStore .gemv f d) d f.wScale f.parallelLane old i
  | .gemm => Config.gemmFn xs (Config.weightStore .gemm f d) d f.wScale f.parallelLane old i

/-- The checks of R151 pass, with these extents. -/
def GemxReady (kind : GemxKind) (f : GemxFields) (s : State) (nIn nOut : Nat) : Prop :=
  f.flagsRsvd = 0 ∧ f.rsvd = 0 ∧ f.parallelLane ≠ 0 ∧ gemxInLen kind f s = some nIn ∧
    gemxOutLen kind f s = some nOut ∧ 0 < nIn ∧ 0 < nOut ∧ f.srcAddr.toNat + nIn ≤ l2Size ∧
    f.destReg.toNat + nOut ≤ l2Size ∧ Apart f.srcAddr.toNat nIn f.destReg.toNat nOut

/-- The checks of R171 pass, with this route and extent. -/
def MemcpyReady (route : CopyRoute) (f : MemcpyFields) (s : State) (n : Nat) : Prop :=
  f.auxAddr = 0 ∧ copyRoute f = some route ∧ copyLen route f s = some n ∧ 0 < n ∧
    (route = .l2ToHost → f.srcAddr.toNat + n ≤ l2Size) ∧ (route = .hostToL2 → f.destAddr.toNat + n ≤ l2Size)

/-- The ranges of a CVO function overlap only as its rule allows (R214, R206, R207; for one form of CVO_SCALE of length 1,
log 37). -/
def CvoRangesOk (func : CvoFunc) (f : CvoFields) (s : State) : Prop :=
  let n := f.length.toNat
  let dst := f.dstAddr.toNat
  match func with
  | .reduceSum => Apart f.srcAddr.toNat n dst 1
  | .scale =>
    Apart f.srcAddr.toNat 1 dst n ∧ (cvoVectorBase .scale f s = dst ∨ Apart (cvoVectorBase .scale f s) n dst n)
  | _ => f.srcAddr.toNat = dst ∨ Apart f.srcAddr.toNat n dst n

/-- The checks of R221 pass. -/
def CvoReady (func : CvoFunc) (f : CvoFields) (s : State) : Prop :=
  f.flagsRsvd = 0 ∧ (f.recipScale = true → func = .scale) ∧ f.length ≠ 0 ∧
    cvoVectorBase func f s + f.length.toNat ≤ l2Size ∧ f.dstAddr.toNat + cvoOutLen func f ≤ l2Size ∧
    CvoRangesOk func f s

/-- The instruction is an asynchronous one (R180, R212). -/
def instrIsAsync : Instr → Bool
  | .gemv _ => false
  | .gemm _ => false
  | .memcpy f => f.async
  | .memset _ => false
  | .cvoExp f => f.async
  | .cvoSqrt f => f.async
  | .cvoGelu f => f.async
  | .cvoSin f => f.async
  | .cvoCos f => f.async
  | .cvoReduceSum f => f.async
  | .cvoScale f => f.async
  | .cvoRecip f => f.async

/-- A pending operation writes inside L2, if it writes there at all (R66 was checked when it was accepted). -/
def Deferred.fits : Deferred → Prop
  | .copy .hostToL2 dest _ n => dest.toNat + n ≤ l2Size
  | .copy .l2ToHost _ _ _ => True
  | .cvo func f => f.dstAddr.toNat + cvoOutLen func f ≤ l2Size

/-- The memories are in canonical form inside their address spaces, and what is pending keeps them so (R61, R65, R66). -/
def MemoryInv (s : State) : Prop :=
  Memory.wf s = true ∧ ∀ c ∈ s.pendingAsync, Deferred.fits c.2.op

/-- The bookkeeping of issue, queues and completion: the host may issue only while nothing is latched (R276); no entry is
left running between steps (R251); each FIFO holds at most its depth (R40, R254) and only words of its own opcode (R245);
no instruction number is above the count of latches, the latched one is the last (R39, R43); what is complete or pending
is recorded once (R42, R43). -/
def QueueInv (s : State) : Prop :=
  (s.issueOk = true → s.latched = none) ∧
  (∀ e, s.running.get e = none) ∧
  (∀ e, (s.fifo.get e).length ≤ fifoDepth s.platform e) ∧
  (∀ e, ∀ en ∈ s.fifo.get e, engineOfOpcode (opcodeOf en.word) = some e ∧ en.number ≤ s.nLatched) ∧
  (∀ en, s.latched = some en → en.number = s.nLatched) ∧
  (∀ k ∈ s.completed, k ≤ s.nLatched) ∧ s.completed.Pairwise (· < ·) ∧
  (∀ c ∈ s.pendingAsync, c.1 ≤ s.nLatched) ∧ cellsRising s.pendingAsync = true

/-- How many agent steps are left when no more is issued: dispatch, engine and asynchronous step of a latched instruction,
the last two of a queued one, the last of a pending one. -/
def workLeft (s : State) : Nat :=
  3 * s.latched.toList.length + 2 * (Engine.list.flatMap fun e => s.fifo.get e).length + s.pendingAsync.length

/-- The entry an issue of word `w` at `s` makes (R272). -/
def issueEntry (w : Word) (s : State) : Entry :=
  { number := s.nLatched + 1, word := w, footprint := footprintOf w s }

/-- `s` after an issue whose entry has reached engine `e` and is running there: nothing of the issue is left in the command
register or a FIFO, and the host must read STATUS before it issues again (R272, R244, R251). -/
def issuedState (e : Engine) (w : Word) (s : State) : State :=
  { s with
    script := []
    cmdLo := none
    latched := none
    nLatched := s.nLatched + 1
    issueOk := false
    running := s.running.set e (some (issueEntry w s)) }

end Sys2Proof.Machine
end

