-- ==== Sys2Proof/Certificates/Slice0/Obligations.lean ====
section
/-! DEFINITION. The statements for the provers. Where a statement rests on a decision of the spec (a row D<n> of
92_eei_decisions.md) or on a choice of this model (log n = notes/assumptions/n.md), its docstring says so. -/

section

open Sys2Proof Sys2Proof.Machine

/-! ### Words -/

/-- No bit of an encoding is dropped: every instruction, whatever its fields (reserved ones included), is what its word
decodes to. -/
def Obligations.EncodeThenDecode : Prop := ∀ i : Instr, decode (encode i) = .ok i

/-- Every result of the decoder re-encodes to its word, the reserved ones too: the fields tile the word, and distinct words
decode to distinct results. -/
def Obligations.DecodeThenEncode : Prop :=
  (∀ w : Word, encodeDecoded (decode w) = w) ∧ ∀ (w : Word) (i : Instr), decode w = .ok i → encode i = w

/-- The decoder rejects exactly the reserved opcodes 5 to 15 and the reserved CVO functions 8 to 15, each by its name, and
keeps the body of the first and the fields of the second. -/
def Obligations.DecodeRejectsReserved : Prop :=
  ∀ w : Word,
    (5 ≤ w.toNat / 2 ^ 60 ↔ ∃ op body, decode w = .error (.reservedOpcode op body) ∧ op.toNat = w.toNat / 2 ^ 60 ∧
      body.toNat = w.toNat % 2 ^ 60) ∧
    (w.toNat / 2 ^ 60 = 4 ∧ 8 ≤ w.toNat / 2 ^ 56 % 16 ↔
      ∃ fn f, decode w = .error (.reservedCvoFunc fn f) ∧ fn.toNat = w.toNat / 2 ^ 56 % 16 ∧ f = decodeCvo w) ∧
    (w.toNat / 2 ^ 60 < 4 ∨ w.toNat / 2 ^ 60 = 4 ∧ w.toNat / 2 ^ 56 % 16 < 8 ↔ ∃ i, decode w = .ok i)

/-- Every field of the four formats is the contiguous slice of the word that its format's table gives, as an unsigned
number (R104 to R107). -/
def Obligations.FormatFieldSlices : Prop :=
  (∀ (w : Word) (f : GemxFields), decode w = .ok (.gemv f) ∨ decode w = .ok (.gemm f) →
    (w.toNat / 2 ^ 60 = 0 ∨ w.toNat / 2 ^ 60 = 1) ∧ (decode w = .ok (.gemv f) ↔ w.toNat / 2 ^ 60 = 0) ∧
    f.destReg.toNat = w.toNat / 2 ^ 43 % 2 ^ 17 ∧ f.srcAddr.toNat = w.toNat / 2 ^ 26 % 2 ^ 17 ∧
    (gemxFlags f).toNat = w.toNat / 2 ^ 20 % 2 ^ 6 ∧ f.sizePtr.toNat = w.toNat / 2 ^ 14 % 2 ^ 6 ∧
    f.shapePtr.toNat = w.toNat / 2 ^ 8 % 2 ^ 6 ∧ f.parallelLane.toNat = w.toNat / 2 ^ 3 % 2 ^ 5 ∧
    f.rsvd.toNat = w.toNat % 2 ^ 3) ∧
  (∀ (w : Word) (f : MemcpyFields), decode w = .ok (.memcpy f) →
    w.toNat / 2 ^ 60 = 2 ∧ f.fromDevice = w.toNat.testBit 59 ∧ f.toDevice = w.toNat.testBit 58 ∧
    f.destAddr.toNat = w.toNat / 2 ^ 41 % 2 ^ 17 ∧ f.srcAddr.toNat = w.toNat / 2 ^ 24 % 2 ^ 17 ∧
    f.auxAddr.toNat = w.toNat / 2 ^ 7 % 2 ^ 17 ∧ f.shapePtr.toNat = w.toNat / 2 % 2 ^ 6 ∧
    f.async = w.toNat.testBit 0) ∧
  (∀ (w : Word) (f : MemsetFields), decode w = .ok (.memset f) →
    w.toNat / 2 ^ 60 = 3 ∧ f.destCache.toNat = w.toNat / 2 ^ 58 % 2 ^ 2 ∧
    f.destAddr.toNat = w.toNat / 2 ^ 52 % 2 ^ 6 ∧ f.aValue.toNat = w.toNat / 2 ^ 36 % 2 ^ 16 ∧
    f.bValue.toNat = w.toNat / 2 ^ 20 % 2 ^ 16 ∧ f.cValue.toNat = w.toNat / 2 ^ 4 % 2 ^ 16 ∧
    f.rsvd.toNat = w.toNat % 2 ^ 4) ∧
  ∀ (w : Word) (func : CvoFunc) (f : CvoFields), decode w = .ok (cvoInstr func f) →
    w.toNat / 2 ^ 60 = 4 ∧ (cvoFuncCode func).toNat = w.toNat / 2 ^ 56 % 2 ^ 4 ∧
    f.srcAddr.toNat = w.toNat / 2 ^ 39 % 2 ^ 17 ∧ f.dstAddr.toNat = w.toNat / 2 ^ 22 % 2 ^ 17 ∧
    f.length.toNat = w.toNat / 2 ^ 6 % 2 ^ 16 ∧ (cvoFlags f).toNat = w.toNat / 2 % 2 ^ 5 ∧
    f.async = w.toNat.testBit 0

/-- The function codes 0 to 7 of OP_CVO are the eight functions in the table's order, and each flag of both flag fields is
the word bit the tables give it (the two tables number their bits by opposite conventions, 90_conflicts.md C1). -/
def Obligations.FunctionCodesAndFlagBits : Prop :=
  (∀ w : Word, w.toNat / 2 ^ 60 = 4 →
    ∀ func : CvoFunc, (∃ f, decode w = .ok (cvoInstr func f)) ↔ w.toNat / 2 ^ 56 % 16 =
      match func with
      | .exp => 0
      | .sqrt => 1
      | .gelu => 2
      | .sin => 3
      | .cos => 4
      | .reduceSum => 5
      | .scale => 6
      | .recip => 7) ∧
  (∀ (w : Word) (f : GemxFields), decode w = .ok (.gemv f) ∨ decode w = .ok (.gemm f) →
    f.findemax = w.toNat.testBit 25 ∧ f.accm = w.toNat.testBit 24 ∧ f.wScale = w.toNat.testBit 23 ∧
      f.flagsRsvd.toNat = w.toNat / 2 ^ 20 % 2 ^ 3) ∧
  ∀ (w : Word) (func : CvoFunc) (f : CvoFields), decode w = .ok (cvoInstr func f) →
    f.subEmax = w.toNat.testBit 5 ∧ f.recipScale = w.toNat.testBit 4 ∧ f.accm = w.toNat.testBit 3 ∧
      f.flagsRsvd.toNat = w.toNat / 2 % 2 ^ 2

/-- A few words of the spec's decoding vectors, one for each format, and the two kinds of reserved word. -/
def Obligations.SpecWordsDecode : Prop :=
  decode 0x0008000802004220#64 = .ok (.gemv
    { destReg := 0x100#17, srcAddr := 0x200#17, findemax := true, accm := false, wScale := false, flagsRsvd := 0#3,
      sizePtr := 1#6, shapePtr := 2#6, parallelLane := 4#5, rsvd := 0#3 }) ∧
  decode 0x1FFFFFFFFF8FFFF8#64 = .ok (.gemm
    { destReg := 0x1FFFF#17, srcAddr := 0x1FFFF#17, findemax := true, accm := true, wScale := true, flagsRsvd := 0#3,
      sizePtr := 63#6, shapePtr := 63#6, parallelLane := 31#5, rsvd := 0#3 }) ∧
  decode 0x27FFFFFFFF00007F#64 = .ok (.memcpy
    { fromDevice := false, toDevice := true, destAddr := 0x1FFFF#17, srcAddr := 0x1FFFF#17, auxAddr := 0#17,
      shapePtr := 63#6, async := true }) ∧
  decode 0x3020001000100080#64 = .ok (.memset
    { destCache := 0#2, destAddr := 2#6, aValue := 1#16, bValue := 1#16, cValue := 8#16, rsvd := 0#4 }) ∧
  decode 0x4601000080400239#64 = .ok (.cvoScale
    { srcAddr := 0x200#17, dstAddr := 0x201#17, length := 8#16, subEmax := true, recipScale := true, accm := true,
      flagsRsvd := 0#2, async := true }) ∧
  decode 0x5000000000000000#64 = .error (.reservedOpcode 5#4 0#60) ∧
  decode 0x4800000000000040#64 = .error (.reservedCvoFunc 8#4
    { srcAddr := 0#17, dstAddr := 0#17, length := 1#16, subEmax := false, recipScale := false, accm := false,
      flagsRsvd := 0#2, async := false })

/-! ### Micro-ops and routes -/

/-- The members of the GEMV/GEMM control micro-op and of the memory micro-op of a MEMCPY, as slices of the body;
`aux_addr` is dropped. That the micro-op is there exactly where the two selectors differ, and which route they name, is
R172 with the spec's decision D13 (log 22). -/
def Obligations.ControlMicroOpMembers : Prop :=
  (∀ (w : Word) (kind : GemxKind) (f : GemxFields), decode w = .ok (gemxInstr kind f) →
    ∀ u : GemxUop, Uop.gemx u ∈ splitUops (gemxInstr kind f) ↔
      u = { flags := w.extractLsb' 20 6, sizePtr := w.extractLsb' 14 6, parallelLane := w.extractLsb' 3 5 }) ∧
  ∀ (w : Word) (f : MemcpyFields), decode w = .ok (.memcpy f) →
    ∀ u : MemUop, Uop.mem u ∈ splitUops (.memcpy f) ↔
      (w.getLsbD 59 != w.getLsbD 58) = true ∧
      u = { dataDest := if w.getLsbD 59 then .hostToL2 else .l2ToHost
            destAddr := w.extractLsb' 41 17
            srcAddr := w.extractLsb' 24 17
            shapePtr := w.extractLsb' 1 6
            async := w.getLsbD 0 }

/-- The packed micro-ops as slices of the word: the CVO micro-op, of a reserved function too, is the whole body, the memory-set micro-op the body less
its four reserved bits, the control micro-op of a multiply three slices side by side, and a memory micro-op the 8-bit
route code before the address slices (of a multiply, those of log 16). The packing order is PRESUMED from the
SystemVerilog language (log 15). -/
def Obligations.PackedMicroOpsAreBodySlices : Prop :=
  (∀ (w : Word) (i : Instr), decode w = .ok i → wordUops w = splitUops i) ∧
  (∀ w : Word, w.toNat / 2 ^ 60 = 4 → ∃ u, wordUops w = [.cvo u] ∧ u.pack = w.extractLsb' 0 60) ∧
  (∀ (w : Word) (f : MemsetFields), decode w = .ok (.memset f) →
    ∃ u, splitUops (.memset f) = [.memset u] ∧ u.pack = w.extractLsb' 4 56) ∧
  (∀ (w : Word) (kind : GemxKind) (f : GemxFields), decode w = .ok (gemxInstr kind f) →
    (∃ u rest, splitUops (gemxInstr kind f) = .gemx u :: rest ∧
      u.pack = w.extractLsb' 20 6 ++ w.extractLsb' 14 6 ++ w.extractLsb' 3 5) ∧
    ∀ u : MemUop, Uop.mem u ∈ splitUops (gemxInstr kind f) →
      u.pack = routeCode u.dataDest ++ w.extractLsb' 43 17 ++ w.extractLsb' 26 17 ++ w.extractLsb' 8 6 ++ 0#1) ∧
  ∀ (w : Word) (f : MemcpyFields), decode w = .ok (.memcpy f) → ∀ u : MemUop, Uop.mem u ∈ splitUops (.memcpy f) →
    u.pack = (if w.getLsbD 59 then 0x01#8 else 0x10#8) ++ w.extractLsb' 41 17 ++ w.extractLsb' 24 17 ++
      w.extractLsb' 1 6 ++ w.extractLsb' 0 1

/-- A multiply is split into three micro-ops: one control micro-op and two memory micro-ops, the L1 fill and the result
drain, which carry the fields the control micro-op lacks. The routes are the spec's decision D15 (DEDUCED; log 16). -/
def Obligations.MultiplyDataMovement : Prop :=
  ∀ (kind : GemxKind) (f : GemxFields),
    (splitUops (gemxInstr kind f)).length = 3 ∧
    (∀ u : GemxUop, Uop.gemx u ∈ splitUops (gemxInstr kind f) ↔
      u.flags = gemxFlags f ∧ u.sizePtr = f.sizePtr ∧ u.parallelLane = f.parallelLane) ∧
    ∀ u : MemUop, Uop.mem u ∈ splitUops (gemxInstr kind f) ↔
      u.destAddr = f.destReg ∧ u.srcAddr = f.srcAddr ∧ u.shapePtr = f.shapePtr ∧ u.async = false ∧
        (routeCode u.dataDest = (match kind with | .gemv => 0x13#8 | .gemm => 0x12#8) ∨
          routeCode u.dataDest = (match kind with | .gemv => 0x31#8 | .gemm => 0x21#8))

/-- The eight route codes, source node in the high four bits and destination node in the low four (R117). -/
def Obligations.RouteCodes : Prop :=
  routeCode .hostToL2 = 0x01#8 ∧ routeCode .l2ToHost = 0x10#8 ∧ routeCode .l2ToL1Gemm = 0x12#8 ∧
  routeCode .l2ToL1Gemv = 0x13#8 ∧ routeCode .l2ToCvo = 0x14#8 ∧ routeCode .gemvResToL2 = 0x31#8 ∧
  routeCode .gemmResToL2 = 0x21#8 ∧ routeCode .cvoResToL2 = 0x41#8

/-! ### The host's accesses -/

/-- A write of offset 0x00 stores the value and changes nothing else; a second write before the latch replaces the first
(R271). -/
def Obligations.LowWriteSetsCommandLow : Prop :=
  (∀ (s : State) (v : Half) (rest : List Move), Running s → s.issueOk = true →
    s.script = .host (.busWrite s.platform.axilBase 32 v) :: rest →
    step s = .next { s with script := rest, cmdLo := some v }) ∧
  ∀ (s : State) (v v' : Half) (rest : List Move), Running s → s.issueOk = true →
    s.script = .host (.busWrite s.platform.axilBase 32 v) :: .host (.busWrite s.platform.axilBase 32 v') :: rest →
    core.run 2 s = .next { s with script := rest, cmdLo := some v' }

/-- The latch: the written value and the low word become the latched word, the low word is consumed, the count of latches
rises; the dispatch step empties `latched`, and it is empty at reset (R39). -/
def Obligations.HighWriteLatches : Prop :=
  (∀ (s : State) (v lo : Half) (rest : List Move), Running s → s.issueOk = true → s.cmdLo = some lo →
    s.script = .host (.busWrite (s.platform.axilBase + 4) 32 v) :: rest →
    (∀ x ∈ s.inFlight, ¬Footprint.conflicts (footprintOf (v ++ lo) s) x.2) →
    ∃ t, step s = .next t ∧ t.latched.map Entry.word = some (v ++ lo) ∧ t.cmdLo = none ∧
      t.nLatched = s.nLatched + 1) ∧
  (∀ (s t : State) (rest : List Move), s.script = .dispatch :: rest → dispatchEnabled s = true → step s = .next t →
    t.latched = none) ∧
  State.reset.latched = none

/-- All a latch does, and when it faults instead: it conflicts with an instruction in flight exactly where their footprints
do. The fault names both instructions and the location `footprintConflict` finds for them; `ConflictIffSharedLocation` says
what that is. The spec's decisions D3, D4 and D8; which of several conflicts is named is the model's choice (log 18). -/
def Obligations.LatchChecksConflicts : Prop :=
  ∀ (s : State) (v lo : Half) (rest : List Move), Running s → s.issueOk = true → s.cmdLo = some lo →
    s.script = .host (.busWrite (s.platform.axilBase + 4) 32 v) :: rest →
    ((∀ x ∈ s.inFlight, ¬Footprint.conflicts (footprintOf (v ++ lo) s) x.2) →
      step s = .next { s with
        script := rest
        latched := some { number := s.nLatched + 1, word := v ++ lo, footprint := footprintOf (v ++ lo) s }
        cmdLo := none
        nLatched := s.nLatched + 1
        issueOk := false }) ∧
    ((∃ x ∈ s.inFlight, Footprint.conflicts (footprintOf (v ++ lo) s) x.2) →
      ∃ x ∈ s.inFlight, Footprint.conflicts (footprintOf (v ++ lo) s) x.2 ∧
        ∃ loc, footprintConflict (footprintOf (v ++ lo) s) x.2 = some loc ∧
          step s = .fault (.inFlightConflict (.instr (s.nLatched + 1)) x.1 loc))

/-- The host's duties when issuing: both writes need a BUSY = 0 read since the last latch, and the high write needs a low
word. The spec's decisions D3 and D4; the number recorded with the second fault is the model's choice (log 33). -/
def Obligations.IssueDutiesChecked : Prop :=
  (∀ (s : State) (v : Half) (rest : List Move), Running s → s.issueOk = false →
    (s.script = .host (.busWrite s.platform.axilBase 32 v) :: rest ∨
      s.script = .host (.busWrite (s.platform.axilBase + 4) 32 v) :: rest) →
    step s = .refused .issuedWithoutBusyClear) ∧
  ∀ (s : State) (v : Half) (rest : List Move), Running s → s.issueOk = true → s.cmdLo = none →
    s.script = .host (.busWrite (s.platform.axilBase + 4) 32 v) :: rest →
    step s = .fault (.unwrittenRead .cmdLo (s.nLatched + 1))

/-- Every bus access but the three of the register map is refused: inside the block by the spec's decision D24, at an
address outside it by the model's own choice (DESIGN CHOICE, log 25). -/
def Obligations.OtherAccessesRefused : Prop :=
  (∀ (s : State) (a width : Nat) (v : Half) (rest : List Move), Running s →
    s.script = .host (.busWrite a width v) :: rest →
    ¬(width = 32 ∧ (a = s.platform.axilBase ∨ a = s.platform.axilBase + 4)) →
    step s = .refused .unsupportedRegisterAccess) ∧
  ∀ (s : State) (a width : Nat) (rest : List Move), Running s → s.script = .host (.busRead a width) :: rest →
    ¬(width = 32 ∧ a = s.platform.axilBase + 8) → step s = .refused .unsupportedRegisterAccess

/-- A status read returns the status, sets the monitor of the host's duty to "BUSY was 0", and changes no NPU state. The
spec's decision D24; `statusReads` and `draws` are the model's own fields (log 12, log 13). -/
def Obligations.StatusReadChangesNothing : Prop :=
  ∀ (s : State) (rest : List Move), Running s →
    s.script = .host (.busRead (s.platform.axilBase + 8) 32) :: rest →
    step s = .next { s with
      script := rest
      issueOk := decide (s.status.getLsbD 0 = false)
      statusReads := s.status :: s.statusReads
      draws := s.draws + 1 }

/-- BUSY and DONE: BUSY is 1 while an instruction is latched, 0 where the machine is quiescent, else as the policy says;
DONE, once something was latched, is 1 exactly where the last instruction is complete for status and no fault is recorded.
The spec's decisions D5 and D6. After a fault DONE is 0, before the first latch too: there it is the model's choice between
two rules (DESIGN CHOICE, log 32). That a recorded refusal leaves DONE as R27 says is the model's choice between R27 and
D26 (DESIGN CHOICE, log 34). -/
def Obligations.BusyAndDone : Prop :=
  ∀ s : State,
    (s.latched ≠ none → s.status.getLsbD 0 = true) ∧
    (s.inFlight = [] → s.status.getLsbD 0 = false) ∧
    (s.latched = none → s.inFlight ≠ [] → s.platform.busyPolicy = .quiescent → s.status.getLsbD 0 = true) ∧
    (s.latched = none → s.inFlight ≠ [] → s.platform.busyPolicy = .frontend → s.status.getLsbD 0 = false) ∧
    (s.nLatched ≠ 0 → (s.status.getLsbD 1 = true ↔ s.nLatched ∈ s.completed ∧ s.faults = [])) ∧
    (s.faults ≠ [] → s.status.getLsbD 1 = false)

/-- The host's accesses to its own memory: a store puts its bytes there and changes nothing else, a load changes nothing;
each faults where it conflicts with an instruction in flight, and the fault records the access, that instruction and the
location found for them. The spec's decision D37; which of several conflicts is named is the model's choice (log 18). -/
def Obligations.HostMemoryAccess : Prop :=
  (∀ (s : State) (b : Nat) (bytes : List Byte) (rest : List Move), Running s →
    s.script = .host (.memWrite b bytes) :: rest →
    ((∀ x ∈ s.inFlight, ¬Footprint.conflicts (hostWriteFootprint b bytes.length) x.2) →
      ∃ t, step s = .next t ∧ { t with hostMem := s.hostMem, script := s.script } = s ∧ t.script = rest ∧
        ∀ a, t.readHost a = if b ≤ a ∧ a < b + bytes.length then bytes[a - b]? else s.readHost a) ∧
    ((∃ x ∈ s.inFlight, Footprint.conflicts (hostWriteFootprint b bytes.length) x.2) →
      ∃ x ∈ s.inFlight, Footprint.conflicts (hostWriteFootprint b bytes.length) x.2 ∧
        ∃ loc, footprintConflict (hostWriteFootprint b bytes.length) x.2 = some loc ∧
          step s = .fault (.inFlightConflict (.host (.memWrite b bytes)) x.1 loc))) ∧
  ∀ (s : State) (b len : Nat) (rest : List Move), Running s → s.script = .host (.memRead b len) :: rest →
    ((∀ x ∈ s.inFlight, ¬Footprint.conflicts (hostReadFootprint b len) x.2) →
      step s = .next { s with script := rest }) ∧
    ((∃ x ∈ s.inFlight, Footprint.conflicts (hostReadFootprint b len) x.2) →
      ∃ x ∈ s.inFlight, Footprint.conflicts (hostReadFootprint b len) x.2 ∧
        ∃ loc, footprintConflict (hostReadFootprint b len) x.2 = some loc ∧
          step s = .fault (.inFlightConflict (.host (.memRead b len)) x.1 loc))

/-- The check made of two footprints finds a conflict exactly where there is one: one of them is unknown, or some location
is written by one and read or written by the other. The location it names is such a one; where a footprint is unknown, one
that each known footprint holds; and none only where an unknown footprint meets one that holds no location at all. The
spec's decision D8; which location is named is the model's choice (log 18). -/
def Obligations.ConflictIffSharedLocation : Prop :=
  (∀ a b : Footprint, (footprintConflict a b).isSome = true ↔ Footprint.conflicts a b) ∧
  (∀ (a b : Footprint) (l : Loc), footprintConflict a b = some (some l) →
    (a.known = true → b.known = true →
      a.writesLoc l ∧ (b.readsLoc l ∨ b.writesLoc l) ∨ a.readsLoc l ∧ b.writesLoc l) ∧
    (a.known = true → a.readsLoc l ∨ a.writesLoc l) ∧ (b.known = true → b.readsLoc l ∨ b.writesLoc l)) ∧
  ∀ a b : Footprint, footprintConflict a b = some none →
    (a.known = true ∧ b.known = false ∧ ∀ l, ¬(a.readsLoc l ∨ a.writesLoc l)) ∨
      (a.known = false ∧ b.known = true ∧ ∀ l, ¬(b.readsLoc l ∨ b.writesLoc l))

/-! ### Dispatch and queues -/

/-- The dispatch step routes by the opcode alone: a word that passes its checks goes to the tail of the FIFO of its opcode,
the other FIFOs stay as they are, and nothing is latched any more (R245). -/
def Obligations.OpcodeToFifo : Prop :=
  ∀ (s : State) (en : Entry) (rest : List Move), Running s → s.script = .dispatch :: rest → s.latched = some en →
    dispatchCheck en.word = .ok () →
    (en.word.toNat / 2 ^ 60 = 0 → s.fifo.gemv.length < fifoDepth s.platform .gemv →
      step s = .next { s with
        script := rest, latched := none, fifo := { s.fifo with gemv := s.fifo.gemv ++ [en] } }) ∧
    (en.word.toNat / 2 ^ 60 = 1 → s.fifo.gemm.length < fifoDepth s.platform .gemm →
      step s = .next { s with
        script := rest, latched := none, fifo := { s.fifo with gemm := s.fifo.gemm ++ [en] } }) ∧
    (en.word.toNat / 2 ^ 60 = 2 → s.fifo.mem.length < fifoDepth s.platform .mem →
      step s = .next { s with
        script := rest, latched := none, fifo := { s.fifo with mem := s.fifo.mem ++ [en] } }) ∧
    (en.word.toNat / 2 ^ 60 = 3 → s.fifo.memset.length < fifoDepth s.platform .memset →
      step s = .next { s with
        script := rest, latched := none, fifo := { s.fifo with memset := s.fifo.memset ++ [en] } }) ∧
    (en.word.toNat / 2 ^ 60 = 4 → s.fifo.cvo.length < fifoDepth s.platform .cvo →
      step s = .next { s with
        script := rest, latched := none, fifo := { s.fifo with cvo := s.fifo.cvo ++ [en] } })

/-- What passes the dispatch checks: every well-formed instruction, and every CVO word whose reserved flag bits are zero,
whatever its function code. The spec's decisions D11 and D12. -/
def Obligations.DispatchAccepts : Prop :=
  (∀ (w : Word) (i : Instr), decode w = .ok i → i.wellFormed = true → dispatchCheck w = .ok ()) ∧
  ∀ w : Word, w.toNat / 2 ^ 60 = 4 → w &&& 0x6#64 = 0#64 → dispatchCheck w = .ok ()

/-- What the dispatch step turns away, in the order of the checks: a reserved opcode faults, room or not; then, where the
FIFO has room, a word with a reserved bit set (the masks are those of spec/opcode_table.json) is refused, then the field
values without a meaning. The spec's decisions D10 to D13 and D34. -/
def Obligations.DispatchRefusals : Prop :=
  ∀ (s : State) (en : Entry) (rest : List Move), Running s → s.script = .dispatch :: rest → s.latched = some en →
    (5 ≤ en.word.toNat / 2 ^ 60 → step s = .fault (.reservedOpcode en.word)) ∧
    (dispatchEnabled s = true →
      (en.word.toNat / 2 ^ 60 < 2 →
        (en.word &&& 0x0000000000700007#64 ≠ 0#64 → step s = .refused .reservedFieldNonzero) ∧
        (en.word &&& 0x0000000000700007#64 = 0#64 → en.word.toNat / 2 ^ 3 % 2 ^ 5 = 0 →
          step s = .refused .zeroLanes)) ∧
      (en.word.toNat / 2 ^ 60 = 2 →
        (en.word &&& 0x0000000000FFFF80#64 ≠ 0#64 → step s = .refused .reservedFieldNonzero) ∧
        (en.word &&& 0x0000000000FFFF80#64 = 0#64 → en.word.toNat.testBit 59 = en.word.toNat.testBit 58 →
          step s = .refused .memcpyRouteUnspecified)) ∧
      (en.word.toNat / 2 ^ 60 = 3 →
        (en.word &&& 0x000000000000000F#64 ≠ 0#64 → step s = .refused .reservedFieldNonzero) ∧
        (en.word &&& 0x000000000000000F#64 = 0#64 → 2 ≤ en.word.toNat / 2 ^ 58 % 2 ^ 2 →
          step s = .refused .undefinedDestCache)) ∧
      (en.word.toNat / 2 ^ 60 = 4 → en.word &&& 0x0000000000000006#64 ≠ 0#64 →
        step s = .refused .reservedFieldNonzero))

/-- While the target FIFO is full the word stays latched and nothing else changes. The spec's decision D9; that a dispatch
move made then is passed over is the model's (log 8). -/
def Obligations.FullFifoHoldsTheWord : Prop :=
  ∀ (s : State) (en : Entry) (e : Engine) (rest : List Move), Running s → s.script = .dispatch :: rest →
    s.latched = some en → engineOfOpcode (opcodeOf en.word) = some e →
    fifoDepth s.platform e ≤ (s.fifo.get e).length → step s = .next { s with script := rest }

/-- First in, first out: a step leaves the FIFO of an engine as it is; or it is that engine's step and takes the head; or
it is the front end's and puts the latched entry at the tail where the FIFO holds fewer entries than its depth. Every FIFO
is empty at reset (R40). -/
def Obligations.FifoDiscipline : Prop :=
  (∀ (s t : State) (e : Engine), step s = .next t →
    t.fifo.get e = s.fifo.get e ∨
      (nextMove s = some (.engine e) ∧ ∃ en, s.fifo.get e = en :: t.fifo.get e) ∨
      (nextMove s = some .dispatch ∧ ∃ en, s.latched = some en ∧ t.fifo.get e = s.fifo.get e ++ [en] ∧
        (s.fifo.get e).length < fifoDepth s.platform e)) ∧
  ∀ e : Engine, State.reset.fifo.get e = []

/-! ### Engines -/

/-- When the word at the head of an idle engine's FIFO decodes to `i`, the engine's step is `exec` of `i` at the state with
that entry popped and running; where `exec` answers a next state the entry is then complete for status and no longer
running. -/
def Obligations.StepRunsDecodedInstruction : Prop :=
  ∀ (s : State) (e : Engine) (en : Entry) (entries : List Entry) (rest : List Move) (i : Instr), Running s →
    s.script = .engine e :: rest → s.running.get e = none → s.fifo.get e = en :: entries →
    decode en.word = .ok i →
    let u := { s with script := rest, fifo := s.fifo.set e entries, running := s.running.set e (some en) }
    step s = match exec i u with
      | .next t => .next { t with completed := numberInsert t.completed en.number, running := t.running.set e none }
      | .fault r => .fault r
      | .refused r => .refused r

/-- A word with a reserved CVO function faults when its engine starts it, and nothing is executed. The spec's decision
D12. -/
def Obligations.ReservedCvoFunctionFaults : Prop :=
  ∀ (s : State) (en : Entry) (entries : List Entry) (rest : List Move), Running s → s.script = .engine .cvo :: rest →
    s.running.cvo = none → s.fifo.cvo = en :: entries → en.word.toNat / 2 ^ 60 = 4 →
    8 ≤ en.word.toNat / 2 ^ 56 % 16 → step s = .fault (.reservedCvoFunc en.word)

/-! ### MEMSET -/

/-- MEMSET writes one whole entry of one cache; the other 63 entries, the other cache and everything else stay as they
are. -/
def Obligations.MemsetResult : Prop :=
  ∀ (f : MemsetFields) (s : State), f.rsvd = 0#4 →
    (f.destCache = 0#2 → ∃ t, exec (.memset f) s = .next t ∧
      (∀ p, t.readFmapShape p =
        if p = f.destAddr then some { a := f.aValue, b := f.bValue, c := f.cValue } else s.readFmapShape p) ∧
      { t with fmapShape := s.fmapShape } = s) ∧
    (f.destCache = 1#2 → ∃ t, exec (.memset f) s = .next t ∧
      (∀ p, t.readWeightShape p =
        if p = f.destAddr then some { a := f.aValue, b := f.bValue, c := f.cValue } else s.readWeightShape p) ∧
      { t with weightShape := s.weightShape } = s)

/-! ### Extents -/

/-- An extent is `none` exactly where an entry its function is declared to depend on is `none`, and else it is fixed by the
pointers and the entries it depends on: two states that agree on those have the same extents. The spec's decision D16. -/
def Obligations.ExtentsDependOnDeclaredEntries : Prop :=
  (∀ (e : GemxExtent) (f : GemxFields) (s : State), gemxExtent e (gemxBundle f s) = none ↔
    e.depends.fmapAtShape = true ∧ s.readFmapShape f.shapePtr = none ∨
      e.depends.weightAtShape = true ∧ s.readWeightShape f.shapePtr = none ∨
      e.depends.fmapAtSize = true ∧ s.readFmapShape f.sizePtr = none ∨
      e.depends.weightAtSize = true ∧ s.readWeightShape f.sizePtr = none) ∧
  (∀ (e : GemxExtent) (f : GemxFields) (s s' : State),
    (e.depends.fmapAtShape = true → s'.readFmapShape f.shapePtr = s.readFmapShape f.shapePtr) →
    (e.depends.weightAtShape = true → s'.readWeightShape f.shapePtr = s.readWeightShape f.shapePtr) →
    (e.depends.fmapAtSize = true → s'.readFmapShape f.sizePtr = s.readFmapShape f.sizePtr) →
    (e.depends.weightAtSize = true → s'.readWeightShape f.sizePtr = s.readWeightShape f.sizePtr) →
    gemxExtent e (gemxBundle f s') = gemxExtent e (gemxBundle f s)) ∧
  (∀ (e : CopyExtent) (f : MemcpyFields) (s : State), copyExtent e (copyBundle f s) = none ↔
    e.depends.fmapAtShape = true ∧ s.readFmapShape f.shapePtr = none ∨
      e.depends.weightAtShape = true ∧ s.readWeightShape f.shapePtr = none) ∧
  ∀ (e : CopyExtent) (f : MemcpyFields) (s s' : State),
    (e.depends.fmapAtShape = true → s'.readFmapShape f.shapePtr = s.readFmapShape f.shapePtr) →
    (e.depends.weightAtShape = true → s'.readWeightShape f.shapePtr = s.readWeightShape f.shapePtr) →
    copyExtent e (copyBundle f s') = copyExtent e (copyBundle f s)

/-! ### GEMV and GEMM -/

/-- A GEMV or GEMM whose checks pass and whose operands are written stores the product at `dest_reg`, updates e_max with
`findemax` only, and changes nothing else. Where its addresses and extents come from are the spec's decisions D15, D16
and D18. -/
def Obligations.MultiplyResult : Prop :=
  ∀ (kind : GemxKind) (f : GemxFields) (s : State) (nIn nOut : Nat) (x y : Nat → Elem),
    GemxReady kind f s nIn nOut → L2Holds s f.srcAddr.toNat nIn x →
    (f.accm = true → L2Holds s f.destReg.toNat nOut y) →
    let d : GemxBundle :=
      { shapePtr := f.shapePtr
        fmapAtShape := s.readFmapShape f.shapePtr
        weightAtShape := s.readWeightShape f.shapePtr
        sizePtr := f.sizePtr
        fmapAtSize := s.readFmapShape f.sizePtr
        weightAtSize := s.readWeightShape f.sizePtr }
    let z := productElem kind f d ((List.range nIn).map x) (if f.accm then some ((List.range nOut).map y) else none)
    ∃ t, exec (gemxInstr kind f) s = .next t ∧ L2Holds t f.destReg.toNat nOut z ∧
      t.eMax = (if f.findemax then some (Config.emaxFn kind s.eMax ((List.range nOut).map z)) else s.eMax) ∧
      OnlyL2Range s { t with eMax := s.eMax } f.destReg.toNat nOut

/-- The flag `accm` of a multiply: with it the old destination is read and handed to the numeric function, and a
destination location that holds nothing faults; without it the old destination is not read (two states that differ there
only give the same result) and is overwritten (R144). That the fault names the first empty location is DEDUCED (log
31). -/
def Obligations.MultiplyAccumulate : Prop :=
  (∀ (kind : GemxKind) (f : GemxFields) (s : State) (nIn nOut : Nat) (x y : Nat → Elem),
    f.accm = true → GemxReady kind f s nIn nOut → L2Holds s f.srcAddr.toNat nIn x →
    L2Holds s f.destReg.toNat nOut y →
    ∃ t, exec (gemxInstr kind f) s = .next t ∧
      L2Holds t f.destReg.toNat nOut (productElem kind f (gemxBundle f s) ((List.range nIn).map x)
        (some ((List.range nOut).map y)))) ∧
  (∀ (kind : GemxKind) (f : GemxFields) (s : State) (nIn nOut a : Nat) (x : Nat → Elem),
    f.accm = true → GemxReady kind f s nIn nOut → L2Holds s f.srcAddr.toNat nIn x →
    FirstEmpty s f.destReg.toNat nOut a →
    exec (gemxInstr kind f) s = .fault (.unwrittenRead (.l2 a) (s.runningNumber (gemxEngine kind)))) ∧
  ∀ (kind : GemxKind) (f : GemxFields) (s s' : State) (nIn nOut : Nat) (x : Nat → Elem),
    f.accm = false → GemxReady kind f s nIn nOut → L2Holds s f.srcAddr.toNat nIn x →
    OnlyL2Range s s' f.destReg.toNat nOut →
    ∃ t t', exec (gemxInstr kind f) s = .next t ∧ exec (gemxInstr kind f) s' = .next t' ∧
      L2Holds t f.destReg.toNat nOut
        (productElem kind f (gemxBundle f s) ((List.range nIn).map x) none) ∧
      L2Holds t' f.destReg.toNat nOut
        (productElem kind f (gemxBundle f s) ((List.range nIn).map x) none)

/-- Where a GEMV or GEMM stops when its engine runs it, in the order of the checks. The spec's decisions D14, D16, D21 and
D22; that the first empty location is the one reported is DEDUCED (log 31). -/
def Obligations.MultiplyStops : Prop :=
  ∀ (kind : GemxKind) (f : GemxFields) (s : State), f.flagsRsvd = 0#3 → f.rsvd = 0#3 → f.parallelLane ≠ 0#5 →
    (gemxInLen kind f s = none ∨ gemxOutLen kind f s = none →
      exec (gemxInstr kind f) s =
        .fault (.unwrittenRead (.descriptor [f.shapePtr, f.sizePtr]) (s.runningNumber (gemxEngine kind)))) ∧
    ∀ nIn nOut, gemxInLen kind f s = some nIn → gemxOutLen kind f s = some nOut →
      (nIn = 0 ∨ nOut = 0 → exec (gemxInstr kind f) s = .refused .zeroExtent) ∧
      (0 < nIn → 0 < nOut →
        (l2Size < f.srcAddr.toNat + nIn ∨ l2Size < f.destReg.toNat + nOut →
          exec (gemxInstr kind f) s = .refused .addressRangeOverflow) ∧
        (f.srcAddr.toNat + nIn ≤ l2Size → f.destReg.toNat + nOut ≤ l2Size →
          (¬Apart f.srcAddr.toNat nIn f.destReg.toNat nOut →
            exec (gemxInstr kind f) s = .refused .operandOverlap) ∧
          (Apart f.srcAddr.toNat nIn f.destReg.toNat nOut → ∀ a, FirstEmpty s f.srcAddr.toNat nIn a →
            exec (gemxInstr kind f) s = .fault (.unwrittenRead (.l2 a) (s.runningNumber (gemxEngine kind))))))

/-! ### MEMCPY -/

/-- A synchronous host-to-L2 copy stores the elements that the bytes of its host range code, and changes nothing else. A
byte nothing in the run has written is the host's own (log 7). The spec's decisions D13, D16 and D23. -/
def Obligations.CopyFromHostResult : Prop :=
  ∀ (f : MemcpyFields) (s : State) (n b len : Nat), MemcpyReady .hostToL2 f s n → f.async = false →
    hostRange s.platform f.srcAddr n = some (b, len) →
    ∃ t, exec (.memcpy f) s = .next t ∧ OnlyL2Range s t f.destAddr.toNat n ∧
      L2Holds t f.destAddr.toNat n (Config.hostDecode n
        ((List.range len).map fun j => (s.readHost (b + j)).getD (Config.hostInitial (b + j))))

/-- A synchronous L2-to-host copy stores the bytes that code its elements at its host range, and changes nothing else. The
spec's decisions D13, D16 and D23. -/
def Obligations.CopyToHostResult : Prop :=
  ∀ (f : MemcpyFields) (s : State) (n b len : Nat) (x : Nat → Elem), MemcpyReady .l2ToHost f s n → f.async = false →
    L2Holds s f.srcAddr.toNat n x → hostRange s.platform f.destAddr n = some (b, len) →
    ∃ t, exec (.memcpy f) s = .next t ∧ { t with hostMem := s.hostMem } = s ∧
      ∀ a, t.readHost a =
        if b ≤ a ∧ a < b + len then some (Config.hostEncode ((List.range n).map x) (a - b)) else s.readHost a

/-- An asynchronous copy is accepted: it is pending under its number, with its route, addresses and extent, and nothing
else changes, the operands not read yet. The spec's decision D36; that the extent is fixed then is the model's reading of
R171 (log 19). -/
def Obligations.CopyAccepted : Prop :=
  ∀ (route : CopyRoute) (f : MemcpyFields) (s : State) (n : Nat) (en : Entry), MemcpyReady route f s n →
    f.async = true → s.running.mem = some en →
    ∃ t, exec (.memcpy f) s = .next t ∧ { t with pendingAsync := s.pendingAsync } = s ∧
      ∀ k, cellRead t.pendingAsync k =
        if k = en.number then some { op := .copy route f.destAddr f.srcAddr n, footprint := en.footprint }
        else cellRead s.pendingAsync k

/-- What a copy's footprint holds: its two descriptor entries, its elements in L2 and the bytes the codec occupies from the
address of its host field on, whether or not the platform lets the copy reach them. It is unknown exactly where the extent
is. The spec's decisions D8 and D23; that host address and size are tables is log 6. -/
def Obligations.CopyFootprint : Prop :=
  (∀ (route : CopyRoute) (f : MemcpyFields) (s : State), copyRoute f = some route →
    ((instrFootprint (.memcpy f) s).known = false ↔ copyLen route f s = none)) ∧
  (∀ (f : MemcpyFields) (s : State) (n b : Nat) (l : Loc), copyRoute f = some .hostToL2 →
    copyLen .hostToL2 f s = some n → s.platform.hostAddr.lookup f.srcAddr = some b →
    ((instrFootprint (.memcpy f) s).readsLoc l ↔ l = .fmapShape f.shapePtr ∨ l = .weightShape f.shapePtr ∨
      ∃ a, l = .host a ∧ b ≤ a ∧ a < b + codecSize s.platform n) ∧
    ((instrFootprint (.memcpy f) s).writesLoc l ↔
      ∃ a, l = .l2 a ∧ f.destAddr.toNat ≤ a ∧ a < f.destAddr.toNat + n)) ∧
  ∀ (f : MemcpyFields) (s : State) (n b : Nat) (l : Loc), copyRoute f = some .l2ToHost →
    copyLen .l2ToHost f s = some n → s.platform.hostAddr.lookup f.destAddr = some b →
    ((instrFootprint (.memcpy f) s).readsLoc l ↔ l = .fmapShape f.shapePtr ∨ l = .weightShape f.shapePtr ∨
      ∃ a, l = .l2 a ∧ f.srcAddr.toNat ≤ a ∧ a < f.srcAddr.toNat + n) ∧
    ((instrFootprint (.memcpy f) s).writesLoc l ↔
      ∃ a, l = .host a ∧ b ≤ a ∧ a < b + codecSize s.platform n)

/-- Where a MEMCPY stops when its engine runs it, in the order of the checks. The spec's decisions D14, D16, D22 and D23;
that the first empty location is the one reported, and that the source is read before the host range is looked up, is
DEDUCED (log 31). -/
def Obligations.CopyStops : Prop :=
  ∀ (route : CopyRoute) (f : MemcpyFields) (s : State), f.auxAddr = 0#17 → copyRoute f = some route →
    (copyLen route f s = none →
      exec (.memcpy f) s = .fault (.unwrittenRead (.descriptor [f.shapePtr]) (s.runningNumber .mem))) ∧
    (copyLen route f s = some 0 → exec (.memcpy f) s = .refused .zeroExtent) ∧
    ∀ n, copyLen route f s = some n → 0 < n →
      (route = .l2ToHost → l2Size < f.srcAddr.toNat + n → exec (.memcpy f) s = .refused .addressRangeOverflow) ∧
      (route = .hostToL2 → l2Size < f.destAddr.toNat + n → exec (.memcpy f) s = .refused .addressRangeOverflow) ∧
      (f.async = false → route = .hostToL2 → f.destAddr.toNat + n ≤ l2Size →
        hostRange s.platform f.srcAddr n = none →
        exec (.memcpy f) s = .fault (.hostMemoryFault .hostToL2 f.srcAddr n)) ∧
      (f.async = false → route = .l2ToHost → f.srcAddr.toNat + n ≤ l2Size →
        (∀ a, FirstEmpty s f.srcAddr.toNat n a →
          exec (.memcpy f) s = .fault (.unwrittenRead (.l2 a) (s.runningNumber .mem))) ∧
        (∀ x, L2Holds s f.srcAddr.toNat n x → hostRange s.platform f.destAddr n = none →
          exec (.memcpy f) s = .fault (.hostMemoryFault .l2ToHost f.destAddr n)))

/-! ### CVO -/

/-- The six element-wise functions: element `i` of the output is the function of element `i` of the input, reduced by
e_max first with `sub_emax` and added to the old destination with `accm`; nothing else changes. The spec's decisions D14,
D18, D19 and D21. -/
def Obligations.ElementwiseResult : Prop :=
  ∀ (func : CvoFunc) (g : Elem → Elem) (f : CvoFields) (s : State) (x y : Nat → Elem) (m : Emax),
    cvoUnary func = some g → CvoReady func f s → f.async = false → L2Holds s f.srcAddr.toNat f.length.toNat x →
    (f.subEmax = true → s.eMax = some m) → (f.accm = true → L2Holds s f.dstAddr.toNat f.length.toNat y) →
    ∃ t, exec (cvoInstr func f) s = .next t ∧ OnlyL2Range s t f.dstAddr.toNat f.length.toNat ∧
      L2Holds t f.dstAddr.toNat f.length.toNat fun i =>
        let v := g (if f.subEmax then Config.cvoSub (x i) (Config.emaxToElem m) else x i)
        if f.accm then Config.cvoAdd (y i) v else v

/-- CVO_REDUCE_SUM stores one element, the sum of the whole input, at `dst_addr` and changes nothing else. The spec's
decisions D18, D19 and D21. -/
def Obligations.ReduceSumResult : Prop :=
  ∀ (f : CvoFields) (s : State) (x : Nat → Elem) (y : Elem) (m : Emax), CvoReady .reduceSum f s → f.async = false →
    L2Holds s f.srcAddr.toNat f.length.toNat x → (f.subEmax = true → s.eMax = some m) →
    (f.accm = true → s.readL2 f.dstAddr.toNat = some y) →
    ∃ t, exec (.cvoReduceSum f) s = .next t ∧ OnlyL2Range s t f.dstAddr.toNat 1 ∧
      t.readL2 f.dstAddr.toNat = some
        (let v := Config.cvoSum ((List.range f.length.toNat).map fun i =>
          if f.subEmax then Config.cvoSub (x i) (Config.emaxToElem m) else x i)
        if f.accm then Config.cvoAdd y v else v)

/-- CVO_SCALE multiplies each element of its vector by the scalar at `src_addr`, or by the scalar's reciprocal with
`recip_scale`; the scalar is not reduced by e_max, the vector is, with `sub_emax`. Where the vector stands is the open
parameter of R223. The spec's decisions D18 to D21; that length 1 with `dst_addr = src_addr + 1` runs under every layout is
the model's choice (DESIGN CHOICE, log 37). -/
def Obligations.ScaleResult : Prop :=
  ∀ (f : CvoFields) (s : State) (c : Elem) (x y : Nat → Elem) (m : Emax), CvoReady .scale f s → f.async = false →
    s.readL2 f.srcAddr.toNat = some c →
    L2Holds s
      (match s.platform.scaleLayout with
        | .vectorAfterScalar => f.srcAddr.toNat + 1
        | .vectorFromScalar => f.srcAddr.toNat
        | .inPlaceDst => f.dstAddr.toNat) f.length.toNat x →
    (f.subEmax = true → s.eMax = some m) → (f.accm = true → L2Holds s f.dstAddr.toNat f.length.toNat y) →
    ∃ t, exec (.cvoScale f) s = .next t ∧ OnlyL2Range s t f.dstAddr.toNat f.length.toNat ∧
      L2Holds t f.dstAddr.toNat f.length.toNat fun i =>
        let v := Config.cvoMul (if f.subEmax then Config.cvoSub (x i) (Config.emaxToElem m) else x i)
          (if f.recipScale then Config.cvoRecip c else c)
        if f.accm then Config.cvoAdd (y i) v else v

/-- The flag `accm` of every CVO function: with it the value written is the sum of the old destination and of what the
function writes without it, and a destination location that holds nothing faults; without it the old destination is not
read (two states that differ there only give the same result) and is overwritten (R211). In place the destination is the
input itself, so the last clause leaves that form to `ElementwiseResult` and `ScaleResult`, which give its values. That the
fault names the first empty location is DEDUCED (log 31). -/
def Obligations.CvoAccumulate : Prop :=
  (∀ (func : CvoFunc) (f : CvoFields) (s u : State) (y : Nat → Elem), f.accm = true → f.async = false →
    exec (cvoInstr func { f with accm := false }) s = .next u →
    L2Holds s f.dstAddr.toNat (cvoOutLen func f) y →
    ∃ t, exec (cvoInstr func f) s = .next t ∧ ∀ i, i < cvoOutLen func f →
      ∃ v, u.readL2 (f.dstAddr.toNat + i) = some v ∧
        t.readL2 (f.dstAddr.toNat + i) = some (Config.cvoAdd (y i) v)) ∧
  (∀ (func : CvoFunc) (f : CvoFields) (s u : State) (a : Nat), f.accm = true → f.async = false →
    exec (cvoInstr func { f with accm := false }) s = .next u →
    FirstEmpty s f.dstAddr.toNat (cvoOutLen func f) a →
    exec (cvoInstr func f) s = .fault (.unwrittenRead (.l2 a) (s.runningNumber .cvo))) ∧
  ∀ (func : CvoFunc) (f : CvoFields) (s s' t : State), f.accm = false → f.async = false →
    Apart (cvoVectorBase func f s) f.length.toNat f.dstAddr.toNat (cvoOutLen func f) →
    OnlyL2Range s s' f.dstAddr.toNat (cvoOutLen func f) → exec (cvoInstr func f) s = .next t →
    ∃ t', exec (cvoInstr func f) s' = .next t' ∧ ∀ i, i < cvoOutLen func f →
      (t.readL2 (f.dstAddr.toNat + i)).isSome = true ∧
        t'.readL2 (f.dstAddr.toNat + i) = t.readL2 (f.dstAddr.toNat + i)

/-- An asynchronous CVO instruction of any function is accepted: it is pending under its number, and nothing else changes.
The spec's decision D36; which ranges of CVO_SCALE of length 1 pass is log 37 in one case. -/
def Obligations.CvoAccepted : Prop :=
  ∀ (func : CvoFunc) (f : CvoFields) (s : State) (en : Entry), CvoReady func f s → f.async = true →
    s.running.cvo = some en →
    ∃ t, exec (cvoInstr func f) s = .next t ∧ { t with pendingAsync := s.pendingAsync } = s ∧
      ∀ k, cellRead t.pendingAsync k =
        if k = en.number then some { op := .cvo func f, footprint := en.footprint } else cellRead s.pendingAsync k

/-- Where a CVO instruction stops when its engine runs it, in the order of the checks and reads. The spec's decisions D14,
D19, D21 and D22; that the first empty location is the one reported, and that the scalar is read before the vector and the
vector before e_max, is DEDUCED (log 31); one form of CVO_SCALE of length 1 that is not refused is log 37. -/
def Obligations.CvoStops : Prop :=
  ∀ (func : CvoFunc) (f : CvoFields) (s : State), f.flagsRsvd = 0#2 →
    (f.recipScale = true → func ≠ .scale → exec (cvoInstr func f) s = .refused .flagNotApplicable) ∧
    ((f.recipScale = true → func = .scale) →
      (f.length = 0#16 → exec (cvoInstr func f) s = .refused .zeroExtent) ∧
      (f.length ≠ 0#16 →
        (l2Size < cvoVectorBase func f s + f.length.toNat ∨ l2Size < f.dstAddr.toNat + cvoOutLen func f →
          exec (cvoInstr func f) s = .refused .addressRangeOverflow) ∧
        (cvoVectorBase func f s + f.length.toNat ≤ l2Size → f.dstAddr.toNat + cvoOutLen func f ≤ l2Size →
          ¬CvoRangesOk func f s → exec (cvoInstr func f) s = .refused .operandOverlap))) ∧
    (CvoReady func f s → f.async = false →
      (func = .scale → s.readL2 f.srcAddr.toNat = none →
        exec (cvoInstr func f) s = .fault (.unwrittenRead (.l2 f.srcAddr.toNat) (s.runningNumber .cvo))) ∧
      ((func = .scale → s.readL2 f.srcAddr.toNat ≠ none) →
        (∀ a, FirstEmpty s (cvoVectorBase func f s) f.length.toNat a →
          exec (cvoInstr func f) s = .fault (.unwrittenRead (.l2 a) (s.runningNumber .cvo))) ∧
        (∀ x, L2Holds s (cvoVectorBase func f s) f.length.toNat x → f.subEmax = true → s.eMax = none →
          exec (cvoInstr func f) s = .fault (.unwrittenRead .eMax (s.runningNumber .cvo)))))

/-! ### The asynchronous agent -/

/-- A pending operation, when it is performed, does what its instruction would do with `async = 0` on the state as it is
then: the same effect, after which it has left `pending_async`, or the same fault. The spec's decision D36. -/
def Obligations.AsyncPerformsTheEffect : Prop :=
  (∀ (s : State) (rest : List Move) (k : Nat) (func : CvoFunc) (f : CvoFields) (en : Entry), Running s →
    s.script = .performAsync k :: rest → en.number = k →
    cellRead s.pendingAsync k = some { op := .cvo func f, footprint := en.footprint } →
    let now := exec (cvoInstr func { f with async := false })
      { s with script := rest, running := s.running.set .cvo (some en) }
    (∀ u, now = .next u →
      step s = .next { u with running := s.running, pendingAsync := cellErase s.pendingAsync k }) ∧
    ∀ r, now = .fault r → step s = .fault r) ∧
  ∀ (s : State) (rest : List Move) (k : Nat) (route : CopyRoute) (f : MemcpyFields) (n : Nat) (en : Entry),
    Running s → s.script = .performAsync k :: rest → en.number = k →
    cellRead s.pendingAsync k =
      some { op := .copy route f.destAddr f.srcAddr n, footprint := en.footprint } →
    copyRoute f = some route → copyLen route f s = some n →
    let now := exec (.memcpy { f with async := false })
      { s with script := rest, running := s.running.set .mem (some en) }
    (∀ u, now = .next u →
      step s = .next { u with running := s.running, pendingAsync := cellErase s.pendingAsync k }) ∧
    ∀ r, now = .fault r → step s = .fault r

/-! ### The whole machine -/

/-- e_max changes only where an engine runs a GEMV or GEMM with `findemax = 1`. The spec's decision D17. -/
def Obligations.EmaxWrittenOnlyByFindemax : Prop :=
  ∀ s t : State, step s = .next t → t.eMax ≠ s.eMax →
    ∃ e en kind f, s.fifo.get e = en :: t.fifo.get e ∧ decode en.word = .ok (gemxInstr kind f) ∧
      f.findemax = true ∧ en.number ∈ t.completed

/-- A descriptor entry changes only where an engine runs the MEMSET that names that entry of that cache, and it then holds
the three values of that MEMSET. -/
def Obligations.DescriptorsWrittenOnlyByMemset : Prop :=
  ∀ (s t : State) (p : Ptr), step s = .next t →
    (t.readFmapShape p ≠ s.readFmapShape p →
      ∃ e en f, s.fifo.get e = en :: t.fifo.get e ∧ decode en.word = .ok (.memset f) ∧ f.destCache = 0#2 ∧
        f.destAddr = p ∧ t.readFmapShape p = some { a := f.aValue, b := f.bValue, c := f.cValue }) ∧
    (t.readWeightShape p ≠ s.readWeightShape p →
      ∃ e en f, s.fifo.get e = en :: t.fifo.get e ∧ decode en.word = .ok (.memset f) ∧ f.destCache = 1#2 ∧
        f.destAddr = p ∧ t.readWeightShape p = some { a := f.aValue, b := f.bValue, c := f.cValue })

/-- A byte of host memory changes only where the host itself stores to it, or a copy to the host is performed, at once or
by the asynchronous agent. -/
def Obligations.HostWrittenOnlyByCopyOrHost : Prop :=
  ∀ (s t : State) (a : Nat), step s = .next t → t.readHost a ≠ s.readHost a →
    (∃ b bytes, s.script = .host (.memWrite b bytes) :: t.script ∧ b ≤ a ∧ a < b + bytes.length) ∨
    (∃ e en f, s.fifo.get e = en :: t.fifo.get e ∧ decode en.word = .ok (.memcpy f) ∧
      f.fromDevice = false ∧ f.toDevice = true ∧ f.async = false) ∨
    ∃ k p dest src n, cellRead s.pendingAsync k = some p ∧ p.op = .copy .l2ToHost dest src n ∧
      cellRead t.pendingAsync k = none

/-- An instruction changes only what its write footprint holds, and an asynchronous one, when it is accepted, only
`pending_async`. -/
def Obligations.FrameByFootprint : Prop :=
  ∀ (i : Instr) (s t : State), exec i s = .next t →
    (∀ l, ¬(instrFootprint i s).writesLoc l → sameAt s t l) ∧
    (instrIsAsync i = true → { t with pendingAsync := s.pendingAsync } = s) ∧
    (instrIsAsync i = false →
      { t with
        l2 := s.l2
        hostMem := s.hostMem
        fmapShape := s.fmapShape
        weightShape := s.weightShape
        eMax := s.eMax } = s)

/-- What a synchronous instruction writes depends on nothing but what its read footprint holds: two states that agree
there (on one platform) both let it complete, and leave the same at every location it writes. -/
def Obligations.ReadsOnlyItsFootprint : Prop :=
  ∀ (i : Instr) (s s' t : State), instrIsAsync i = false → s'.platform = s.platform →
    (∀ l, (instrFootprint i s).readsLoc l → sameAt s s' l) → exec i s = .next t →
    ∃ t', exec i s' = .next t' ∧ ∀ l, (instrFootprint i s).writesLoc l → sameAt t t' l

/-- At reset no two instructions in flight conflict, and every step keeps it so: checking at each latch finds every
conflicting pair. The spec's decision D8. `QueueInv`, itself kept by every step, rules out states in which an engine holds
another engine's word. -/
def Obligations.StepKeepsRaceFreedom : Prop :=
  RaceFree State.reset ∧ ∀ s t : State, QueueInv s → RaceFree s → step s = .next t → RaceFree t

/-- The memories keep their canonical form inside their address spaces, and pending operations keep their ranges. -/
def Obligations.StepKeepsMemoryInv : Prop := ∀ s t : State, MemoryInv s → step s = .next t → MemoryInv t

/-- The memories are in canonical form at reset, and nothing is pending. -/
def Obligations.ResetMemoryInv : Prop := MemoryInv State.reset

/-- The bookkeeping of issue, queues and completion stays as `QueueInv` says. -/
def Obligations.StepKeepsQueueInv : Prop := ∀ s t : State, QueueInv s → step s = .next t → QueueInv t

/-- The bookkeeping of issue, queues and completion at reset. -/
def Obligations.ResetQueueInv : Prop := QueueInv State.reset

/-- One serialised issue, from a quiescent machine: the two halves written, dispatched and executed in four steps come to
`exec` of the instruction the word spells, complete for status. The latch, the duty and the FIFO are the spec's decisions
D3, D4 and D9 (log 22). -/
def Obligations.SerialIssueRunsTheInstruction : Prop :=
  ∀ (s : State) (w : Word) (i : Instr) (e : Engine), Running s → s.quiescent = true → s.issueOk = true →
    decode w = .ok i → i.wellFormed = true → engineOfOpcode (opcodeOf w) = some e →
    s.script =
      [.host (.busWrite s.platform.axilBase 32 (w.extractLsb' 0 32)),
        .host (.busWrite (s.platform.axilBase + 4) 32 (w.extractLsb' 32 32)), .dispatch, .engine e] →
    core.run 4 s = mapNext (retire e (s.nLatched + 1)) (exec i (issuedState e w s))

/-- When no more is issued the machine runs dry: while the run goes on, each step with an empty script leaves less work, and
once nothing is in flight a step changes nothing. The order of the agents is the model's (DESIGN CHOICE, log 8); the spec
asks for weak fairness (D40). -/
def Obligations.DrainRunsDry : Prop :=
  ∀ s t : State, QueueInv s → s.script = [] → step s = .next t →
    (s.quiescent = true → t = s) ∧ (s.quiescent = false → workLeft t < workLeft s ∧ t.script = [])

/-- A step that answers changes no open parameter, records no stop, forgets no completion, latches at most one word, and
makes the next move of the script. That the parameters and the script stand in the state, and that a stop is no next state,
is the model's form (DESIGN CHOICE, log 4, log 8, log 9). -/
def Obligations.StepKeepsRecords : Prop :=
  ∀ s t : State, step s = .next t →
    t.platform = s.platform ∧ t.faults = [] ∧ t.refused = none ∧ (∀ k ∈ s.completed, k ∈ t.completed) ∧
      (t.nLatched = s.nLatched ∨ t.nLatched = s.nLatched + 1) ∧ t.script = s.script.tail

/-- What a fault or a refusal leaves: the one stop recorded, every location as it was, nothing complete that was not; every
later step stops with the same reason and changes nothing; after a fault DONE reads 0. The spec's decision D26; that
`afterStep` makes this state is the model's form of it (DESIGN CHOICE, log 9; DONE before the first latch: log 32). -/
def Obligations.RecordedStopEndsTheRun : Prop :=
  ∀ s : State, Running s →
    let t := afterStep s
    (∀ r, step s = .fault r →
      t.faults = [r] ∧ t.refused = none ∧ step t = .fault r ∧ t.status.getLsbD 1 = false) ∧
    (∀ r, step s = .refused r → t.faults = [] ∧ t.refused = some r ∧ step t = .refused r) ∧
    ((∃ r, step s = .fault r) ∨ (∃ r, step s = .refused r) →
      afterStep t = t ∧ (∀ l, sameAt s t l) ∧ t.completed = s.completed ∧ ∀ x ∈ t.inFlight, x ∈ s.inFlight)

/-- An instruction that stops is in flight no more, whether the script or the drain named its agent: it is not latched after
a stop of the front end, not in its engine's FIFO after a stop of the engine, not pending after a stop of the asynchronous
agent; a latch that stops on a conflict has used up the low word, the number and the host's permission. The bookkeeping
stays as `QueueInv` says. The spec's decisions D9 and D10 say so of a reserved opcode at the front end and of an engine. That
`latched` is emptied after a refusal at dispatch too, that a stopped operation leaves `pending_async`, and what a
conflicting latch leaves is the model's choice (DESIGN CHOICE, log 9); the order of the drain is log 8. -/
def Obligations.StoppedInstructionIsInFlightNoMore : Prop :=
  (∀ s : State, QueueInv s → QueueInv (afterStep s)) ∧
  ∀ s : State, Running s → (∀ t, step s ≠ .next t) →
    let t := afterStep s
    (nextMove s = some .dispatch →
      t.latched = none ∧ t.fifo = s.fifo ∧ t.running = s.running ∧ t.pendingAsync = s.pendingAsync) ∧
    (∀ e, nextMove s = some (.engine e) →
      t.fifo = s.fifo.set e (s.fifo.get e).tail ∧ t.running.get e = none ∧ t.latched = s.latched ∧
        t.pendingAsync = s.pendingAsync) ∧
    (∀ k, nextMove s = some (.performAsync k) →
      cellRead t.pendingAsync k = none ∧ (∀ j, j ≠ k → cellRead t.pendingAsync j = cellRead s.pendingAsync j) ∧
        t.latched = s.latched ∧ t.fifo = s.fifo ∧ t.running = s.running) ∧
    (∀ a, nextMove s = some (.host a) →
      t.inFlight = s.inFlight ∧
        ((∃ k loc, step s = .fault (.inFlightConflict (.instr (s.nLatched + 1)) k loc)) →
          t.cmdLo = none ∧ t.nLatched = s.nLatched + 1 ∧ t.issueOk = false))

/-- The sequence of status values read, masked as R285 observes them, grows only by status reads: such a read adds the two
bits DONE and BUSY that the host was shown, and no other step adds or changes anything. Host memory, the other thing a run
shows (R285, R49), is not spoken of here. That the values are kept in the state is the model's (DESIGN CHOICE, log 12). -/
def Obligations.StatusValuesReadGrowOnlyByStatusReads : Prop :=
  ∀ s t : State, step s = .next t →
    ((∃ rest, s.script = .host (.busRead (s.platform.axilBase + 8) 32) :: rest) →
      t.observedStatus =
        s.observedStatus ++ [BitVec.ofBool (s.status.getLsbD 1) ++ BitVec.ofBool (s.status.getLsbD 0)]) ∧
    ((¬∃ rest, s.script = .host (.busRead (s.platform.axilBase + 8) 32) :: rest) →
      t.observedStatus = s.observedStatus)

/-- The state after reset: every store of the NPU empty, nothing latched, queued, running, pending, complete or recorded, no
issue allowed yet, and BUSY reads 0. The spec's decision D29. Host memory is the host's (R47): that the run has written no
byte of it yet, and that such a byte is a free value, is the model's form (DESIGN CHOICE, log 7). `script`, `statusReads`
and `draws` are the model's own, and their values its choice (DESIGN CHOICE, log 12). -/
def Obligations.ResetState : Prop :=
  (∀ a, State.reset.readL2 a = none) ∧ (∀ a, State.reset.readHost a = none) ∧
  (∀ p, State.reset.readFmapShape p = none) ∧ (∀ p, State.reset.readWeightShape p = none) ∧
  State.reset.eMax = none ∧ State.reset.cmdLo = none ∧ State.reset.latched = none ∧
  (∀ e, State.reset.fifo.get e = [] ∧ State.reset.running.get e = none) ∧ State.reset.pendingAsync = [] ∧
  State.reset.nLatched = 0 ∧ State.reset.completed = [] ∧ State.reset.faults = [] ∧ State.reset.refused = none ∧
  State.reset.issueOk = false ∧ State.reset.script = [] ∧ State.reset.statusReads = [] ∧ State.reset.draws = 0 ∧
  State.reset.status.getLsbD 0 = false

end
end

