-- ==== Sys2Proof/Laws/Cells.lean ====
section
/-! SUPPORT. The laws of the sparse stores: read after write, every other index left alone, and the canonical form kept
by every operation; the same for the set of completed numbers. -/

namespace Sys2Proof.Machine

variable {α : Type}

@[simp] theorem cellRead_nil (a : Nat) : cellRead ([] : List (Nat × α)) a = none := rfl

/-- What a store holds after one write: the value there, the old content elsewhere. -/
theorem cellRead_cellWrite (m : List (Nat × α)) (a b : Nat) (v : α) :
    cellRead (cellWrite m a v) b = if b = a then some v else cellRead m b := by
  induction m with
  | nil => simp [cellWrite, cellRead]
  | cons c m ih =>
    obtain ⟨k, w⟩ := c
    by_cases h1 : a < k
    · simp [cellWrite, h1, cellRead]
    · by_cases h2 : a = k
      · subst h2
        by_cases hb : b = a <;> simp [cellWrite, cellRead, hb]
      · by_cases hb : b = k
        · subst hb
          simp [cellWrite, h1, h2, cellRead, Ne.symm h2]
        · simp [cellWrite, h1, h2, cellRead, hb, ih]

theorem cellRead_cellErase (m : List (Nat × α)) (a b : Nat) :
    cellRead (cellErase m a) b = if b = a then none else cellRead m b := by
  induction m with
  | nil => simp [cellErase]
  | cons c m ih =>
    obtain ⟨k, w⟩ := c
    by_cases h : a = k
    · subst h
      by_cases hb : b = a
      · subst hb; simpa [cellErase] using ih
      · simp [cellErase, cellRead, hb, ih]
    · by_cases hb : b = k
      · subst hb; simp [cellErase, cellRead, h, Ne.symm h]
      · simp [cellErase, h, cellRead, hb, ih]

/-- What a store holds after consecutive writes. -/
theorem cellRead_cellWriteMany (m : List (Nat × α)) (b a : Nat) (vs : List α) :
    cellRead (cellWriteMany m b vs) a = if b ≤ a ∧ a < b + vs.length then vs[a - b]? else cellRead m a := by
  induction vs generalizing m b with
  | nil =>
    simp [cellWriteMany]
  | cons v vs ih =>
    rw [cellWriteMany, ih, cellRead_cellWrite]
    by_cases h1 : a = b
    · subst h1; simp
    · by_cases h2 : b ≤ a ∧ a < b + (vs.length + 1)
      · have h3 : b + 1 ≤ a ∧ a < b + 1 + vs.length := by omega
        have h4 : a - b = (a - (b + 1)) + 1 := by omega
        simp [h2, h3, h4]
      · have h3 : ¬(b + 1 ≤ a ∧ a < b + 1 + vs.length) := by omega
        rw [if_neg h3, if_neg h1, if_neg (by simpa using h2)]

/-- Consecutive reads answer exactly where every index holds something. -/
theorem cellReadMany_ok_iff (m : List (Nat × α)) (b n : Nat) (vs : List α) :
    cellReadMany m b n = .ok vs ↔ vs.length = n ∧ ∀ i, i < n → cellRead m (b + i) = vs[i]? := by
  induction n generalizing b vs with
  | zero => cases vs <;> simp [cellReadMany]
  | succ n ih =>
    unfold cellReadMany
    cases hb : cellRead m b with
    | none =>
      simp only [reduceCtorEq, false_iff]
      rintro ⟨hl, h⟩
      have h0 := h 0 (by omega)
      rw [Nat.add_zero, hb] at h0
      simp [hl] at h0
    | some v =>
      cases hr : cellReadMany m (b + 1) n with
      | error e =>
        simp only [reduceCtorEq, false_iff]
        rintro ⟨hl, h⟩
        have hn := (ih (b + 1) vs.tail).mpr ⟨by simp [hl], fun i hi => by
          have := h (i + 1) (by omega)
          rw [show b + 1 + i = b + (i + 1) by omega, this]; simp⟩
        simp [hr] at hn
      | ok ws =>
        have hw := (ih (b + 1) ws).mp hr
        simp only [Except.ok.injEq]
        constructor
        · rintro rfl
          refine ⟨by simp [hw.1], fun i hi => ?_⟩
          cases i with
          | zero => simpa using hb
          | succ i =>
            have := hw.2 i (by omega)
            rw [show b + (i + 1) = b + 1 + i by omega, this]; simp
        · rintro ⟨hl, h⟩
          cases vs with
          | nil => simp at hl
          | cons x xs =>
            have h0 := h 0 (by omega)
            simp [hb] at h0
            have hxs := (ih (b + 1) xs).mpr ⟨by simpa using hl, fun i hi => by
              have := h (i + 1) (by omega)
              rw [show b + 1 + i = b + (i + 1) by omega, this]; simp⟩
            rw [hr] at hxs
            simp at hxs
            simp [h0, hxs]

/-- Consecutive reads stop exactly at the first index that holds nothing. -/
theorem cellReadMany_error_iff (m : List (Nat × α)) (b n a : Nat) :
    cellReadMany m b n = .error a ↔
      b ≤ a ∧ a < b + n ∧ cellRead m a = none ∧ ∀ c, b ≤ c → c < a → (cellRead m c).isSome := by
  induction n generalizing b with
  | zero => simp [cellReadMany]; omega
  | succ n ih =>
    unfold cellReadMany
    cases hb : cellRead m b with
    | none =>
      simp only [Except.error.injEq]
      constructor
      · rintro rfl; exact ⟨by omega, by omega, hb, fun c _ _ => by omega⟩
      · rintro ⟨h1, _, _, h4⟩
        by_contra hne
        have := h4 b (le_refl b) (by omega)
        simp [hb] at this
    | some v =>
      have key : cellReadMany m (b + 1) n = .error a ↔
          b ≤ a ∧ a < b + (n + 1) ∧ cellRead m a = none ∧ ∀ c, b ≤ c → c < a → (cellRead m c).isSome := by
        rw [ih]
        constructor
        · rintro ⟨h1, h2, h3, h4⟩
          refine ⟨by omega, by omega, h3, fun c hc hca => ?_⟩
          by_cases h : c = b
          · subst h; simp [hb]
          · exact h4 c (by omega) hca
        · rintro ⟨h1, h2, h3, h4⟩
          have hab : a ≠ b := by rintro rfl; simp [hb] at h3
          exact ⟨by omega, by omega, h3, fun c hc hca => h4 c (by omega) hca⟩
      cases hr : cellReadMany m (b + 1) n with
      | error e => rw [hr] at key; simpa using key
      | ok ws => rw [hr] at key; simpa using key

theorem fst_cellWrite (m : List (Nat × α)) (a : Nat) (v : α) (c : Nat × α) (h : c ∈ cellWrite m a v) :
    c = (a, v) ∨ c ∈ m := by
  induction m with
  | nil => simpa [cellWrite] using h
  | cons d m ih =>
    obtain ⟨k, w⟩ := d
    unfold cellWrite at h
    split at h
    · simpa using h
    · split at h
      · simp only [List.mem_cons] at h ⊢; tauto
      · simp only [List.mem_cons] at h ⊢
        rcases h with h | h
        · exact .inr (.inl h)
        · rcases ih h with h | h
          · exact .inl h
          · exact .inr (.inr h)

theorem mem_of_mem_cellErase (m : List (Nat × α)) (a : Nat) (c : Nat × α) (h : c ∈ cellErase m a) : c ∈ m := by
  induction m with
  | nil => simp [cellErase] at h
  | cons d m ih =>
    obtain ⟨k, w⟩ := d
    unfold cellErase at h
    split at h
    · exact List.mem_cons_of_mem _ (ih h)
    · rcases List.mem_cons.mp h with rfl | h
      · simp
      · exact List.mem_cons_of_mem _ (ih h)

theorem cellsRising_cons (k : Nat) (v : α) (m : List (Nat × α)) :
    cellsRising ((k, v) :: m) = true ↔ (∀ c ∈ m, k < c.1) ∧ cellsRising m = true := by
  simp [cellsRising, List.pairwise_map]

@[simp] theorem cellsRising_nil : cellsRising ([] : List (Nat × α)) = true := by simp [cellsRising]

/-- A write keeps the canonical form. -/
theorem cellsRising_cellWrite (m : List (Nat × α)) (a : Nat) (v : α) (h : cellsRising m = true) :
    cellsRising (cellWrite m a v) = true := by
  induction m with
  | nil => simp [cellWrite, cellsRising]
  | cons d m ih =>
    obtain ⟨k, w⟩ := d
    rw [cellsRising_cons] at h
    unfold cellWrite
    split
    · rename_i hak
      rw [cellsRising_cons, cellsRising_cons]
      refine ⟨fun c hc => ?_, h⟩
      rcases List.mem_cons.mp hc with rfl | hc
      · exact hak
      · exact hak.trans (h.1 c hc)
    · split
      · rename_i _ hak
        subst hak
        rw [cellsRising_cons]; exact h
      · rename_i h1 h2
        rw [cellsRising_cons]
        refine ⟨fun c hc => ?_, ih h.2⟩
        rcases fst_cellWrite m a v c hc with rfl | hc
        · show k < a; omega
        · exact h.1 c hc

theorem cellsRising_cellErase (m : List (Nat × α)) (a : Nat) (h : cellsRising m = true) :
    cellsRising (cellErase m a) = true := by
  induction m with
  | nil => simp [cellErase]
  | cons d m ih =>
    obtain ⟨k, w⟩ := d
    rw [cellsRising_cons] at h
    unfold cellErase
    split
    · exact ih h.2
    · rw [cellsRising_cons]
      exact ⟨fun c hc => h.1 c (mem_of_mem_cellErase m a c hc), ih h.2⟩

theorem cellsRising_cellWriteMany (m : List (Nat × α)) (b : Nat) (vs : List α) (h : cellsRising m = true) :
    cellsRising (cellWriteMany m b vs) = true := by
  induction vs generalizing m b with
  | nil => exact h
  | cons v vs ih => exact ih _ _ (cellsRising_cellWrite m b v h)

theorem cellsBelow_iff (bound : Nat) (m : List (Nat × α)) :
    cellsBelow bound m = true ↔ ∀ c ∈ m, c.1 < bound := by
  simp [cellsBelow]

theorem cellsBelow_cellWrite (bound : Nat) (m : List (Nat × α)) (a : Nat) (v : α) (h : cellsBelow bound m = true)
    (ha : a < bound) : cellsBelow bound (cellWrite m a v) = true := by
  rw [cellsBelow_iff] at h ⊢
  intro c hc
  rcases fst_cellWrite m a v c hc with rfl | hc
  · exact ha
  · exact h c hc

theorem cellsBelow_cellWriteMany (bound : Nat) (m : List (Nat × α)) (b : Nat) (vs : List α)
    (h : cellsBelow bound m = true) (hb : b + vs.length ≤ bound) :
    cellsBelow bound (cellWriteMany m b vs) = true := by
  induction vs generalizing m b with
  | nil => exact h
  | cons v vs ih =>
    simp only [List.length_cons] at hb
    exact ih _ _ (cellsBelow_cellWrite bound m b v h (by omega)) (by omega)

theorem mem_numberInsert (ns : List Nat) (k n : Nat) : n ∈ numberInsert ns k ↔ n = k ∨ n ∈ ns := by
  induction ns with
  | nil => simp [numberInsert]
  | cons m ns ih =>
    unfold numberInsert
    split
    · simp
    · split
      · rename_i _ h; subst h; simp
      · simp [ih]; tauto

theorem pairwise_numberInsert (ns : List Nat) (k : Nat) (h : ns.Pairwise (· < ·)) :
    (numberInsert ns k).Pairwise (· < ·) := by
  induction ns with
  | nil => simp [numberInsert]
  | cons m ns ih =>
    rw [List.pairwise_cons] at h
    unfold numberInsert
    split
    · rename_i hk
      refine List.pairwise_cons.mpr ⟨fun n hn => ?_, List.pairwise_cons.mpr h⟩
      rcases List.mem_cons.mp hn with rfl | hn
      · exact hk
      · exact hk.trans (h.1 n hn)
    · split
      · exact List.pairwise_cons.mpr h
      · rename_i h1 h2
        refine List.pairwise_cons.mpr ⟨fun n hn => ?_, ih h.2⟩
        rcases (mem_numberInsert ns k n).mp hn with rfl | hn
        · omega
        · exact h.1 n hn

end Sys2Proof.Machine
end

