-- ==== Sys2Proof/Laws/Decode.lean ====
section
/-! SUPPORT. What the decoder answers, said once for each format: which words, and with which fields. -/

namespace Sys2Proof

open Sys2Proof.Machine

theorem opcodeOf_toNat (w : Word) : (opcodeOf w).toNat = w.toNat / 2 ^ 60 := by
  have := w.isLt
  simp only [opcodeOf, BitVec.extractLsb'_toNat, Nat.shiftRight_eq_div_pow]
  omega

theorem cvoFuncOf_toNat (w : Word) : (w.extractLsb' 56 4).toNat = w.toNat / 2 ^ 56 % 16 := by
  simp only [BitVec.extractLsb'_toNat, Nat.shiftRight_eq_div_pow]

/-- The code an opcode has among the two multiplies (R102). -/
def gemxOpcode : GemxKind → Nat
  | .gemv => 0
  | .gemm => 1

theorem decode_gemx_iff (w : Word) (kind : GemxKind) (f : GemxFields) :
    decode w = .ok (gemxInstr kind f) ↔ (opcodeOf w).toNat = gemxOpcode kind ∧ f = decodeGemx w := by
  unfold decode
  cases kind <;> (split <;> rename_i h <;> (try split) <;> simp_all [gemxInstr, gemxOpcode] <;> exact eq_comm)

theorem decode_memcpy_iff (w : Word) (f : MemcpyFields) :
    decode w = .ok (.memcpy f) ↔ (opcodeOf w).toNat = 2 ∧ f = decodeMemcpy w := by
  unfold decode
  split <;> rename_i h <;> (try split) <;> simp_all <;> exact eq_comm

theorem decode_memset_iff (w : Word) (f : MemsetFields) :
    decode w = .ok (.memset f) ↔ (opcodeOf w).toNat = 3 ∧ f = decodeMemset w := by
  unfold decode
  split <;> rename_i h <;> (try split) <;> simp_all <;> exact eq_comm

theorem decode_cvo_iff (w : Word) (func : CvoFunc) (f : CvoFields) :
    decode w = .ok (cvoInstr func f) ↔
      (opcodeOf w).toNat = 4 ∧ (w.extractLsb' 56 4).toNat = (cvoFuncCode func).toNat ∧ f = decodeCvo w := by
  unfold decode
  cases func <;>
    (split <;> rename_i h <;> (try (split <;> rename_i h2)) <;> simp_all [cvoInstr, cvoFuncCode] <;> exact eq_comm)

theorem decode_reservedOpcode_iff (w : Word) (op : BitVec 4) (body : BitVec 60) :
    decode w = .error (.reservedOpcode op body) ↔
      5 ≤ (opcodeOf w).toNat ∧ op = opcodeOf w ∧ body = w.extractLsb' 0 60 := by
  unfold decode
  split <;> rename_i h <;> (try split) <;> simp_all <;> (constructor <;> (intro; simp_all; try omega))

theorem decode_reservedCvoFunc_iff (w : Word) (func : BitVec 4) (f : CvoFields) :
    decode w = .error (.reservedCvoFunc func f) ↔
      (opcodeOf w).toNat = 4 ∧ 8 ≤ (w.extractLsb' 56 4).toNat ∧ func = w.extractLsb' 56 4 ∧ f = decodeCvo w := by
  unfold decode
  split <;> rename_i h <;> (try (split <;> rename_i h2)) <;> simp_all <;>
    (constructor <;> (intro; simp_all; try omega))

/-- The engine of an instruction's opcode is the one its word is routed to (R245). -/
theorem engineOfOpcode_some_iff (op : BitVec 4) (e : Engine) :
    engineOfOpcode op = some e ↔ op.toNat =
      match e with
      | .gemv => 0
      | .gemm => 1
      | .mem => 2
      | .memset => 3
      | .cvo => 4 := by
  unfold engineOfOpcode
  cases e <;> (split <;> simp_all)

theorem engineOfOpcode_none_iff (op : BitVec 4) : engineOfOpcode op = none ↔ 5 ≤ op.toNat := by
  unfold engineOfOpcode
  split <;> simp_all <;> omega

end Sys2Proof
end

