-- ==== Sys2Proof/Laws/State.lean ====
section
/-! SUPPORT. One lemma per field per update of the state, each true by rfl, so that no later proof unfolds a record
update. -/

namespace Sys2Proof.Machine

section writeL2Many

variable (s : State) (b : Nat) (vs : List Elem)

@[simp] theorem writeL2Many_cmdLo : (State.writeL2Many s b vs).cmdLo = s.cmdLo := rfl
@[simp] theorem writeL2Many_latched : (State.writeL2Many s b vs).latched = s.latched := rfl
@[simp] theorem writeL2Many_fmapShape : (State.writeL2Many s b vs).fmapShape = s.fmapShape := rfl
@[simp] theorem writeL2Many_weightShape : (State.writeL2Many s b vs).weightShape = s.weightShape := rfl
@[simp] theorem writeL2Many_eMax : (State.writeL2Many s b vs).eMax = s.eMax := rfl
@[simp] theorem writeL2Many_l2 : (State.writeL2Many s b vs).l2 = cellWriteMany s.l2 b vs := rfl
@[simp] theorem writeL2Many_hostMem : (State.writeL2Many s b vs).hostMem = s.hostMem := rfl
@[simp] theorem writeL2Many_fifo : (State.writeL2Many s b vs).fifo = s.fifo := rfl
@[simp] theorem writeL2Many_running : (State.writeL2Many s b vs).running = s.running := rfl
@[simp] theorem writeL2Many_pendingAsync : (State.writeL2Many s b vs).pendingAsync = s.pendingAsync := rfl
@[simp] theorem writeL2Many_nLatched : (State.writeL2Many s b vs).nLatched = s.nLatched := rfl
@[simp] theorem writeL2Many_completed : (State.writeL2Many s b vs).completed = s.completed := rfl
@[simp] theorem writeL2Many_faults : (State.writeL2Many s b vs).faults = s.faults := rfl
@[simp] theorem writeL2Many_refused : (State.writeL2Many s b vs).refused = s.refused := rfl
@[simp] theorem writeL2Many_issueOk : (State.writeL2Many s b vs).issueOk = s.issueOk := rfl
@[simp] theorem writeL2Many_platform : (State.writeL2Many s b vs).platform = s.platform := rfl
@[simp] theorem writeL2Many_script : (State.writeL2Many s b vs).script = s.script := rfl
@[simp] theorem writeL2Many_statusReads : (State.writeL2Many s b vs).statusReads = s.statusReads := rfl
@[simp] theorem writeL2Many_draws : (State.writeL2Many s b vs).draws = s.draws := rfl

end writeL2Many

section writeHostMany

variable (s : State) (b : Nat) (bs : List Byte)

@[simp] theorem writeHostMany_cmdLo : (State.writeHostMany s b bs).cmdLo = s.cmdLo := rfl
@[simp] theorem writeHostMany_latched : (State.writeHostMany s b bs).latched = s.latched := rfl
@[simp] theorem writeHostMany_fmapShape : (State.writeHostMany s b bs).fmapShape = s.fmapShape := rfl
@[simp] theorem writeHostMany_weightShape : (State.writeHostMany s b bs).weightShape = s.weightShape := rfl
@[simp] theorem writeHostMany_eMax : (State.writeHostMany s b bs).eMax = s.eMax := rfl
@[simp] theorem writeHostMany_l2 : (State.writeHostMany s b bs).l2 = s.l2 := rfl
@[simp] theorem writeHostMany_hostMem : (State.writeHostMany s b bs).hostMem = cellWriteMany s.hostMem b bs := rfl
@[simp] theorem writeHostMany_fifo : (State.writeHostMany s b bs).fifo = s.fifo := rfl
@[simp] theorem writeHostMany_running : (State.writeHostMany s b bs).running = s.running := rfl
@[simp] theorem writeHostMany_pendingAsync : (State.writeHostMany s b bs).pendingAsync = s.pendingAsync := rfl
@[simp] theorem writeHostMany_nLatched : (State.writeHostMany s b bs).nLatched = s.nLatched := rfl
@[simp] theorem writeHostMany_completed : (State.writeHostMany s b bs).completed = s.completed := rfl
@[simp] theorem writeHostMany_faults : (State.writeHostMany s b bs).faults = s.faults := rfl
@[simp] theorem writeHostMany_refused : (State.writeHostMany s b bs).refused = s.refused := rfl
@[simp] theorem writeHostMany_issueOk : (State.writeHostMany s b bs).issueOk = s.issueOk := rfl
@[simp] theorem writeHostMany_platform : (State.writeHostMany s b bs).platform = s.platform := rfl
@[simp] theorem writeHostMany_script : (State.writeHostMany s b bs).script = s.script := rfl
@[simp] theorem writeHostMany_statusReads : (State.writeHostMany s b bs).statusReads = s.statusReads := rfl
@[simp] theorem writeHostMany_draws : (State.writeHostMany s b bs).draws = s.draws := rfl

end writeHostMany

section writeFmapShape

variable (s : State) (p : Ptr) (d : Descriptor)

@[simp] theorem writeFmapShape_cmdLo : (State.writeFmapShape s p d).cmdLo = s.cmdLo := rfl
@[simp] theorem writeFmapShape_latched : (State.writeFmapShape s p d).latched = s.latched := rfl
@[simp] theorem writeFmapShape_fmapShape :
    (State.writeFmapShape s p d).fmapShape =
      cellWrite s.fmapShape p.toNat d := rfl
@[simp] theorem writeFmapShape_weightShape : (State.writeFmapShape s p d).weightShape = s.weightShape := rfl
@[simp] theorem writeFmapShape_eMax : (State.writeFmapShape s p d).eMax = s.eMax := rfl
@[simp] theorem writeFmapShape_l2 : (State.writeFmapShape s p d).l2 = s.l2 := rfl
@[simp] theorem writeFmapShape_hostMem : (State.writeFmapShape s p d).hostMem = s.hostMem := rfl
@[simp] theorem writeFmapShape_fifo : (State.writeFmapShape s p d).fifo = s.fifo := rfl
@[simp] theorem writeFmapShape_running : (State.writeFmapShape s p d).running = s.running := rfl
@[simp] theorem writeFmapShape_pendingAsync : (State.writeFmapShape s p d).pendingAsync = s.pendingAsync := rfl
@[simp] theorem writeFmapShape_nLatched : (State.writeFmapShape s p d).nLatched = s.nLatched := rfl
@[simp] theorem writeFmapShape_completed : (State.writeFmapShape s p d).completed = s.completed := rfl
@[simp] theorem writeFmapShape_faults : (State.writeFmapShape s p d).faults = s.faults := rfl
@[simp] theorem writeFmapShape_refused : (State.writeFmapShape s p d).refused = s.refused := rfl
@[simp] theorem writeFmapShape_issueOk : (State.writeFmapShape s p d).issueOk = s.issueOk := rfl
@[simp] theorem writeFmapShape_platform : (State.writeFmapShape s p d).platform = s.platform := rfl
@[simp] theorem writeFmapShape_script : (State.writeFmapShape s p d).script = s.script := rfl
@[simp] theorem writeFmapShape_statusReads : (State.writeFmapShape s p d).statusReads = s.statusReads := rfl
@[simp] theorem writeFmapShape_draws : (State.writeFmapShape s p d).draws = s.draws := rfl

end writeFmapShape

section writeWeightShape

variable (s : State) (p : Ptr) (d : Descriptor)

@[simp] theorem writeWeightShape_cmdLo : (State.writeWeightShape s p d).cmdLo = s.cmdLo := rfl
@[simp] theorem writeWeightShape_latched : (State.writeWeightShape s p d).latched = s.latched := rfl
@[simp] theorem writeWeightShape_fmapShape : (State.writeWeightShape s p d).fmapShape = s.fmapShape := rfl
@[simp] theorem writeWeightShape_weightShape :
    (State.writeWeightShape s p d).weightShape =
      cellWrite s.weightShape p.toNat d := rfl
@[simp] theorem writeWeightShape_eMax : (State.writeWeightShape s p d).eMax = s.eMax := rfl
@[simp] theorem writeWeightShape_l2 : (State.writeWeightShape s p d).l2 = s.l2 := rfl
@[simp] theorem writeWeightShape_hostMem : (State.writeWeightShape s p d).hostMem = s.hostMem := rfl
@[simp] theorem writeWeightShape_fifo : (State.writeWeightShape s p d).fifo = s.fifo := rfl
@[simp] theorem writeWeightShape_running : (State.writeWeightShape s p d).running = s.running := rfl
@[simp] theorem writeWeightShape_pendingAsync : (State.writeWeightShape s p d).pendingAsync = s.pendingAsync := rfl
@[simp] theorem writeWeightShape_nLatched : (State.writeWeightShape s p d).nLatched = s.nLatched := rfl
@[simp] theorem writeWeightShape_completed : (State.writeWeightShape s p d).completed = s.completed := rfl
@[simp] theorem writeWeightShape_faults : (State.writeWeightShape s p d).faults = s.faults := rfl
@[simp] theorem writeWeightShape_refused : (State.writeWeightShape s p d).refused = s.refused := rfl
@[simp] theorem writeWeightShape_issueOk : (State.writeWeightShape s p d).issueOk = s.issueOk := rfl
@[simp] theorem writeWeightShape_platform : (State.writeWeightShape s p d).platform = s.platform := rfl
@[simp] theorem writeWeightShape_script : (State.writeWeightShape s p d).script = s.script := rfl
@[simp] theorem writeWeightShape_statusReads : (State.writeWeightShape s p d).statusReads = s.statusReads := rfl
@[simp] theorem writeWeightShape_draws : (State.writeWeightShape s p d).draws = s.draws := rfl

end writeWeightShape

section addPending

variable (s : State) (e : Engine) (op : Deferred)

@[simp] theorem addPending_cmdLo : (State.addPending s e op).cmdLo = s.cmdLo := rfl
@[simp] theorem addPending_latched : (State.addPending s e op).latched = s.latched := rfl
@[simp] theorem addPending_fmapShape : (State.addPending s e op).fmapShape = s.fmapShape := rfl
@[simp] theorem addPending_weightShape : (State.addPending s e op).weightShape = s.weightShape := rfl
@[simp] theorem addPending_eMax : (State.addPending s e op).eMax = s.eMax := rfl
@[simp] theorem addPending_l2 : (State.addPending s e op).l2 = s.l2 := rfl
@[simp] theorem addPending_hostMem : (State.addPending s e op).hostMem = s.hostMem := rfl
@[simp] theorem addPending_fifo : (State.addPending s e op).fifo = s.fifo := rfl
@[simp] theorem addPending_running : (State.addPending s e op).running = s.running := rfl
@[simp] theorem addPending_pendingAsync :
    (State.addPending s e op).pendingAsync =
      cellWrite s.pendingAsync (s.runningNumber e) { op := op, footprint := s.runningFootprint e } := rfl
@[simp] theorem addPending_nLatched : (State.addPending s e op).nLatched = s.nLatched := rfl
@[simp] theorem addPending_completed : (State.addPending s e op).completed = s.completed := rfl
@[simp] theorem addPending_faults : (State.addPending s e op).faults = s.faults := rfl
@[simp] theorem addPending_refused : (State.addPending s e op).refused = s.refused := rfl
@[simp] theorem addPending_issueOk : (State.addPending s e op).issueOk = s.issueOk := rfl
@[simp] theorem addPending_platform : (State.addPending s e op).platform = s.platform := rfl
@[simp] theorem addPending_script : (State.addPending s e op).script = s.script := rfl
@[simp] theorem addPending_statusReads : (State.addPending s e op).statusReads = s.statusReads := rfl
@[simp] theorem addPending_draws : (State.addPending s e op).draws = s.draws := rfl

end addPending

section complete

variable (s : State) (k : Nat)

@[simp] theorem complete_cmdLo : (State.complete s k).cmdLo = s.cmdLo := rfl
@[simp] theorem complete_latched : (State.complete s k).latched = s.latched := rfl
@[simp] theorem complete_fmapShape : (State.complete s k).fmapShape = s.fmapShape := rfl
@[simp] theorem complete_weightShape : (State.complete s k).weightShape = s.weightShape := rfl
@[simp] theorem complete_eMax : (State.complete s k).eMax = s.eMax := rfl
@[simp] theorem complete_l2 : (State.complete s k).l2 = s.l2 := rfl
@[simp] theorem complete_hostMem : (State.complete s k).hostMem = s.hostMem := rfl
@[simp] theorem complete_fifo : (State.complete s k).fifo = s.fifo := rfl
@[simp] theorem complete_running : (State.complete s k).running = s.running := rfl
@[simp] theorem complete_pendingAsync : (State.complete s k).pendingAsync = s.pendingAsync := rfl
@[simp] theorem complete_nLatched : (State.complete s k).nLatched = s.nLatched := rfl
@[simp] theorem complete_completed : (State.complete s k).completed = numberInsert s.completed k := rfl
@[simp] theorem complete_faults : (State.complete s k).faults = s.faults := rfl
@[simp] theorem complete_refused : (State.complete s k).refused = s.refused := rfl
@[simp] theorem complete_issueOk : (State.complete s k).issueOk = s.issueOk := rfl
@[simp] theorem complete_platform : (State.complete s k).platform = s.platform := rfl
@[simp] theorem complete_script : (State.complete s k).script = s.script := rfl
@[simp] theorem complete_statusReads : (State.complete s k).statusReads = s.statusReads := rfl
@[simp] theorem complete_draws : (State.complete s k).draws = s.draws := rfl

end complete

section retire

variable (s : State) (e : Engine) (k : Nat)

@[simp] theorem retire_cmdLo : (retire e k s).cmdLo = s.cmdLo := rfl
@[simp] theorem retire_latched : (retire e k s).latched = s.latched := rfl
@[simp] theorem retire_fmapShape : (retire e k s).fmapShape = s.fmapShape := rfl
@[simp] theorem retire_weightShape : (retire e k s).weightShape = s.weightShape := rfl
@[simp] theorem retire_eMax : (retire e k s).eMax = s.eMax := rfl
@[simp] theorem retire_l2 : (retire e k s).l2 = s.l2 := rfl
@[simp] theorem retire_hostMem : (retire e k s).hostMem = s.hostMem := rfl
@[simp] theorem retire_fifo : (retire e k s).fifo = s.fifo := rfl
@[simp] theorem retire_running : (retire e k s).running = s.running.set e none := rfl
@[simp] theorem retire_pendingAsync : (retire e k s).pendingAsync = s.pendingAsync := rfl
@[simp] theorem retire_nLatched : (retire e k s).nLatched = s.nLatched := rfl
@[simp] theorem retire_completed : (retire e k s).completed = numberInsert s.completed k := rfl
@[simp] theorem retire_faults : (retire e k s).faults = s.faults := rfl
@[simp] theorem retire_refused : (retire e k s).refused = s.refused := rfl
@[simp] theorem retire_issueOk : (retire e k s).issueOk = s.issueOk := rfl
@[simp] theorem retire_platform : (retire e k s).platform = s.platform := rfl
@[simp] theorem retire_script : (retire e k s).script = s.script := rfl
@[simp] theorem retire_statusReads : (retire e k s).statusReads = s.statusReads := rfl
@[simp] theorem retire_draws : (retire e k s).draws = s.draws := rfl

end retire

section popState

variable (s : State) (e : Engine) (en : Entry) (rest : List Entry)

@[simp] theorem popState_cmdLo : (popState e en rest s).cmdLo = s.cmdLo := rfl
@[simp] theorem popState_latched : (popState e en rest s).latched = s.latched := rfl
@[simp] theorem popState_fmapShape : (popState e en rest s).fmapShape = s.fmapShape := rfl
@[simp] theorem popState_weightShape : (popState e en rest s).weightShape = s.weightShape := rfl
@[simp] theorem popState_eMax : (popState e en rest s).eMax = s.eMax := rfl
@[simp] theorem popState_l2 : (popState e en rest s).l2 = s.l2 := rfl
@[simp] theorem popState_hostMem : (popState e en rest s).hostMem = s.hostMem := rfl
@[simp] theorem popState_fifo : (popState e en rest s).fifo = s.fifo.set e rest := rfl
@[simp] theorem popState_running : (popState e en rest s).running = s.running.set e (some en) := rfl
@[simp] theorem popState_pendingAsync : (popState e en rest s).pendingAsync = s.pendingAsync := rfl
@[simp] theorem popState_nLatched : (popState e en rest s).nLatched = s.nLatched := rfl
@[simp] theorem popState_completed : (popState e en rest s).completed = s.completed := rfl
@[simp] theorem popState_faults : (popState e en rest s).faults = s.faults := rfl
@[simp] theorem popState_refused : (popState e en rest s).refused = s.refused := rfl
@[simp] theorem popState_issueOk : (popState e en rest s).issueOk = s.issueOk := rfl
@[simp] theorem popState_platform : (popState e en rest s).platform = s.platform := rfl
@[simp] theorem popState_script : (popState e en rest s).script = s.script := rfl
@[simp] theorem popState_statusReads : (popState e en rest s).statusReads = s.statusReads := rfl
@[simp] theorem popState_draws : (popState e en rest s).draws = s.draws := rfl

end popState

section dispatchState

variable (s : State) (e : Engine) (en : Entry)

@[simp] theorem dispatchState_cmdLo : (dispatchState e en s).cmdLo = s.cmdLo := rfl
@[simp] theorem dispatchState_latched : (dispatchState e en s).latched = none := rfl
@[simp] theorem dispatchState_fmapShape : (dispatchState e en s).fmapShape = s.fmapShape := rfl
@[simp] theorem dispatchState_weightShape : (dispatchState e en s).weightShape = s.weightShape := rfl
@[simp] theorem dispatchState_eMax : (dispatchState e en s).eMax = s.eMax := rfl
@[simp] theorem dispatchState_l2 : (dispatchState e en s).l2 = s.l2 := rfl
@[simp] theorem dispatchState_hostMem : (dispatchState e en s).hostMem = s.hostMem := rfl
@[simp] theorem dispatchState_fifo : (dispatchState e en s).fifo = s.fifo.set e (s.fifo.get e ++ [en]) := rfl
@[simp] theorem dispatchState_running : (dispatchState e en s).running = s.running := rfl
@[simp] theorem dispatchState_pendingAsync : (dispatchState e en s).pendingAsync = s.pendingAsync := rfl
@[simp] theorem dispatchState_nLatched : (dispatchState e en s).nLatched = s.nLatched := rfl
@[simp] theorem dispatchState_completed : (dispatchState e en s).completed = s.completed := rfl
@[simp] theorem dispatchState_faults : (dispatchState e en s).faults = s.faults := rfl
@[simp] theorem dispatchState_refused : (dispatchState e en s).refused = s.refused := rfl
@[simp] theorem dispatchState_issueOk : (dispatchState e en s).issueOk = s.issueOk := rfl
@[simp] theorem dispatchState_platform : (dispatchState e en s).platform = s.platform := rfl
@[simp] theorem dispatchState_script : (dispatchState e en s).script = s.script := rfl
@[simp] theorem dispatchState_statusReads : (dispatchState e en s).statusReads = s.statusReads := rfl
@[simp] theorem dispatchState_draws : (dispatchState e en s).draws = s.draws := rfl

end dispatchState

section removePending

variable (s : State) (k : Nat)

@[simp] theorem removePending_cmdLo : (removePending k s).cmdLo = s.cmdLo := rfl
@[simp] theorem removePending_latched : (removePending k s).latched = s.latched := rfl
@[simp] theorem removePending_fmapShape : (removePending k s).fmapShape = s.fmapShape := rfl
@[simp] theorem removePending_weightShape : (removePending k s).weightShape = s.weightShape := rfl
@[simp] theorem removePending_eMax : (removePending k s).eMax = s.eMax := rfl
@[simp] theorem removePending_l2 : (removePending k s).l2 = s.l2 := rfl
@[simp] theorem removePending_hostMem : (removePending k s).hostMem = s.hostMem := rfl
@[simp] theorem removePending_fifo : (removePending k s).fifo = s.fifo := rfl
@[simp] theorem removePending_running : (removePending k s).running = s.running := rfl
@[simp] theorem removePending_pendingAsync : (removePending k s).pendingAsync = cellErase s.pendingAsync k := rfl
@[simp] theorem removePending_nLatched : (removePending k s).nLatched = s.nLatched := rfl
@[simp] theorem removePending_completed : (removePending k s).completed = s.completed := rfl
@[simp] theorem removePending_faults : (removePending k s).faults = s.faults := rfl
@[simp] theorem removePending_refused : (removePending k s).refused = s.refused := rfl
@[simp] theorem removePending_issueOk : (removePending k s).issueOk = s.issueOk := rfl
@[simp] theorem removePending_platform : (removePending k s).platform = s.platform := rfl
@[simp] theorem removePending_script : (removePending k s).script = s.script := rfl
@[simp] theorem removePending_statusReads : (removePending k s).statusReads = s.statusReads := rfl
@[simp] theorem removePending_draws : (removePending k s).draws = s.draws := rfl

end removePending

section hostReadStatus

variable (s : State)

@[simp] theorem hostReadStatus_cmdLo : (hostReadStatus s).cmdLo = s.cmdLo := rfl
@[simp] theorem hostReadStatus_latched : (hostReadStatus s).latched = s.latched := rfl
@[simp] theorem hostReadStatus_fmapShape : (hostReadStatus s).fmapShape = s.fmapShape := rfl
@[simp] theorem hostReadStatus_weightShape : (hostReadStatus s).weightShape = s.weightShape := rfl
@[simp] theorem hostReadStatus_eMax : (hostReadStatus s).eMax = s.eMax := rfl
@[simp] theorem hostReadStatus_l2 : (hostReadStatus s).l2 = s.l2 := rfl
@[simp] theorem hostReadStatus_hostMem : (hostReadStatus s).hostMem = s.hostMem := rfl
@[simp] theorem hostReadStatus_fifo : (hostReadStatus s).fifo = s.fifo := rfl
@[simp] theorem hostReadStatus_running : (hostReadStatus s).running = s.running := rfl
@[simp] theorem hostReadStatus_pendingAsync : (hostReadStatus s).pendingAsync = s.pendingAsync := rfl
@[simp] theorem hostReadStatus_nLatched : (hostReadStatus s).nLatched = s.nLatched := rfl
@[simp] theorem hostReadStatus_completed : (hostReadStatus s).completed = s.completed := rfl
@[simp] theorem hostReadStatus_faults : (hostReadStatus s).faults = s.faults := rfl
@[simp] theorem hostReadStatus_refused : (hostReadStatus s).refused = s.refused := rfl
@[simp] theorem hostReadStatus_issueOk : (hostReadStatus s).issueOk = !s.status.getLsbD 0 := rfl
@[simp] theorem hostReadStatus_platform : (hostReadStatus s).platform = s.platform := rfl
@[simp] theorem hostReadStatus_script : (hostReadStatus s).script = s.script := rfl
@[simp] theorem hostReadStatus_statusReads : (hostReadStatus s).statusReads = s.status :: s.statusReads := rfl
@[simp] theorem hostReadStatus_draws : (hostReadStatus s).draws = s.draws + 1 := rfl

end hostReadStatus

section latchState

variable (s : State) (v lo : Half)

@[simp] theorem latchState_cmdLo : (latchState v lo s).cmdLo = none := rfl
@[simp] theorem latchState_latched :
    (latchState v lo s).latched =
      some { number := s.nLatched + 1, word := assembleWord lo v, footprint := footprintOf (assembleWord lo v) s } := rfl
@[simp] theorem latchState_fmapShape : (latchState v lo s).fmapShape = s.fmapShape := rfl
@[simp] theorem latchState_weightShape : (latchState v lo s).weightShape = s.weightShape := rfl
@[simp] theorem latchState_eMax : (latchState v lo s).eMax = s.eMax := rfl
@[simp] theorem latchState_l2 : (latchState v lo s).l2 = s.l2 := rfl
@[simp] theorem latchState_hostMem : (latchState v lo s).hostMem = s.hostMem := rfl
@[simp] theorem latchState_fifo : (latchState v lo s).fifo = s.fifo := rfl
@[simp] theorem latchState_running : (latchState v lo s).running = s.running := rfl
@[simp] theorem latchState_pendingAsync : (latchState v lo s).pendingAsync = s.pendingAsync := rfl
@[simp] theorem latchState_nLatched : (latchState v lo s).nLatched = s.nLatched + 1 := rfl
@[simp] theorem latchState_completed : (latchState v lo s).completed = s.completed := rfl
@[simp] theorem latchState_faults : (latchState v lo s).faults = s.faults := rfl
@[simp] theorem latchState_refused : (latchState v lo s).refused = s.refused := rfl
@[simp] theorem latchState_issueOk : (latchState v lo s).issueOk = false := rfl
@[simp] theorem latchState_platform : (latchState v lo s).platform = s.platform := rfl
@[simp] theorem latchState_script : (latchState v lo s).script = s.script := rfl
@[simp] theorem latchState_statusReads : (latchState v lo s).statusReads = s.statusReads := rfl
@[simp] theorem latchState_draws : (latchState v lo s).draws = s.draws := rfl

end latchState

section advance

variable (s : State)

@[simp] theorem advance_cmdLo : (State.advance s).cmdLo = s.cmdLo := rfl
@[simp] theorem advance_latched : (State.advance s).latched = s.latched := rfl
@[simp] theorem advance_fmapShape : (State.advance s).fmapShape = s.fmapShape := rfl
@[simp] theorem advance_weightShape : (State.advance s).weightShape = s.weightShape := rfl
@[simp] theorem advance_eMax : (State.advance s).eMax = s.eMax := rfl
@[simp] theorem advance_l2 : (State.advance s).l2 = s.l2 := rfl
@[simp] theorem advance_hostMem : (State.advance s).hostMem = s.hostMem := rfl
@[simp] theorem advance_fifo : (State.advance s).fifo = s.fifo := rfl
@[simp] theorem advance_running : (State.advance s).running = s.running := rfl
@[simp] theorem advance_pendingAsync : (State.advance s).pendingAsync = s.pendingAsync := rfl
@[simp] theorem advance_nLatched : (State.advance s).nLatched = s.nLatched := rfl
@[simp] theorem advance_completed : (State.advance s).completed = s.completed := rfl
@[simp] theorem advance_faults : (State.advance s).faults = s.faults := rfl
@[simp] theorem advance_refused : (State.advance s).refused = s.refused := rfl
@[simp] theorem advance_issueOk : (State.advance s).issueOk = s.issueOk := rfl
@[simp] theorem advance_platform : (State.advance s).platform = s.platform := rfl
@[simp] theorem advance_script : (State.advance s).script = s.script.tail := rfl
@[simp] theorem advance_statusReads : (State.advance s).statusReads = s.statusReads := rfl
@[simp] theorem advance_draws : (State.advance s).draws = s.draws := rfl

end advance

section recordFault

variable (s : State) (r : Fault)

@[simp] theorem recordFault_cmdLo : (State.recordFault r s).cmdLo = s.cmdLo := rfl
@[simp] theorem recordFault_latched : (State.recordFault r s).latched = s.latched := rfl
@[simp] theorem recordFault_fmapShape : (State.recordFault r s).fmapShape = s.fmapShape := rfl
@[simp] theorem recordFault_weightShape : (State.recordFault r s).weightShape = s.weightShape := rfl
@[simp] theorem recordFault_eMax : (State.recordFault r s).eMax = s.eMax := rfl
@[simp] theorem recordFault_l2 : (State.recordFault r s).l2 = s.l2 := rfl
@[simp] theorem recordFault_hostMem : (State.recordFault r s).hostMem = s.hostMem := rfl
@[simp] theorem recordFault_fifo : (State.recordFault r s).fifo = s.fifo := rfl
@[simp] theorem recordFault_running : (State.recordFault r s).running = s.running := rfl
@[simp] theorem recordFault_pendingAsync : (State.recordFault r s).pendingAsync = s.pendingAsync := rfl
@[simp] theorem recordFault_nLatched : (State.recordFault r s).nLatched = s.nLatched := rfl
@[simp] theorem recordFault_completed : (State.recordFault r s).completed = s.completed := rfl
@[simp] theorem recordFault_faults : (State.recordFault r s).faults = s.faults ++ [r] := rfl
@[simp] theorem recordFault_refused : (State.recordFault r s).refused = s.refused := rfl
@[simp] theorem recordFault_issueOk : (State.recordFault r s).issueOk = s.issueOk := rfl
@[simp] theorem recordFault_platform : (State.recordFault r s).platform = s.platform := rfl
@[simp] theorem recordFault_script : (State.recordFault r s).script = s.script := rfl
@[simp] theorem recordFault_statusReads : (State.recordFault r s).statusReads = s.statusReads := rfl
@[simp] theorem recordFault_draws : (State.recordFault r s).draws = s.draws := rfl

end recordFault

section recordRefusal

variable (s : State) (r : Refusal)

@[simp] theorem recordRefusal_cmdLo : (State.recordRefusal r s).cmdLo = s.cmdLo := rfl
@[simp] theorem recordRefusal_latched : (State.recordRefusal r s).latched = s.latched := rfl
@[simp] theorem recordRefusal_fmapShape : (State.recordRefusal r s).fmapShape = s.fmapShape := rfl
@[simp] theorem recordRefusal_weightShape : (State.recordRefusal r s).weightShape = s.weightShape := rfl
@[simp] theorem recordRefusal_eMax : (State.recordRefusal r s).eMax = s.eMax := rfl
@[simp] theorem recordRefusal_l2 : (State.recordRefusal r s).l2 = s.l2 := rfl
@[simp] theorem recordRefusal_hostMem : (State.recordRefusal r s).hostMem = s.hostMem := rfl
@[simp] theorem recordRefusal_fifo : (State.recordRefusal r s).fifo = s.fifo := rfl
@[simp] theorem recordRefusal_running : (State.recordRefusal r s).running = s.running := rfl
@[simp] theorem recordRefusal_pendingAsync : (State.recordRefusal r s).pendingAsync = s.pendingAsync := rfl
@[simp] theorem recordRefusal_nLatched : (State.recordRefusal r s).nLatched = s.nLatched := rfl
@[simp] theorem recordRefusal_completed : (State.recordRefusal r s).completed = s.completed := rfl
@[simp] theorem recordRefusal_faults : (State.recordRefusal r s).faults = s.faults := rfl
@[simp] theorem recordRefusal_refused : (State.recordRefusal r s).refused = some r := rfl
@[simp] theorem recordRefusal_issueOk : (State.recordRefusal r s).issueOk = s.issueOk := rfl
@[simp] theorem recordRefusal_platform : (State.recordRefusal r s).platform = s.platform := rfl
@[simp] theorem recordRefusal_script : (State.recordRefusal r s).script = s.script := rfl
@[simp] theorem recordRefusal_statusReads : (State.recordRefusal r s).statusReads = s.statusReads := rfl
@[simp] theorem recordRefusal_draws : (State.recordRefusal r s).draws = s.draws := rfl

end recordRefusal

end Sys2Proof.Machine
end

