-- ==== Sys2Proof/Laws/Meanings.lean ====
section
/-! SUPPORT. What each shared operation can do, said once: if it answers, then these things held and this is the answer.
Provers cite these instead of unfolding the operations. -/

namespace Sys2Proof.Machine

/-! ### The words of a computation that may stop -/

@[simp] theorem toResult_ok (t : State) : toResult (.ok t) = .next t := rfl

theorem toResult_next_iff (r : Run State) (t : State) : toResult r = .next t ↔ r = .ok t := by
  rcases r with (_ | _) | _ <;> simp [toResult]

theorem mapNext_next_iff (g : State → State) (r : Result) (t : State) :
    mapNext g r = .next t ↔ ∃ u, r = .next u ∧ t = g u := by
  cases r <;> simp [mapNext, eq_comm]

/-- A sequence answers exactly where both parts do. -/
theorem run_bind_ok {α β : Type} (x : Run α) (f : α → Run β) (b : β) :
    (x >>= f) = .ok b ↔ ∃ a, x = .ok a ∧ f a = .ok b := by
  cases x <;> simp [bind, Except.bind]

theorem run_pure_ok {α : Type} (a b : α) : (pure a : Run α) = .ok b ↔ a = b := by
  simp [pure, Except.pure]

@[simp] theorem run_ok_bind {α β : Type} (a : α) (f : α → Run β) : ((.ok a : Run α) >>= f) = f a := rfl

@[simp] theorem run_error_bind {α β : Type} (e : Stop) (f : α → Run β) : ((.error e : Run α) >>= f) = .error e := rfl

@[simp] theorem run_pure {α : Type} (a : α) : (pure a : Run α) = .ok a := rfl

theorem refuseIf_ok (c : Bool) (r : Refusal) (u : Unit) : refuseIf c r = .ok u ↔ c = false := by
  cases c <;> simp [refuseIf]

@[simp] theorem refuseIf_false (r : Refusal) : refuseIf false r = .ok () := rfl

@[simp] theorem refuseIf_true (r : Refusal) : refuseIf true r = .error (.refused r) := rfl

theorem orRaise_ok {α : Type} (o : Option α) (r : Fault) (v : α) : orRaise o r = .ok v ↔ o = some v := by
  cases o <;> simp [orRaise, raise]

@[simp] theorem orRaise_some {α : Type} (v : α) (r : Fault) : orRaise (some v) r = .ok v := rfl

@[simp] theorem orRaise_none {α : Type} (r : Fault) : orRaise (none : Option α) r = .error (.fault r) := rfl

/-! ### Reads of L2 -/

theorem readL2Many_ok (s : State) (k b n : Nat) (xs : List Elem) :
    s.readL2Many k b n = .ok xs ↔ xs.length = n ∧ ∀ i, i < n → s.readL2 (b + i) = xs[i]? := by
  refine Iff.trans ?_ (cellReadMany_ok_iff s.l2 b n xs)
  unfold State.readL2Many
  cases cellReadMany s.l2 b n <;> simp [raise]

/-- Where L2 holds an operand, reading it answers its elements. -/
theorem readL2Many_of_holds {s : State} {b n : Nat} {x : Nat → Elem} (k : Nat) (h : L2Holds s b n x) :
    s.readL2Many k b n = .ok ((List.range n).map x) := by
  rw [readL2Many_ok]
  refine ⟨by simp, fun i hi => ?_⟩
  rw [h i hi]; simp [hi]

/-- Reading an operand with an empty location faults at the first one. -/
theorem readL2Many_fault {s : State} {b n a : Nat} (k : Nat) (h1 : b ≤ a) (h2 : a < b + n) (h3 : s.readL2 a = none)
    (h4 : ∀ c, b ≤ c → c < a → (s.readL2 c).isSome) :
    s.readL2Many k b n = .error (.fault (.unwrittenRead (.l2 a) k)) := by
  have h : cellReadMany s.l2 b n = .error a := (cellReadMany_error_iff s.l2 b n a).mpr ⟨h1, h2, h3, h4⟩
  simp [State.readL2Many, h, raise]

/-- One element after a store of elements. -/
theorem readL2_writeL2Many (s : State) (b a : Nat) (vs : List Elem) :
    (s.writeL2Many b vs).readL2 a = if b ≤ a ∧ a < b + vs.length then vs[a - b]? else s.readL2 a :=
  cellRead_cellWriteMany s.l2 b a vs

theorem readHost_writeHostMany (s : State) (b a : Nat) (vs : List Byte) :
    (s.writeHostMany b vs).readHost a = if b ≤ a ∧ a < b + vs.length then vs[a - b]? else s.readHost a :=
  cellRead_cellWriteMany s.hostMem b a vs

@[simp] theorem length_encodeHost (vs : List Elem) (len : Nat) : (encodeHost vs len).length = len := by
  simp [encodeHost]

@[simp] theorem length_readHostElems (s : State) (b len n : Nat) : (s.readHostElems b len n).length = n := by
  simp [State.readHostElems]

theorem rangesMeet_eq_false (b n b' n' : Nat) (hn : 0 < n) (hn' : 0 < n') :
    rangesMeet b n b' n' = false ↔ Apart b n b' n' := by
  simp only [rangesMeet, Apart, decide_eq_false_iff_not]; omega

/-! ### GEMV and GEMM -/

theorem gemxDispatchCheck_ok (f : GemxFields) (u : Unit) :
    gemxDispatchCheck f = .ok u ↔ f.flagsRsvd = 0 ∧ f.rsvd = 0 ∧ f.parallelLane ≠ 0 := by
  simp only [gemxDispatchCheck, run_bind_ok, refuseIf_ok]
  simp; tauto

/-- What the old destination is: read with `accm`, absent without (R144). -/
theorem gemxOld_ok (f : GemxFields) (s : State) (k n : Nat) (old : Option (List Elem)) :
    gemxOld f s k n = .ok old ↔
      (f.accm = false ∧ none = old) ∨
        (f.accm = true ∧ ∃ xs, s.readL2Many k f.destReg.toNat n = .ok xs ∧ some xs = old) := by
  unfold gemxOld
  cases f.accm <;> simp [run_bind_ok]

/-- Everything a GEMV or GEMM that answers has checked, and what it answers (R151). -/
theorem gemx_ok (kind : GemxKind) (f : GemxFields) (s t : State) :
    gemx kind f s = .ok t ↔
      (f.flagsRsvd = 0 ∧ f.rsvd = 0 ∧ f.parallelLane ≠ 0) ∧
      ∃ nIn nOut, gemxInLen kind f s = some nIn ∧ gemxOutLen kind f s = some nOut ∧ nIn ≠ 0 ∧ nOut ≠ 0 ∧
        fitsL2 f.srcAddr.toNat nIn = true ∧ fitsL2 f.destReg.toNat nOut = true ∧
        rangesMeet f.srcAddr.toNat nIn f.destReg.toNat nOut = false ∧
        ∃ x, s.readL2Many (s.runningNumber (gemxEngine kind)) f.srcAddr.toNat nIn = .ok x ∧
        ∃ old, gemxOld f s (s.runningNumber (gemxEngine kind)) nOut = .ok old ∧
          { s.writeL2Many f.destReg.toNat ((List.range nOut).map (gemxElem kind f s x old)) with
            eMax := gemxEmax kind f s ((List.range nOut).map (gemxElem kind f s x old)) } = t := by
  simp only [gemx, run_bind_ok, gemxDispatchCheck_ok, orRaise_ok, refuseIf_ok, run_pure_ok]
  constructor
  · rintro ⟨_, h, nIn, h1, nOut, h2, _, h3, _, h4, _, h5, _, h6, x, h7, old, h8, h9⟩
    exact ⟨h, nIn, nOut, h1, h2, by simp_all, by simp_all, by simpa using h4, by simpa using h5, h6, x, h7, old, h8, h9⟩
  · rintro ⟨h, nIn, nOut, h1, h2, h3, h4, h5, h6, h7, x, h8, old, h9, h10⟩
    exact ⟨(), h, nIn, h1, nOut, h2, (), by simp [h3, h4], (), by simp [h5], (), by simp [h6], (), h7, x, h8, old, h9, h10⟩

/-- A GEMV or GEMM that answers changes L2 and e_max only. -/
theorem gemx_frame {kind : GemxKind} {f : GemxFields} {s t : State} (h : gemx kind f s = .ok t) :
    { t with l2 := s.l2, eMax := s.eMax } = s := by
  obtain ⟨_, nIn, nOut, _, _, _, _, _, _, _, x, _, old, _, rfl⟩ := (gemx_ok kind f s t).mp h
  rfl

/-! ### MEMCPY -/

theorem memcpyDispatchCheck_ok (f : MemcpyFields) (u : Unit) :
    memcpyDispatchCheck f = .ok u ↔ f.auxAddr = 0 ∧ (copyRoute f).isSome := by
  simp only [memcpyDispatchCheck, run_bind_ok, refuseIf_ok]
  cases copyRoute f <;> simp

theorem copyRoute_hostToL2 (f : MemcpyFields) :
    copyRoute f = some .hostToL2 ↔ f.fromDevice = true ∧ f.toDevice = false := by
  unfold copyRoute; cases f.fromDevice <;> cases f.toDevice <;> simp

theorem copyRoute_l2ToHost (f : MemcpyFields) :
    copyRoute f = some .l2ToHost ↔ f.fromDevice = false ∧ f.toDevice = true := by
  unfold copyRoute; cases f.fromDevice <;> cases f.toDevice <;> simp

theorem copyRoute_none (f : MemcpyFields) : copyRoute f = none ↔ f.fromDevice = f.toDevice := by
  unfold copyRoute; cases f.fromDevice <;> cases f.toDevice <;> simp

/-- A copy can be performed exactly where its field has an address and every byte of its range may be reached. -/
theorem hostRange_eq_some_iff (p : Platform) (field : Addr) (n : Nat) (r : Nat × Nat) :
    hostRange p field n = some r ↔
      p.hostAddr.lookup field = some r.1 ∧ r.2 = codecSize p n ∧ ∀ j, j < r.2 → hostMapped p (r.1 + j) = true := by
  obtain ⟨b, len⟩ := r
  simp only [hostRange, hostImage, Option.filter_eq_some_iff, Option.map_eq_some_iff, Prod.mk.injEq, List.all_eq_true,
    List.mem_range]
  constructor
  · rintro ⟨⟨c, hc, rfl, rfl⟩, h⟩
    exact ⟨hc, rfl, h⟩
  · rintro ⟨hc, rfl, h⟩
    exact ⟨⟨b, hc, rfl, rfl⟩, h⟩

/-- The range of a copy that can be performed is the one its footprint holds. -/
theorem hostRegions_of_hostRange {p : Platform} {field : Addr} {n : Nat} {r : Nat × Nat}
    (h : hostRange p field n = some r) : hostRegions p field n = [.host r.1 r.2] := by
  obtain ⟨h1, h2, _⟩ := (hostRange_eq_some_iff p field n r).mp h
  simp [hostRegions, hostImage, h1, h2]

theorem copyFromHost_ok (dest src : Addr) (n : Nat) (s t : State) :
    copyFromHost dest src n s = .ok t ↔
      ∃ r, hostRange s.platform src n = some r ∧ s.writeL2Many dest.toNat (s.readHostElems r.1 r.2 n) = t := by
  simp only [copyFromHost, run_bind_ok, orRaise_ok, run_pure_ok]

theorem copyToHost_ok (dest src : Addr) (n k : Nat) (s t : State) :
    copyToHost dest src n k s = .ok t ↔
      ∃ vs, s.readL2Many k src.toNat n = .ok vs ∧
        ∃ r, hostRange s.platform dest n = some r ∧ s.writeHostMany r.1 (encodeHost vs r.2) = t := by
  simp only [copyToHost, run_bind_ok, orRaise_ok, run_pure_ok]

/-- Everything a MEMCPY that answers has checked, and what it answers (R171). -/
theorem memcpy_ok (f : MemcpyFields) (s t : State) :
    memcpy f s = .ok t ↔
      f.auxAddr = 0 ∧ ∃ route n, copyRoute f = some route ∧ copyLen route f s = some n ∧ n ≠ 0 ∧
        (route = .l2ToHost → fitsL2 f.srcAddr.toNat n = true) ∧
        (route = .hostToL2 → fitsL2 f.destAddr.toNat n = true) ∧
        (if f.async then .ok (s.addPending .mem (.copy route f.destAddr f.srcAddr n))
          else copyTransfer route f.destAddr f.srcAddr n (s.runningNumber .mem) s) = .ok t := by
  simp only [memcpy, run_bind_ok, memcpyDispatchCheck_ok]
  cases hr : copyRoute f with
  | none => simp
  | some route =>
    simp only [run_bind_ok, orRaise_ok, refuseIf_ok, run_pure]
    constructor
    · rintro ⟨_, h, n, h1, _, h2, _, h3, _, h4, h5⟩
      refine ⟨h.1, route, n, rfl, h1, by simpa using h2, ?_, ?_, h5⟩
      · rintro rfl; simpa using h3
      · rintro rfl; simpa using h4
    · rintro ⟨h, route', n, h0, h1, h2, h3, h4, h5⟩
      obtain rfl : route = route' := by simpa using h0
      refine ⟨(), by simp [h], n, h1, (), by simp [h2], (), ?_, (), ?_, h5⟩
      · cases route <;> simp_all
      · cases route <;> simp_all

/-! ### MEMSET -/

/-- Everything a MEMSET that answers has checked, and what it answers (R191). -/
theorem memset_ok (f : MemsetFields) (s t : State) :
    memset f s = .ok t ↔
      f.rsvd = 0 ∧ f.destCache.toNat < 2 ∧
        (if f.destCache = 0 then s.writeFmapShape f.destAddr (memsetEntry f)
          else s.writeWeightShape f.destAddr (memsetEntry f)) = t := by
  simp only [memset, memsetDispatchCheck, run_bind_ok, refuseIf_ok, run_pure_ok]
  simp only [beq_iff_eq]
  constructor
  · rintro ⟨_, ⟨_, h1, h2⟩, h3⟩
    exact ⟨by simpa using h1, by simpa using h2, h3⟩
  · rintro ⟨h1, h2, h3⟩
    exact ⟨(), ⟨(), by simp [h1], by simp [h2]⟩, h3⟩

/-! ### CVO -/

theorem subtractEmax_ok (f : CvoFields) (s : State) (k : Nat) (xs ys : List Elem) :
    subtractEmax f s k xs = .ok ys ↔
      (f.subEmax = false ∧ xs = ys) ∨
        (f.subEmax = true ∧ ∃ m, s.eMax = some m ∧ (xs.map fun x => Config.cvoSub x (Config.emaxToElem m)) = ys) := by
  unfold subtractEmax
  cases f.subEmax <;> simp [run_bind_ok, orRaise_ok]

theorem accumulate_ok (f : CvoFields) (s : State) (k : Nat) (ys zs : List Elem) :
    accumulate f s k ys = .ok zs ↔
      (f.accm = false ∧ ys = zs) ∨
        (f.accm = true ∧ ∃ old, s.readL2Many k f.dstAddr.toNat ys.length = .ok old ∧
          List.zipWith Config.cvoAdd old ys = zs) := by
  unfold accumulate
  cases f.accm <;> simp [run_bind_ok]

theorem length_subtractEmax {f : CvoFields} {s : State} {k : Nat} {xs ys : List Elem}
    (h : subtractEmax f s k xs = .ok ys) : ys.length = xs.length := by
  rcases (subtractEmax_ok f s k xs ys).mp h with ⟨_, rfl⟩ | ⟨_, m, _, rfl⟩ <;> simp

theorem length_accumulate {f : CvoFields} {s : State} {k : Nat} {ys zs : List Elem}
    (h : accumulate f s k ys = .ok zs) : zs.length = ys.length := by
  rcases (accumulate_ok f s k ys zs).mp h with ⟨_, rfl⟩ | ⟨_, old, h1, rfl⟩
  · rfl
  · have := ((readL2Many_ok s k _ _ old).mp h1).1
    simp [this]

/-- What the element-wise skeleton answers (R218). -/
theorem cvoMap_ok (g : Elem → Elem) (f : CvoFields) (k : Nat) (s t : State) :
    cvoMap g f k s = .ok t ↔
      ∃ x, s.readL2Many k f.srcAddr.toNat f.length.toNat = .ok x ∧ ∃ y, subtractEmax f s k x = .ok y ∧
        ∃ z, accumulate f s k (y.map g) = .ok z ∧ s.writeL2Many f.dstAddr.toNat z = t := by
  simp only [cvoMap, run_bind_ok, run_pure_ok]

theorem effectsCvoReduceSum_ok (f : CvoFields) (k : Nat) (s t : State) :
    effectsCvoReduceSum f k s = .ok t ↔
      ∃ x, s.readL2Many k f.srcAddr.toNat f.length.toNat = .ok x ∧ ∃ y, subtractEmax f s k x = .ok y ∧
        ∃ z, accumulate f s k [Config.cvoSum y] = .ok z ∧ s.writeL2Many f.dstAddr.toNat z = t := by
  simp only [effectsCvoReduceSum, run_bind_ok, run_pure_ok]

theorem effectsCvoScale_ok (f : CvoFields) (k : Nat) (s t : State) :
    effectsCvoScale f k s = .ok t ↔
      ∃ c, s.readL2 f.srcAddr.toNat = some c ∧
      ∃ x, s.readL2Many k (cvoVectorBase .scale f s) f.length.toNat = .ok x ∧ ∃ y, subtractEmax f s k x = .ok y ∧
        ∃ z, accumulate f s k (y.map fun v => Config.cvoMul v (scaleFactor f c)) = .ok z ∧
          s.writeL2Many f.dstAddr.toNat z = t := by
  simp only [effectsCvoScale, run_bind_ok, orRaise_ok, run_pure_ok]

/-- The effects of any CVO function, where they are performed, store `cvoOutLen` elements at `dst_addr` and change
nothing else (R220). -/
theorem cvoEffects_ok {func : CvoFunc} {f : CvoFields} {k : Nat} {s t : State} (h : cvoEffects func f k s = .ok t) :
    ∃ z : List Elem, z.length = cvoOutLen func f ∧ t = s.writeL2Many f.dstAddr.toNat z := by
  have map_case : ∀ g, cvoMap g f k s = .ok t →
      ∃ z : List Elem, z.length = f.length.toNat ∧ t = s.writeL2Many f.dstAddr.toNat z := by
    intro g hg
    obtain ⟨x, hx, y, hy, z, hz, rfl⟩ := (cvoMap_ok g f k s t).mp hg
    refine ⟨z, ?_, rfl⟩
    rw [length_accumulate hz, List.length_map, length_subtractEmax hy, ((readL2Many_ok _ _ _ _ _).mp hx).1]
  cases func with
  | reduceSum =>
    obtain ⟨x, hx, y, hy, z, hz, rfl⟩ := (effectsCvoReduceSum_ok f k s t).mp h
    exact ⟨z, by rw [length_accumulate hz]; rfl, rfl⟩
  | scale =>
    obtain ⟨c, _, x, hx, y, hy, z, hz, rfl⟩ := (effectsCvoScale_ok f k s t).mp h
    refine ⟨z, ?_, rfl⟩
    rw [length_accumulate hz, List.length_map, length_subtractEmax hy, ((readL2Many_ok _ _ _ _ _).mp hx).1]
    rfl
  | _ => exact map_case _ h

theorem cvoCheck_ok (func : CvoFunc) (f : CvoFields) (s : State) (u : Unit) :
    cvoCheck func f s = .ok u ↔
      (f.recipScale = true → func = .scale) ∧ f.length ≠ 0 ∧
        fitsL2 (cvoVectorBase func f s) f.length.toNat = true ∧ fitsL2 f.dstAddr.toNat (cvoOutLen func f) = true ∧
        cvoOverlap func f s = false := by
  simp only [cvoCheck, run_bind_ok, refuseIf_ok]
  constructor
  · rintro ⟨_, h1, _, h2, _, h3, _, h4, h5⟩
    exact ⟨by simpa using h1, by simpa using h2, by simpa using h3, by simpa using h4, h5⟩
  · rintro ⟨h1, h2, h3, h4, h5⟩
    exact ⟨(), by simpa using h1, (), by simpa using h2, (), by simp [h3], (), by simp [h4], h5⟩

/-- Everything a CVO instruction that answers has checked, and what it answers (R221). -/
theorem cvo_ok (func : CvoFunc) (effects : CvoFields → Nat → State → Run State) (f : CvoFields) (s t : State) :
    cvo func effects f s = .ok t ↔
      f.flagsRsvd = 0 ∧ cvoCheck func f s = .ok () ∧
        (if f.async then .ok (s.addPending .cvo (.cvo func f)) else effects f (s.runningNumber .cvo) s) = .ok t := by
  simp only [cvo, cvoDispatchCheck, run_bind_ok, refuseIf_ok]
  constructor
  · rintro ⟨_, h1, _, h2, h3⟩
    exact ⟨by simpa using h1, h2, by simpa using h3⟩
  · rintro ⟨h1, h2, h3⟩
    exact ⟨(), by simp [h1], (), h2, by simpa using h3⟩

/-- The eight CVO meanings, by function. -/
theorem exec_cvoInstr (func : CvoFunc) (f : CvoFields) (s : State) :
    exec (cvoInstr func f) s = toResult (cvo func (cvoEffects func) f s) := by
  cases func <;> rfl

theorem exec_gemxInstr (kind : GemxKind) (f : GemxFields) (s : State) :
    exec (gemxInstr kind f) s = toResult (gemx kind f s) := by
  cases kind <;> rfl

/-- Every instruction is a multiply, a copy, a descriptor write or a CVO function. -/
theorem instr_cases (i : Instr) :
    (∃ kind f, i = gemxInstr kind f) ∨ (∃ f, i = .memcpy f) ∨ (∃ f, i = .memset f) ∨ ∃ func f, i = cvoInstr func f := by
  cases i with
  | gemv f => exact .inl ⟨.gemv, f, rfl⟩
  | gemm f => exact .inl ⟨.gemm, f, rfl⟩
  | memcpy f => exact .inr (.inl ⟨f, rfl⟩)
  | memset f => exact .inr (.inr (.inl ⟨f, rfl⟩))
  | cvoExp f => exact .inr (.inr (.inr ⟨.exp, f, rfl⟩))
  | cvoSqrt f => exact .inr (.inr (.inr ⟨.sqrt, f, rfl⟩))
  | cvoGelu f => exact .inr (.inr (.inr ⟨.gelu, f, rfl⟩))
  | cvoSin f => exact .inr (.inr (.inr ⟨.sin, f, rfl⟩))
  | cvoCos f => exact .inr (.inr (.inr ⟨.cos, f, rfl⟩))
  | cvoReduceSum f => exact .inr (.inr (.inr ⟨.reduceSum, f, rfl⟩))
  | cvoScale f => exact .inr (.inr (.inr ⟨.scale, f, rfl⟩))
  | cvoRecip f => exact .inr (.inr (.inr ⟨.recip, f, rfl⟩))

/-! ### Engines -/

@[simp] theorem perEngine_get_set_same {α : Type} (p : PerEngine α) (e : Engine) (v : α) : (p.set e v).get e = v := by
  cases e <;> rfl

theorem perEngine_get_set_ne {α : Type} (p : PerEngine α) {e d : Engine} (v : α) (h : d ≠ e) :
    (p.set e v).get d = p.get d := by
  cases e <;> cases d <;> first | rfl | exact absurd rfl h

@[simp] theorem perEngine_get_all {α : Type} (v : α) (e : Engine) : (PerEngine.all v).get e = v := by
  cases e <;> rfl

@[simp] theorem perEngine_set_set {α : Type} (p : PerEngine α) (e : Engine) (v w : α) :
    (p.set e v).set e w = p.set e w := by
  cases e <;> rfl

@[simp] theorem perEngine_set_get {α : Type} (p : PerEngine α) (e : Engine) : p.set e (p.get e) = p := by
  cases e <;> rfl

/-- An engine step that is enabled runs the head of its FIFO (R251). -/
theorem engineStep_enabled {e : Engine} {s : State} {en : Entry} {rest : List Entry} (h1 : s.running.get e = none)
    (h2 : s.fifo.get e = en :: rest) : engineStep e s = runEntry e en (popState e en rest s) := by
  simp [engineStep, h1, h2]

/-- What the agent steps can do: an engine step that answers either was not enabled and changed nothing, or ran the head
of its FIFO and retired it (R251). -/
theorem engineStep_next {e : Engine} {s t : State} (h : engineStep e s = .next t) :
    t = s ∨ ∃ en rest i u, s.running.get e = none ∧ s.fifo.get e = en :: rest ∧ decode en.word = .ok i ∧
      exec i (popState e en rest s) = .next u ∧ t = retire e en.number u := by
  cases h1 : s.running.get e with
  | some r => left; simpa [engineStep, h1, eq_comm] using h
  | none =>
    cases h2 : s.fifo.get e with
    | nil => left; simpa [engineStep, h1, h2, eq_comm] using h
    | cons en rest =>
      right
      rw [engineStep_enabled h1 h2] at h
      unfold runEntry at h
      cases hd : decode en.word with
      | error d => simp [hd] at h
      | ok i =>
        simp only [hd] at h
        obtain ⟨u, hu, rfl⟩ := (mapNext_next_iff _ _ _).mp h
        exact ⟨en, rest, i, u, rfl, rfl, hd, hu, rfl⟩

/-- The asynchronous agent's step that answers either found nothing under the number, or performed the operation and
removed it (R256). -/
theorem asyncStep_next {k : Nat} {s t : State} (h : asyncStep k s = .next t) :
    t = s ∨ ∃ p u, cellRead s.pendingAsync k = some p ∧ performDeferred p.op k s = .ok u ∧ t = removePending k u := by
  unfold asyncStep at h
  cases hp : cellRead s.pendingAsync k with
  | none => left; simpa [hp, eq_comm] using h
  | some p =>
    right
    simp only [hp] at h
    obtain ⟨u, hu, rfl⟩ := (mapNext_next_iff _ _ _).mp h
    exact ⟨p, u, rfl, (toResult_next_iff _ _).mp hu, rfl⟩

/-- The dispatch step that answers either was not enabled, or pushed the latched entry to the FIFO of its opcode (R244). -/
theorem dispatch_next {s t : State} (h : dispatch s = .next t) :
    t = s ∨ ∃ en e, s.latched = some en ∧ engineOfOpcode (opcodeOf en.word) = some e ∧ fifoHasRoom e s = true ∧
      dispatchCheck en.word = .ok () ∧ t = dispatchState e en s := by
  unfold dispatch at h
  cases hl : s.latched with
  | none => left; simpa [hl, eq_comm] using h
  | some en =>
    simp only [hl] at h
    cases he : engineOfOpcode (opcodeOf en.word) with
    | none => simp [he] at h
    | some e =>
      simp only [he] at h
      by_cases hr : fifoHasRoom e s = true
      · right
        simp only [hr, if_true] at h
        rw [toResult_next_iff, run_bind_ok] at h
        obtain ⟨_, hc, ht⟩ := h
        exact ⟨en, e, rfl, he, hr, hc, by simpa [eq_comm] using ht⟩
      · left; simpa [hr, eq_comm] using h

/-- A step of the Host agent that answers is one of five (R270 to R274). -/
theorem hostStep_next {a : HostAccess} {s t : State} (h : hostStep a s = .next t) :
    (∃ v, s.issueOk = true ∧ t = { s with cmdLo := some v }) ∨
    (∃ v lo, s.issueOk = true ∧ s.cmdLo = some lo ∧
      firstConflict (footprintOf (assembleWord lo v) s) s.inFlight = none ∧ t = latchState v lo s) ∨
    t = hostReadStatus s ∨
    (∃ b bytes, firstConflict (hostWriteFootprint b bytes.length) s.inFlight = none ∧ t = s.writeHostMany b bytes) ∨
    t = s := by
  cases a with
  | busWrite addr width v =>
    by_cases h1 : width = 32 ∧ addr = s.platform.axilBase
    · simp only [hostStep, if_pos h1, hostWriteLow] at h
      by_cases hi : s.issueOk = true
      · left; exact ⟨v, hi, by simpa [hi, eq_comm] using h⟩
      · simp [hi] at h
    · by_cases h2 : width = 32 ∧ addr = s.platform.axilBase + 4
      · right; left
        simp only [hostStep, if_neg h1, if_pos h2, hostWriteHigh] at h
        by_cases hi : s.issueOk = true
        · simp only [hi, if_true] at h
          cases hc : s.cmdLo with
          | none => simp [hc] at h
          | some lo =>
            simp only [hc] at h
            cases hf : firstConflict (footprintOf (assembleWord lo v) s) s.inFlight with
            | some c => obtain ⟨o, l⟩ := c; simp [hf] at h
            | none => simp only [hf] at h; exact ⟨v, lo, hi, rfl, hf, by simpa [eq_comm] using h⟩
        · simp [hi] at h
      · simp [hostStep, h1, h2] at h
  | busRead addr width =>
    right; right; left
    simp only [hostStep] at h
    split at h
    · simpa [eq_comm] using h
    · simp at h
  | memWrite addr bytes =>
    right; right; right; left
    simp only [hostStep, hostMemWrite] at h
    cases hf : firstConflict (hostWriteFootprint addr bytes.length) s.inFlight with
    | some c => obtain ⟨o, l⟩ := c; simp [hf] at h
    | none => simp only [hf] at h; exact ⟨addr, bytes, hf, by simpa [eq_comm] using h⟩
  | memRead addr len =>
    right; right; right; right
    simp only [hostStep, hostMemRead] at h
    split at h
    · simp at h
    · simpa [eq_comm] using h

/-- A running machine whose next move is `m` makes it on the state whose script no longer names it. -/
theorem step_of_move {s : State} {m : Move} (h : Running s) (hm : nextMove s = some m) :
    step s = moveStep m s.advance := by
  simp [step, stepOf, h.1, h.2, agentStep, hm]

/-- A running machine with nothing left to do stays as it is. -/
theorem step_of_idle {s : State} (h : Running s) (hm : nextMove s = none) : step s = .next s := by
  simp [step, stepOf, h.1, h.2, agentStep, hm]

theorem nextMove_of_script {s : State} {m : Move} {rest : List Move} (hs : s.script = m :: rest) :
    nextMove s = some m := by simp [nextMove, hs]

theorem nextMove_of_drain {s : State} (hs : s.script = []) : nextMove s = drainMove s := by simp [nextMove, hs]

theorem advance_of_script {s : State} {m : Move} {rest : List Move} (hs : s.script = m :: rest) :
    s.advance = { s with script := rest } := by simp [State.advance, hs]

theorem advance_of_nil {s : State} (hs : s.script = []) : s.advance = s := by
  show { s with script := s.script.tail } = s
  rw [hs, List.tail_nil, ← hs]

/-- A step is taken only by a run that has not ended. -/
theorem running_of_step_next {s t : State} (h : step s = .next t) : Running s := by
  unfold step stepOf at h
  unfold Running
  cases hf : s.faults with
  | cons r rs => simp [hf] at h
  | nil =>
    cases hr : s.refused with
    | some r => simp [hf, hr] at h
    | none => exact ⟨rfl, rfl⟩

/-- A step that answers is one agent's step on the state without the script item that named it, or the idle step of a run
with nothing left to do. -/
theorem step_next {s t : State} (h : step s = .next t) :
    Running s ∧ ((∃ m rest, s.script = m :: rest ∧ moveStep m { s with script := rest } = .next t) ∨
      (∃ m, s.script = [] ∧ drainMove s = some m ∧ moveStep m s = .next t) ∨
      (s.script = [] ∧ drainMove s = none ∧ t = s)) := by
  have hr := running_of_step_next h
  refine ⟨hr, ?_⟩
  cases hs : s.script with
  | cons m rest =>
    rw [step_of_move hr (nextMove_of_script hs), advance_of_script hs] at h
    exact .inl ⟨m, rest, rfl, h⟩
  | nil =>
    cases hd : drainMove s with
    | some m =>
      rw [step_of_move hr ((nextMove_of_drain hs).trans hd), advance_of_nil hs] at h
      exact .inr (.inl ⟨m, rfl, rfl, h⟩)
    | none =>
      rw [step_of_idle hr ((nextMove_of_drain hs).trans hd)] at h
      exact .inr (.inr ⟨rfl, rfl, by cases h; rfl⟩)

/-- A move that is a step of a running machine with that move next. -/
theorem step_of_script {s : State} {m : Move} {rest : List Move} (h : Running s) (hs : s.script = m :: rest) :
    step s = moveStep m { s with script := rest } := by
  rw [step_of_move h (nextMove_of_script hs), advance_of_script hs]

theorem step_of_drain {s : State} {m : Move} (h : Running s) (hs : s.script = []) (hd : drainMove s = some m) :
    step s = moveStep m s := by
  rw [step_of_move h ((nextMove_of_drain hs).trans hd), advance_of_nil hs]

/-! ### Stops -/

theorem stopped_eq_false_iff (s : State) : s.stopped = false ↔ Running s := by
  simp [State.stopped, Running]

/-- The state after a step of a run that has not ended, said once for the three outcomes. -/
theorem afterStep_of_running {s : State} (h : Running s) :
    afterStep s = match step s with
      | .next t => t
      | .fault r => (stoppedState s).recordFault r
      | .refused r => (stoppedState s).recordRefusal r := by
  simp only [afterStep, (stopped_eq_false_iff s).mpr h, Bool.false_eq_true, if_false]
  rfl

theorem stoppedState_of_script {s : State} {m : Move} {rest : List Move} (hs : s.script = m :: rest) :
    stoppedState s = abandon m { s with script := rest } := by
  simp [stoppedState, nextMove_of_script hs, advance_of_script hs]

/-- A stop leaves what it stopped at out of the bookkeeping, and everything else as it was (R292). -/
theorem abandon_frame (m : Move) (s : State) :
    { abandon m s with
      cmdLo := s.cmdLo
      latched := s.latched
      fifo := s.fifo
      running := s.running
      pendingAsync := s.pendingAsync
      nLatched := s.nLatched
      issueOk := s.issueOk } = s := by
  cases m with
  | host a =>
    simp only [abandon, abandonHost]
    split
    · split <;> rfl
    · rfl
  | _ => rfl

/-! ### Extents -/

/-- An extent is `none` exactly where an entry the function depends on is (R65, R147). -/
theorem gemxExtent_eq_none_iff (e : GemxExtent) (b : GemxBundle) :
    gemxExtent e b = none ↔
      (e.depends.fmapAtShape = true ∧ b.fmapAtShape = none) ∨
      (e.depends.weightAtShape = true ∧ b.weightAtShape = none) ∨
      (e.depends.fmapAtSize = true ∧ b.fmapAtSize = none) ∨ (e.depends.weightAtSize = true ∧ b.weightAtSize = none) := by
  simp [gemxExtent, entryMissing]
  tauto

/-- As `gemxExtent_eq_none_iff`, for MEMCPY (R65, R177). -/
theorem copyExtent_eq_none_iff (e : CopyExtent) (b : CopyBundle) :
    copyExtent e b = none ↔
      (e.depends.fmapAtShape = true ∧ b.fmapAtShape = none) ∨
      (e.depends.weightAtShape = true ∧ b.weightAtShape = none) := by
  simp [copyExtent, entryMissing]
  tauto

end Sys2Proof.Machine
end

