-- ==== Sys2Proof/Laws/Effects.lean ====
section
/-! SUPPORT. The meanings on operands that L2 holds: what a store of a range leaves, where a read of a range stops, and
what each kind of instruction answers once its checks pass. -/

namespace Sys2Proof.Machine

/-! ### Ranges -/

theorem l2Holds_writeL2Many (s : State) (b n : Nat) (z : Nat → Elem) :
    L2Holds (s.writeL2Many b ((List.range n).map z)) b n z := by
  intro i hi
  rw [readL2_writeL2Many]
  simp [hi]

theorem onlyL2Range_writeL2Many (s : State) (b n : Nat) (vs : List Elem) (h : vs.length = n) :
    OnlyL2Range s (s.writeL2Many b vs) b n :=
  ⟨fun a ha => by rw [readL2_writeL2Many, if_neg (by rw [h]; exact ha)], rfl⟩

/-- Reading an operand stops at its first empty location. -/
theorem readL2Many_firstEmpty {s : State} {b n a : Nat} (k : Nat) (he : FirstEmpty s b n a) :
    s.readL2Many k b n = .error (.fault (.unwrittenRead (.l2 a) k)) :=
  readL2Many_fault k he.1 he.2.1 he.2.2.1 fun c h h' => by
    have := he.2.2.2 c h h'
    cases hh : s.readL2 c <;> simp_all

/-- An operand that is read somewhere is read the same in every state that holds the same there. -/
theorem readL2Many_congr {s s' : State} {k k' b n : Nat} {xs : List Elem} (h : s.readL2Many k b n = .ok xs)
    (hs : ∀ a, b ≤ a → a < b + n → s'.readL2 a = s.readL2 a) : s'.readL2Many k' b n = .ok xs := by
  rw [readL2Many_ok] at h ⊢
  exact ⟨h.1, fun i hi => by rw [hs _ (by omega) (by omega)]; exact h.2 i hi⟩

theorem rangesMeet_eq_true {b n b' n' : Nat} (hn : 0 < n) (hn' : 0 < n') (h : ¬Apart b n b' n') :
    rangesMeet b n b' n' = true := by
  by_contra hh
  exact h ((rangesMeet_eq_false _ _ _ _ hn hn').mp (by simpa using hh))

/-! ### GEMV and GEMM -/

theorem gemxElem_eq (kind : GemxKind) (f : GemxFields) (s : State) (xs : List Elem) (old : Option (List Elem)) :
    gemxElem kind f s xs old = productElem kind f (gemxBundle f s) xs old := by
  funext i; cases kind <;> rfl

/-- What a multiply answers once its checks pass and its input is held. -/
theorem exec_gemx_ready {kind : GemxKind} {f : GemxFields} {s : State} {nIn nOut : Nat} {x : Nat → Elem}
    (old : Option (List Elem)) (h : GemxReady kind f s nIn nOut) (hx : L2Holds s f.srcAddr.toNat nIn x)
    (ho : gemxOld f s (s.runningNumber (gemxEngine kind)) nOut = .ok old) :
    exec (gemxInstr kind f) s = .next
      (let out := (List.range nOut).map (productElem kind f (gemxBundle f s) ((List.range nIn).map x) old)
      { s.writeL2Many f.destReg.toNat out with eMax := gemxEmax kind f s out }) := by
  rw [exec_gemxInstr, toResult_next_iff, gemx_ok]
  obtain ⟨h1, h2, h3, h4, h5, h6, h7, h8, h9, h10⟩ := h
  exact ⟨⟨h1, h2, h3⟩, nIn, nOut, h4, h5, by omega, by omega, by simpa [fitsL2] using h8, by simpa [fitsL2] using h9,
    (rangesMeet_eq_false _ _ _ _ h6 h7).mpr h10, _, readL2Many_of_holds _ hx, old, ho, by simp only [gemxElem_eq]⟩

theorem gemxOld_accm {f : GemxFields} {s : State} {k nOut : Nat} {y : Nat → Elem} (h : f.accm = true)
    (hy : L2Holds s f.destReg.toNat nOut y) : gemxOld f s k nOut = .ok (some ((List.range nOut).map y)) :=
  (gemxOld_ok _ _ _ _ _).mpr (.inr ⟨h, _, readL2Many_of_holds _ hy, rfl⟩)

theorem gemxOld_noAccm {f : GemxFields} {s : State} {k nOut : Nat} (h : f.accm = false) :
    gemxOld f s k nOut = .ok none :=
  (gemxOld_ok _ _ _ _ _).mpr (.inl ⟨h, rfl⟩)

/-! ### CVO -/

/-- The overlap check is the rule of the ranges (R214). -/
theorem cvoOverlap_eq_false {func : CvoFunc} {f : CvoFields} {s : State} (hl : f.length ≠ 0) :
    cvoOverlap func f s = false ↔ CvoRangesOk func f s := by
  have hn : 0 < f.length.toNat := by
    rcases Nat.eq_zero_or_pos f.length.toNat with h | h
    · exact absurd (BitVec.eq_of_toNat_eq h) hl
    · exact h
  cases func <;> simp only [cvoOverlap, CvoRangesOk, sameIndexOrDisjoint, rangesMeet, Apart] <;> simp <;> omega

theorem cvoCheck_ready {func : CvoFunc} {f : CvoFields} {s : State} (h : CvoReady func f s) :
    cvoCheck func f s = .ok () := by
  obtain ⟨h1, h2, h3, h4, h5, h6⟩ := h
  exact (cvoCheck_ok _ _ _ _).mpr
    ⟨h2, h3, by simpa [fitsL2] using h4, by simpa [fitsL2] using h5, (cvoOverlap_eq_false h3).mpr h6⟩

/-- A synchronous CVO instruction whose checks pass comes to its effects. -/
theorem exec_cvo_ready {func : CvoFunc} {f : CvoFields} {s : State} (h : CvoReady func f s) (ha : f.async = false) :
    exec (cvoInstr func f) s = toResult (cvoEffects func f (s.runningNumber .cvo) s) := by
  have : refuseIf (f.flagsRsvd != 0#2) .reservedFieldNonzero = .ok () := by simp [h.1]
  rw [exec_cvoInstr]
  simp [cvo, cvoDispatchCheck, this, cvoCheck_ready h, ha]

theorem subtractEmax_range {f : CvoFields} {s : State} {k n : Nat} {x : Nat → Elem} {m : Emax}
    (h : f.subEmax = true → s.eMax = some m) :
    subtractEmax f s k ((List.range n).map x) =
      .ok ((List.range n).map fun i => if f.subEmax then Config.cvoSub (x i) (Config.emaxToElem m) else x i) := by
  unfold subtractEmax
  cases hf : f.subEmax
  · simp
  · simp [h hf]

theorem accumulate_range {f : CvoFields} {s : State} {k n : Nat} {v y : Nat → Elem}
    (h : f.accm = true → L2Holds s f.dstAddr.toNat n y) :
    accumulate f s k ((List.range n).map v) =
      .ok ((List.range n).map fun i => if f.accm then Config.cvoAdd (y i) (v i) else v i) := by
  unfold accumulate
  cases hf : f.accm
  · simp
  · simp only [if_true, List.length_map, List.length_range, readL2Many_of_holds k (h hf), run_ok_bind, run_pure,
      Except.ok.injEq]
    apply List.ext_getElem <;> simp

/-- Effects without `accm` store some list; with `accm` they store that list after `accumulate`. -/
theorem cvoEffects_accm {func : CvoFunc} {f : CvoFields} {k : Nat} {s u : State} (hf : f.accm = false)
    (h : cvoEffects func f k s = .ok u) :
    ∃ z : List Elem, z.length = cvoOutLen func f ∧ u = s.writeL2Many f.dstAddr.toNat z ∧
      cvoEffects func { f with accm := true } k s = (do
        let z' ← accumulate { f with accm := true } s k z
        return s.writeL2Many f.dstAddr.toNat z') := by
  have hacc : ∀ ys zs, accumulate f s k ys = .ok zs → ys = zs := by
    intro ys zs h
    rcases (accumulate_ok _ _ _ _ _).mp h with h | h
    · exact h.2
    · simp [hf] at h
  have map_case : ∀ g, cvoOutLen func f = f.length.toNat → cvoMap g f k s = .ok u →
      ∃ z : List Elem, z.length = cvoOutLen func f ∧ u = s.writeL2Many f.dstAddr.toNat z ∧
        cvoMap g { f with accm := true } k s = (do
          let z' ← accumulate { f with accm := true } s k z
          return s.writeL2Many f.dstAddr.toNat z') := by
    intro g ho h
    obtain ⟨x, hx, y, hy, z, hz, rfl⟩ := (cvoMap_ok g f k s u).mp h
    have := hacc _ _ hz
    subst this
    have hy' : subtractEmax { f with accm := true } s k x = .ok y := hy
    exact ⟨_, by rw [List.length_map, length_subtractEmax hy, ((readL2Many_ok _ _ _ _ _).mp hx).1, ho], rfl,
      by simp [cvoMap, hx, hy']⟩
  cases func with
  | reduceSum =>
    obtain ⟨x, hx, y, hy, z, hz, rfl⟩ := (effectsCvoReduceSum_ok f k s u).mp h
    have := hacc _ _ hz
    subst this
    have hy' : subtractEmax { f with accm := true } s k x = .ok y := hy
    exact ⟨_, rfl, rfl, by simp [cvoEffects, effectsCvoReduceSum, hx, hy']⟩
  | scale =>
    obtain ⟨c, hc, x, hx, y, hy, z, hz, rfl⟩ := (effectsCvoScale_ok f k s u).mp h
    have := hacc _ _ hz
    subst this
    have hy' : subtractEmax { f with accm := true } s k x = .ok y := hy
    have hx' : s.readL2Many k (cvoVectorBase .scale { f with accm := true } s) f.length.toNat = .ok x := hx
    exact ⟨_, by rw [List.length_map, length_subtractEmax hy, ((readL2Many_ok _ _ _ _ _).mp hx).1]; rfl, rfl,
      by simp [cvoEffects, effectsCvoScale, hc, hx', hy', scaleFactor]⟩
  | _ => exact map_case _ rfl h

/-! ### Footprints by instruction -/

theorem instrFootprint_cvoInstr (func : CvoFunc) (f : CvoFields) (s : State) :
    instrFootprint (cvoInstr func f) s = cvoFootprint func f s := by cases func <;> rfl

theorem instrFootprint_gemxInstr (kind : GemxKind) (f : GemxFields) (s : State) :
    instrFootprint (gemxInstr kind f) s = gemxFootprint kind f s := by cases kind <;> rfl

theorem instrIsAsync_cvoInstr (func : CvoFunc) (f : CvoFields) : instrIsAsync (cvoInstr func f) = f.async := by
  cases func <;> rfl

theorem instrIsAsync_gemxInstr (kind : GemxKind) (f : GemxFields) : instrIsAsync (gemxInstr kind f) = false := by
  cases kind <;> rfl

/-- A footprint is a function of the platform and the two descriptor caches. -/
theorem instrFootprint_congr (i : Instr) {s s' : State} (hp : s'.platform = s.platform)
    (hf : s'.fmapShape = s.fmapShape) (hw : s'.weightShape = s.weightShape) :
    instrFootprint i s' = instrFootprint i s := by
  have h1 : s'.readFmapShape = s.readFmapShape := by funext p; simp [State.readFmapShape, hf]
  have h2 : s'.readWeightShape = s.readWeightShape := by funext p; simp [State.readWeightShape, hw]
  rcases instr_cases i with ⟨kind, f, rfl⟩ | ⟨f, rfl⟩ | ⟨f, rfl⟩ | ⟨func, f, rfl⟩
  · simp [instrFootprint_gemxInstr, gemxFootprint, gemxInLen, gemxOutLen, gemxBundle, hp, h1, h2]
  · simp [instrFootprint, memcpyFootprint, copyLen, copyBundle, hp, h1, h2]
  · rfl
  · have : cvoVectorBase func f s' = cvoVectorBase func f s := by cases func <;> simp [cvoVectorBase, hp]
    simp [instrFootprint_cvoInstr, cvoFootprint, cvoInputs, this]

theorem footprintOf_congr (w : Word) {s s' : State} (hp : s'.platform = s.platform) (hf : s'.fmapShape = s.fmapShape)
    (hw : s'.weightShape = s.weightShape) : footprintOf w s' = footprintOf w s := by
  unfold footprintOf
  cases decode w with
  | error e => rfl
  | ok i => exact instrFootprint_congr i hp hf hw

end Sys2Proof.Machine
end

