-- ==== Sys2Proof/Laws/Memory.lean ====
section
/-! SUPPORT. Every memory operation keeps the canonical form of the stores and their address spaces (`Memory.wf`), and
the stores right after reset have it. -/

namespace Sys2Proof.Machine

theorem memory_wf_iff (s : State) :
    Memory.wf s = true ↔
      cellsRising s.l2 = true ∧ cellsBelow l2Size s.l2 = true ∧
      cellsRising s.fmapShape = true ∧ cellsBelow descEntries s.fmapShape = true ∧
      cellsRising s.weightShape = true ∧ cellsBelow descEntries s.weightShape = true ∧
      cellsRising s.hostMem = true := by
  simp [Memory.wf, and_assoc]

theorem memory_wf_reset : Memory.wf State.reset = true := by decide

/-- A store of elements that stays inside L2. -/
theorem memory_wf_writeL2Many {s : State} {b : Nat} {vs : List Elem} (h : Memory.wf s = true)
    (hb : b + vs.length ≤ l2Size) : Memory.wf (s.writeL2Many b vs) = true := by
  rw [memory_wf_iff] at h ⊢
  obtain ⟨h1, h2, h3⟩ := h
  exact ⟨cellsRising_cellWriteMany _ _ _ h1, cellsBelow_cellWriteMany _ _ _ _ h2 hb, h3⟩

/-- A store of bytes to host memory. -/
theorem memory_wf_writeHostMany {s : State} (b : Nat) (bs : List Byte) (h : Memory.wf s = true) :
    Memory.wf (s.writeHostMany b bs) = true := by
  rw [memory_wf_iff] at h ⊢
  obtain ⟨h1, h2, h3, h4, h5, h6, h7⟩ := h
  exact ⟨h1, h2, h3, h4, h5, h6, cellsRising_cellWriteMany _ _ _ h7⟩

theorem memory_wf_writeFmapShape {s : State} (p : Ptr) (d : Descriptor) (h : Memory.wf s = true) :
    Memory.wf (s.writeFmapShape p d) = true := by
  rw [memory_wf_iff] at h ⊢
  obtain ⟨h1, h2, h3, h4, h5, h6, h7⟩ := h
  exact ⟨h1, h2, cellsRising_cellWrite _ _ _ h3, cellsBelow_cellWrite _ _ _ _ h4 p.isLt, h5, h6, h7⟩

theorem memory_wf_writeWeightShape {s : State} (p : Ptr) (d : Descriptor) (h : Memory.wf s = true) :
    Memory.wf (s.writeWeightShape p d) = true := by
  rw [memory_wf_iff] at h ⊢
  obtain ⟨h1, h2, h3, h4, h5, h6, h7⟩ := h
  exact ⟨h1, h2, h3, h4, cellsRising_cellWrite _ _ _ h5, cellsBelow_cellWrite _ _ _ _ h6 p.isLt, h7⟩

/-- The canonical form is a property of the four stores. -/
theorem memory_wf_congr {s t : State} (h1 : t.l2 = s.l2) (h2 : t.fmapShape = s.fmapShape)
    (h3 : t.weightShape = s.weightShape) (h4 : t.hostMem = s.hostMem) : Memory.wf t = Memory.wf s := by
  simp [Memory.wf, h1, h2, h3, h4]

/-- Two canonical stores that read the same everywhere are the same. -/
theorem cells_ext {α : Type} {m m' : List (Nat × α)} (h : cellsRising m = true) (h' : cellsRising m' = true)
    (he : ∀ a, cellRead m a = cellRead m' a) : m = m' := by
  induction m generalizing m' with
  | nil =>
    cases m' with
    | nil => rfl
    | cons d m' => obtain ⟨k, v⟩ := d; have := he k; simp [cellRead] at this
  | cons c m ih =>
    obtain ⟨k, v⟩ := c
    cases m' with
    | nil => have := he k; simp [cellRead] at this
    | cons d m' =>
      obtain ⟨k', v'⟩ := d
      rw [cellsRising_cons] at h h'
      have low : ∀ {α : Type} (m : List (Nat × α)) a, (∀ c ∈ m, a < c.1) → cellRead m a = none := by
        intro α m a hm
        induction m with
        | nil => rfl
        | cons c m ih' =>
          obtain ⟨q, w⟩ := c
          have := hm (q, w) (by simp)
          have hne : a ≠ q := by simp at this; omega
          simp only [cellRead, if_neg hne]
          exact ih' fun c hc => hm c (List.mem_cons_of_mem _ hc)
      have hk : k = k' := by
        by_contra hne
        rcases Nat.lt_or_gt_of_ne hne with hlt | hlt
        · have := he k
          rw [low ((k', v') :: m') k (fun c hc => by
            rcases List.mem_cons.mp hc with rfl | hc
            · exact hlt
            · exact hlt.trans (h'.1 c hc))] at this
          simp [cellRead] at this
        · have := he k'
          rw [low ((k, v) :: m) k' (fun c hc => by
            rcases List.mem_cons.mp hc with rfl | hc
            · exact hlt
            · exact hlt.trans (h.1 c hc))] at this
          simp [cellRead] at this
      subst hk
      have hv := he k
      simp [cellRead] at hv
      subst hv
      have : m = m' := ih h.2 h'.2 fun a => by
        by_cases ha : a = k
        · subst ha; rw [low m a h.1, low m' a h'.1]
        · have := he a
          simpa [cellRead, ha] using this
      rw [this]

end Sys2Proof.Machine
end

