-- ==== Sys2Proof/Laws/Moves.lean ====
section
/-! SUPPORT. What one move, and with it one step, can do, and what it leaves as it is. -/

namespace Sys2Proof.Machine

/-- An instruction changes nothing outside the stores and `pending_async`. -/
theorem exec_frame {i : Instr} {s t : State} (h : exec i s = .next t) :
    { t with
      l2 := s.l2
      hostMem := s.hostMem
      fmapShape := s.fmapShape
      weightShape := s.weightShape
      eMax := s.eMax
      pendingAsync := s.pendingAsync } = s := by
  rcases instr_cases i with ⟨kind, f, rfl⟩ | ⟨f, rfl⟩ | ⟨f, rfl⟩ | ⟨func, f, rfl⟩
  · rw [exec_gemxInstr, toResult_next_iff] at h
    obtain ⟨_, nIn, nOut, _, _, _, _, _, _, _, x, _, old, _, rfl⟩ := (gemx_ok kind f s t).mp h
    rfl
  · rw [exec, execMemcpy, toResult_next_iff, memcpy_ok] at h
    obtain ⟨_, route, n, _, _, _, _, _, h6⟩ := h
    split at h6
    · cases h6; rfl
    · cases route with
      | hostToL2 => obtain ⟨r, _, rfl⟩ := (copyFromHost_ok _ _ _ _ _).mp h6; rfl
      | l2ToHost => obtain ⟨vs, _, r, _, rfl⟩ := (copyToHost_ok _ _ _ _ _ _).mp h6; rfl
  · rw [exec, execMemset, toResult_next_iff, memset_ok] at h
    obtain ⟨_, _, rfl⟩ := h
    split <;> rfl
  · rw [exec_cvoInstr, toResult_next_iff, cvo_ok] at h
    obtain ⟨_, _, h6⟩ := h
    split at h6
    · cases h6; rfl
    · obtain ⟨z, _, rfl⟩ := cvoEffects_ok h6; rfl

/-- The engine of an instruction. -/
theorem engineOf_decode {w : Word} {i : Instr} {e : Engine} (hd : decode w = .ok i)
    (he : engineOfOpcode (opcodeOf w) = some e) :
    (∀ kind f, i = gemxInstr kind f → e = gemxEngine kind) ∧ (∀ f, i = .memcpy f → e = .mem) ∧
      (∀ f, i = .memset f → e = .memset) ∧ ∀ func f, i = cvoInstr func f → e = .cvo := by
  rw [engineOfOpcode_some_iff] at he
  refine ⟨?_, ?_, ?_, ?_⟩
  · rintro kind f rfl
    have := ((decode_gemx_iff _ _ _).mp hd).1
    cases kind <;> cases e <;> simp_all [gemxOpcode, gemxEngine]
  · rintro f rfl
    have := ((decode_memcpy_iff _ _).mp hd).1
    cases e <;> simp_all
  · rintro f rfl
    have := ((decode_memset_iff _ _).mp hd).1
    cases e <;> simp_all
  · rintro func f rfl
    have := ((decode_cvo_iff _ _ _).mp hd).1
    cases e <;> simp_all

/-- What an instruction running on its own engine does to `pending_async`: nothing, or it is accepted under its number,
with the footprint the latch gave it. -/
theorem exec_pending {i : Instr} {s t : State} {e : Engine} {en : Entry} (hd : decode en.word = .ok i)
    (he : engineOfOpcode (opcodeOf en.word) = some e) (hr : s.running.get e = some en) (h : exec i s = .next t) :
    t.pendingAsync = s.pendingAsync ∨
      ∃ op, t.pendingAsync = cellWrite s.pendingAsync en.number { op := op, footprint := en.footprint } := by
  obtain ⟨_, hm, _, hc⟩ := engineOf_decode hd he
  rcases instr_cases i with ⟨kind, f, rfl⟩ | ⟨f, rfl⟩ | ⟨f, rfl⟩ | ⟨func, f, rfl⟩
  · rw [exec_gemxInstr, toResult_next_iff] at h
    obtain ⟨_, nIn, nOut, _, _, _, _, _, _, _, x, _, old, _, rfl⟩ := (gemx_ok kind f s t).mp h
    exact .inl rfl
  · obtain rfl := hm f rfl
    rw [exec, execMemcpy, toResult_next_iff, memcpy_ok] at h
    obtain ⟨_, route, n, _, _, _, _, _, h6⟩ := h
    split at h6
    · cases h6
      right
      refine ⟨.copy route f.destAddr f.srcAddr n, ?_⟩
      simp only [State.addPending, State.runningNumber, State.runningFootprint, hr]
    · left
      cases route with
      | hostToL2 => obtain ⟨r, _, rfl⟩ := (copyFromHost_ok _ _ _ _ _).mp h6; rfl
      | l2ToHost => obtain ⟨vs, _, r, _, rfl⟩ := (copyToHost_ok _ _ _ _ _ _).mp h6; rfl
  · rw [exec, execMemset, toResult_next_iff, memset_ok] at h
    obtain ⟨_, _, rfl⟩ := h
    left; split <;> rfl
  · obtain rfl := hc func f rfl
    rw [exec_cvoInstr, toResult_next_iff, cvo_ok] at h
    obtain ⟨_, _, h6⟩ := h
    split at h6
    · cases h6
      right
      refine ⟨.cvo func f, ?_⟩
      simp only [State.addPending, State.runningNumber, State.runningFootprint, hr]
    · obtain ⟨z, _, rfl⟩ := cvoEffects_ok h6; exact .inl rfl

/-- A pending operation, performed, changes L2 or HOST only. -/
theorem performDeferred_frame {op : Deferred} {k : Nat} {s t : State} (h : performDeferred op k s = .ok t) :
    { t with l2 := s.l2, hostMem := s.hostMem } = s := by
  cases op with
  | copy route d sr n =>
    cases route with
    | hostToL2 => obtain ⟨r, _, rfl⟩ := (copyFromHost_ok _ _ _ _ _).mp h; rfl
    | l2ToHost => obtain ⟨vs, _, r, _, rfl⟩ := (copyToHost_ok _ _ _ _ _ _).mp h; rfl
  | cvo func f => obtain ⟨z, _, rfl⟩ := cvoEffects_ok h; rfl

/-- An engine step as a whole changes the stores, `pending_async`, its own FIFO and `completed`. -/
theorem engineRun_frame {e : Engine} {en : Entry} {rest : List Entry} {i : Instr} {s u : State}
    (h : exec i (popState e en rest s) = .next u) :
    { retire e en.number u with
      l2 := s.l2
      hostMem := s.hostMem
      fmapShape := s.fmapShape
      weightShape := s.weightShape
      eMax := s.eMax
      pendingAsync := s.pendingAsync } =
    { s with
      fifo := s.fifo.set e rest
      running := s.running.set e none
      completed := numberInsert s.completed en.number } := by
  have hu := exec_frame h
  have : u = { popState e en rest s with
      l2 := u.l2
      hostMem := u.hostMem
      fmapShape := u.fmapShape
      weightShape := u.weightShape
      eMax := u.eMax
      pendingAsync := u.pendingAsync } := by rw [← hu]
  rw [this]
  simp [retire, popState, State.complete]

/-- Everything a move that answers can have done: nothing, one of the four accesses of the host that change something, a
dispatch, an engine step, or the performance of a pending operation. -/
theorem moveStep_next {m : Move} {s t : State} (h : moveStep m s = .next t) :
    t = s ∨
    (∃ a v, m = .host a ∧ s.issueOk = true ∧ t = { s with cmdLo := some v }) ∨
    (∃ a v lo, m = .host a ∧ s.issueOk = true ∧ s.cmdLo = some lo ∧
      firstConflict (footprintOf (assembleWord lo v) s) s.inFlight = none ∧ t = latchState v lo s) ∨
    (∃ a, m = .host a ∧ t = hostReadStatus s) ∨
    (∃ b bytes, m = .host (.memWrite b bytes) ∧
      firstConflict (hostWriteFootprint b bytes.length) s.inFlight = none ∧ t = s.writeHostMany b bytes) ∨
    (∃ en e, m = .dispatch ∧ s.latched = some en ∧ engineOfOpcode (opcodeOf en.word) = some e ∧
      fifoHasRoom e s = true ∧ dispatchCheck en.word = .ok () ∧ t = dispatchState e en s) ∨
    (∃ e en rest i u, m = .engine e ∧ s.running.get e = none ∧ s.fifo.get e = en :: rest ∧ decode en.word = .ok i ∧
      exec i (popState e en rest s) = .next u ∧ t = retire e en.number u) ∨
    (∃ k p u, m = .performAsync k ∧ cellRead s.pendingAsync k = some p ∧ performDeferred p.op k s = .ok u ∧
      t = removePending k u) := by
  cases m with
  | host a =>
    cases a with
    | memWrite b bytes =>
      simp only [moveStep, hostStep, hostMemWrite] at h
      split at h
      · cases h
      · rename_i hc
        cases h
        exact .inr (.inr (.inr (.inr (.inl ⟨b, bytes, rfl, hc, rfl⟩))))
    | busWrite a w v =>
      simp only [moveStep, hostStep] at h
      split at h
      · simp only [hostWriteLow] at h
        split at h
        · rename_i hi
          cases h
          exact .inr (.inl ⟨_, v, rfl, hi, rfl⟩)
        · cases h
      · split at h
        · simp only [hostWriteHigh] at h
          split at h
          · rename_i hi
            split at h
            · cases h
            · rename_i lo hlo
              split at h
              · cases h
              · rename_i hc
                cases h
                exact .inr (.inr (.inl ⟨_, v, lo, rfl, hi, hlo, hc, rfl⟩))
          · cases h
        · cases h
    | busRead a w =>
      simp only [moveStep, hostStep] at h
      split at h
      · cases h; exact .inr (.inr (.inr (.inl ⟨_, rfl, rfl⟩)))
      · cases h
    | memRead a n =>
      simp only [moveStep, hostStep, hostMemRead] at h
      split at h
      · cases h
      · cases h; exact .inl rfl
  | dispatch =>
    rcases dispatch_next h with h | ⟨en, e, h⟩
    · exact .inl h
    · exact .inr (.inr (.inr (.inr (.inr (.inl ⟨en, e, rfl, h⟩)))))
  | engine e =>
    rcases engineStep_next h with h | ⟨en, rest, i, u, h⟩
    · exact .inl h
    · exact .inr (.inr (.inr (.inr (.inr (.inr (.inl ⟨e, en, rest, i, u, rfl, h⟩))))))
  | performAsync k =>
    rcases asyncStep_next h with h | ⟨p, u, h⟩
    · exact .inl h
    · exact .inr (.inr (.inr (.inr (.inr (.inr (.inr ⟨k, p, u, rfl, h⟩))))))

/-- A step that answers is one move on the state with the script's head taken off, or the idle step. -/
theorem step_move {s t : State} (h : step s = .next t) :
    Running s ∧ ((∃ m, moveStep m { s with script := s.script.tail } = .next t ∧
      (s.script = m :: s.script.tail ∨ s.script = [] ∧ drainMove s = some m)) ∨
      t = s ∧ s.script = [] ∧ drainMove s = none) := by
  obtain ⟨hr, h⟩ := step_next h
  refine ⟨hr, ?_⟩
  rcases h with ⟨m, rest, h1, h2⟩ | ⟨m, h1, h3, h2⟩ | ⟨h1, h3, h2⟩
  · exact .inl ⟨m, by simpa [h1] using h2, .inl (by simp [h1])⟩
  · refine .inl ⟨m, ?_, .inr ⟨h1, h3⟩⟩
    have : ({ s with script := s.script.tail } : State) = s := by rw [h1, List.tail_nil, ← h1]
    rw [this]; exact h2
  · exact .inr ⟨h2, h1, h3⟩

/-! ### Conflicts -/

/-- What `sharedLoc` can answer: a location both regions hold, and nothing only where there is none. -/
theorem sharedLoc_some {r q : Region} {l : Loc} (h : sharedLoc r q = some l) : r.holds l ∧ q.holds l := by
  cases r <;> cases q <;> simp only [sharedLoc, rangesMeet, decide_eq_true_eq, reduceCtorEq, Option.ite_none_right_eq_some,
    Option.some.injEq] at h
  · obtain ⟨h, rfl⟩ := h; exact ⟨⟨le_max_left _ _, by omega⟩, ⟨le_max_right _ _, by omega⟩⟩
  · obtain ⟨h, rfl⟩ := h; exact ⟨⟨le_max_left _ _, by omega⟩, ⟨le_max_right _ _, by omega⟩⟩
  · obtain ⟨rfl, rfl⟩ := h; exact ⟨rfl, rfl⟩
  · obtain ⟨rfl, rfl⟩ := h; exact ⟨rfl, rfl⟩
  · subst h; exact ⟨trivial, trivial⟩

theorem sharedLoc_none {r q : Region} (h : sharedLoc r q = none) (l : Loc) : ¬(r.holds l ∧ q.holds l) := by
  rintro ⟨h1, h2⟩
  cases r <;> cases l <;> simp only [Region.holds] at h1 <;> cases q <;> simp only [Region.holds] at h2 <;>
    simp only [sharedLoc, rangesMeet, decide_eq_true_eq, reduceCtorEq, ite_eq_right_iff, imp_false] at h
  · omega
  · omega
  · exact h (h1.trans h2.symm)
  · exact h (h1.trans h2.symm)

theorem regionsShare_some {rs qs : List Region} {l : Loc} (h : regionsShare rs qs = some l) :
    (∃ r ∈ rs, r.holds l) ∧ ∃ q ∈ qs, q.holds l := by
  obtain ⟨r, hr, h⟩ := List.exists_of_findSome?_eq_some h
  obtain ⟨q, hq, h⟩ := List.exists_of_findSome?_eq_some h
  exact ⟨⟨r, hr, (sharedLoc_some h).1⟩, ⟨q, hq, (sharedLoc_some h).2⟩⟩

theorem regionsShare_none {rs qs : List Region} (h : regionsShare rs qs = none) (l : Loc) :
    ¬((∃ r ∈ rs, r.holds l) ∧ ∃ q ∈ qs, q.holds l) := by
  rintro ⟨⟨r, hr, h1⟩, q, hq, h2⟩
  have := List.findSome?_eq_none_iff.mp h r hr
  exact sharedLoc_none (List.findSome?_eq_none_iff.mp this q hq) l ⟨h1, h2⟩

/-- No conflict with anything in flight is found exactly where each single check finds none. -/
theorem firstConflict_eq_none (fp : Footprint) (xs : List (Nat × Footprint)) :
    firstConflict fp xs = none ↔ ∀ x ∈ xs, footprintConflict fp x.2 = none := by
  induction xs with
  | nil => simp [firstConflict]
  | cons x xs ih =>
    obtain ⟨k, g⟩ := x
    unfold firstConflict
    cases h : footprintConflict fp g <;> simp [h, ih]

/-- The conflict reported is with something in flight. -/
theorem firstConflict_eq_some {fp : Footprint} {xs : List (Nat × Footprint)} {k : Nat} {loc : Option Loc}
    (h : firstConflict fp xs = some (k, loc)) : ∃ g, (k, g) ∈ xs ∧ footprintConflict fp g = some loc := by
  induction xs with
  | nil => simp [firstConflict] at h
  | cons x xs ih =>
    obtain ⟨k', g⟩ := x
    unfold firstConflict at h
    cases h' : footprintConflict fp g with
    | some l =>
      simp only [h', Option.some.injEq, Prod.mk.injEq] at h
      obtain ⟨rfl, rfl⟩ := h
      exact ⟨g, by simp, h'⟩
    | none =>
      simp only [h'] at h
      obtain ⟨g', hg, hc⟩ := ih h
      exact ⟨g', List.mem_cons_of_mem _ hg, hc⟩

/-- The latch, where nothing stops it (R272). -/
theorem hostWriteHigh_next {v lo : Half} {s : State} (hi : s.issueOk = true) (hc : s.cmdLo = some lo)
    (hf : firstConflict (footprintOf (assembleWord lo v) s) s.inFlight = none) :
    hostWriteHigh v s = .next (latchState v lo s) := by
  unfold hostWriteHigh
  simp only [hi, hc, hf, if_true]

/-- The latch of a word that conflicts with an instruction in flight (R272). -/
theorem hostWriteHigh_conflict {v lo : Half} {s : State} {k : Nat} {loc : Option Loc} (hi : s.issueOk = true)
    (hc : s.cmdLo = some lo)
    (hf : firstConflict (footprintOf (assembleWord lo v) s) s.inFlight = some (k, loc)) :
    hostWriteHigh v s = .fault (.inFlightConflict (.instr (s.nLatched + 1)) k loc) := by
  unfold hostWriteHigh
  simp only [hi, hc, hf, if_true]

/-- The dispatch of a word that passes its checks, where there is room (R244). -/
theorem dispatch_accepted {s : State} {e : Engine} {en : Entry} (hl : s.latched = some en)
    (he : engineOfOpcode (opcodeOf en.word) = some e) (hroom : fifoHasRoom e s = true)
    (hc : dispatchCheck en.word = .ok ()) : dispatch s = .next (dispatchState e en s) := by
  unfold dispatch
  simp only [hl, he, hroom, if_true, hc, run_ok_bind, run_pure]
  rfl

theorem Footprint.conflicts_symm {a b : Footprint} (h : a.conflicts b) : b.conflicts a := by
  rcases h with h | h | ⟨l, h⟩
  · exact .inr (.inl h)
  · exact .inl h
  · exact .inr (.inr ⟨l, by tauto⟩)

end Sys2Proof.Machine
end

