-- ==== Sys2Proof/Laws/PerInstr.lean ====
section
/-! SUPPORT. Statements made of every instruction. `EncodeRow`: the encoder's word of an instruction lies in that
instruction's row of spec/opcode_table.json (its `mask` and `match`), whatever the fields. -/

namespace Sys2Proof.Laws.EncodeRow

/-- The row's `mask` (spec/opcode_table.json). -/
def rowMask : Instr → Word
  | .gemv _ => 0xF000000000000000#64
  | .gemm _ => 0xF000000000000000#64
  | .memcpy _ => 0xF000000000000000#64
  | .memset _ => 0xF000000000000000#64
  | .cvoExp _ => 0xFF00000000000000#64
  | .cvoSqrt _ => 0xFF00000000000000#64
  | .cvoGelu _ => 0xFF00000000000000#64
  | .cvoSin _ => 0xFF00000000000000#64
  | .cvoCos _ => 0xFF00000000000000#64
  | .cvoReduceSum _ => 0xFF00000000000000#64
  | .cvoScale _ => 0xFF00000000000000#64
  | .cvoRecip _ => 0xFF00000000000000#64

/-- The row's `match` (spec/opcode_table.json). -/
def rowMatch : Instr → Word
  | .gemv _ => 0x0000000000000000#64
  | .gemm _ => 0x1000000000000000#64
  | .memcpy _ => 0x2000000000000000#64
  | .memset _ => 0x3000000000000000#64
  | .cvoExp _ => 0x4000000000000000#64
  | .cvoSqrt _ => 0x4100000000000000#64
  | .cvoGelu _ => 0x4200000000000000#64
  | .cvoSin _ => 0x4300000000000000#64
  | .cvoCos _ => 0x4400000000000000#64
  | .cvoReduceSum _ => 0x4500000000000000#64
  | .cvoScale _ => 0x4600000000000000#64
  | .cvoRecip _ => 0x4700000000000000#64

/-- The encoder's word lies in the instruction's row. -/
def Statement (i : Instr) : Prop := encode i &&& rowMask i = rowMatch i

theorem gemx_row (op : BitVec 4) (f : GemxFields) :
    encodeGemx op f &&& 0xF000000000000000#64 = op ++ 0#60 := by
  simp only [encodeGemx]
  apply BitVec.eq_of_getLsbD_eq
  intro i hi
  interval_cases i <;> (simp only [BitVec.getLsbD_and, BitVec.getLsbD_append]; simp)

theorem cvo_row (func : BitVec 4) (f : CvoFields) :
    encodeCvo func f &&& 0xFF00000000000000#64 = 4#4 ++ func ++ 0#56 := by
  simp only [encodeCvo]
  apply BitVec.eq_of_getLsbD_eq
  intro i hi
  interval_cases i <;> (simp only [BitVec.getLsbD_and, BitVec.getLsbD_append]; simp)

theorem gemv (f : GemxFields) : Statement (.gemv f) := gemx_row 0 f

theorem gemm (f : GemxFields) : Statement (.gemm f) := gemx_row 1 f

theorem memcpy (f : MemcpyFields) : Statement (.memcpy f) := by
  simp only [Statement, encode, rowMask, rowMatch, encodeMemcpy]
  apply BitVec.eq_of_getLsbD_eq
  intro i hi
  interval_cases i <;> (simp only [BitVec.getLsbD_and, BitVec.getLsbD_append]; simp)

theorem memset (f : MemsetFields) : Statement (.memset f) := by
  simp only [Statement, encode, rowMask, rowMatch, encodeMemset]
  apply BitVec.eq_of_getLsbD_eq
  intro i hi
  interval_cases i <;> (simp only [BitVec.getLsbD_and, BitVec.getLsbD_append]; simp)

theorem cvoExp (f : CvoFields) : Statement (.cvoExp f) := cvo_row 0 f

theorem cvoSqrt (f : CvoFields) : Statement (.cvoSqrt f) := cvo_row 1 f

theorem cvoGelu (f : CvoFields) : Statement (.cvoGelu f) := cvo_row 2 f

theorem cvoSin (f : CvoFields) : Statement (.cvoSin f) := cvo_row 3 f

theorem cvoCos (f : CvoFields) : Statement (.cvoCos f) := cvo_row 4 f

theorem cvoReduceSum (f : CvoFields) : Statement (.cvoReduceSum f) := cvo_row 5 f

theorem cvoScale (f : CvoFields) : Statement (.cvoScale f) := cvo_row 6 f

theorem cvoRecip (f : CvoFields) : Statement (.cvoRecip f) := cvo_row 7 f

end Sys2Proof.Laws.EncodeRow
end

