-- ==== Sys2Proof/Tests/Slice0.lean ====
section
/-! SUPPORT. The model's own tests. Words and expected results are those of 95_test_vectors.md (the id stands in each
comment), under its test configuration: eight elements for descriptor 2, four for descriptor 1, none for descriptor 3, one
host byte an element. Then, for each statement with hypotheses, a concrete state that meets them. -/

namespace Sys2Proof.Tests

open Sys2Proof Sys2Proof.Machine

/-! ### Words -/

theorem test_decode_gemv : decode 0x0008000802004220#64 = .ok (.gemv
    { destReg := 0x100#17, srcAddr := 0x200#17, findemax := true, accm := false, wScale := false, flagsRsvd := 0#3,
      sizePtr := 1#6, shapePtr := 2#6, parallelLane := 4#5, rsvd := 0#3 }) := rfl

theorem test_decode_gemm : decode 0x1FFFFFFFFF8FFFF8#64 = .ok (.gemm
    { destReg := 0x1FFFF#17, srcAddr := 0x1FFFF#17, findemax := true, accm := true, wScale := true, flagsRsvd := 0#3,
      sizePtr := 63#6, shapePtr := 63#6, parallelLane := 31#5, rsvd := 0#3 }) := rfl

theorem test_decode_memcpy : decode 0x2802000000000004#64 = .ok (.memcpy
    { fromDevice := true, toDevice := false, destAddr := 0x100#17, srcAddr := 0#17, auxAddr := 0#17, shapePtr := 2#6,
      async := false }) := rfl

theorem test_decode_memset : decode 0x3020001000100080#64 = .ok (.memset
    { destCache := 0#2, destAddr := 2#6, aValue := 1#16, bValue := 1#16, cValue := 8#16, rsvd := 0#4 }) := rfl

theorem test_decode_cvoExp : decode 0x4000800080400220#64 = .ok (.cvoExp
    { srcAddr := 0x100#17, dstAddr := 0x201#17, length := 8#16, subEmax := true, recipScale := false, accm := false,
      flagsRsvd := 0#2, async := false }) := rfl

theorem test_decode_cvoSqrt : decode 0x4101000080000040#64 = .ok (.cvoSqrt
    { srcAddr := 0x200#17, dstAddr := 0x200#17, length := 1#16, subEmax := false, recipScale := false, accm := false,
      flagsRsvd := 0#2, async := false }) := rfl

theorem test_decode_cvoGelu : decode 0x4200800060000200#64 = .ok (.cvoGelu
    { srcAddr := 0x100#17, dstAddr := 0x180#17, length := 8#16, subEmax := false, recipScale := false, accm := false,
      flagsRsvd := 0#2, async := false }) := rfl

theorem test_decode_cvoSin : decode 0x4300800040000100#64 = .ok (.cvoSin
    { srcAddr := 0x100#17, dstAddr := 0x100#17, length := 4#16, subEmax := false, recipScale := false, accm := false,
      flagsRsvd := 0#2, async := false }) := rfl

theorem test_decode_cvoCos : decode 0x44008000C0000100#64 = .ok (.cvoCos
    { srcAddr := 0x100#17, dstAddr := 0x300#17, length := 4#16, subEmax := false, recipScale := false, accm := false,
      flagsRsvd := 0#2, async := false }) := rfl

theorem test_decode_cvoReduceSum : decode 0x4501008080000208#64 = .ok (.cvoReduceSum
    { srcAddr := 0x201#17, dstAddr := 0x200#17, length := 8#16, subEmax := false, recipScale := false, accm := true,
      flagsRsvd := 0#2, async := false }) := rfl

theorem test_decode_cvoScale : decode 0x4601000080400239#64 = .ok (.cvoScale
    { srcAddr := 0x200#17, dstAddr := 0x201#17, length := 8#16, subEmax := true, recipScale := true, accm := true,
      flagsRsvd := 0#2, async := true }) := rfl

theorem test_decode_cvoRecip : decode 0x4701000080000041#64 = .ok (.cvoRecip
    { srcAddr := 0x200#17, dstAddr := 0x200#17, length := 1#16, subEmax := false, recipScale := false, accm := false,
      flagsRsvd := 0#2, async := true }) := rfl

/-- H12: bit 32 of the word is bit 10 of `dst_addr`. -/
theorem test_assemble : assembleWord 0x80400210#32 0x46010000#32 = 0x4601000080400210#64 := rfl

/-- C22 to C25: the first and the last reserved codes. -/
theorem test_decode_reserved :
    decode 0x5000000000000000#64 = .error (.reservedOpcode 5#4 0#60) ∧
      decode 0xFFFFFFFFFFFFFFFF#64 = .error (.reservedOpcode 15#4 0xFFFFFFFFFFFFFFF#60) ∧
      decode 0x4800000000000040#64 = .error (.reservedCvoFunc 8#4
        { srcAddr := 0#17, dstAddr := 0#17, length := 1#16, subEmax := false, recipScale := false, accm := false,
          flagsRsvd := 0#2, async := false }) ∧
      encodeDecoded (decode 0x4F00000000000046#64) = 0x4F00000000000046#64 := ⟨rfl, rfl, rfl, by decide⟩

/-! ### Well-formedness: one ill-formed term for each check -/

/-- G1's fields. -/
def g1 : GemxFields :=
  { destReg := 0x100, srcAddr := 0x200, findemax := true, accm := false, wScale := false, flagsRsvd := 0, sizePtr := 1,
    shapePtr := 2, parallelLane := 4, rsvd := 0 }

/-- M1's fields. -/
def m1 : MemcpyFields :=
  { fromDevice := true, toDevice := false, destAddr := 0x100, srcAddr := 0, auxAddr := 0, shapePtr := 2, async := false }

/-- M2's fields. -/
def m2 : MemcpyFields :=
  { fromDevice := false, toDevice := true, destAddr := 0x40, srcAddr := 0x100, auxAddr := 0, shapePtr := 2,
    async := false }

/-- S1's fields. -/
def s1 : MemsetFields := { destCache := 0, destAddr := 2, aValue := 2, bValue := 3, cValue := 4, rsvd := 0 }

/-- A CVO instruction without flags. -/
def c (src dst : Addr) (length : BitVec 16) : CvoFields :=
  { srcAddr := src, dstAddr := dst, length := length, subEmax := false, recipScale := false, accm := false,
    flagsRsvd := 0, async := false }

theorem test_wellFormed :
    (Instr.gemv g1).wellFormed = true ∧ (Instr.memcpy m1).wellFormed = true ∧ (Instr.memset s1).wellFormed = true ∧
      (Instr.cvoExp (c 0x100 0x201 8)).wellFormed = true ∧
      (Instr.cvoScale { c 0x200 0x201 8 with recipScale := true }).wellFormed = true := by decide

theorem test_illFormed_gemx :
    (Instr.gemv { g1 with flagsRsvd := 1 }).wellFormed = false ∧ (Instr.gemm { g1 with rsvd := 4 }).wellFormed = false ∧
      (Instr.gemv { g1 with parallelLane := 0 }).wellFormed = false := by decide

theorem test_illFormed_memcpy :
    (Instr.memcpy { m1 with auxAddr := 1 }).wellFormed = false ∧
      (Instr.memcpy { m1 with fromDevice := false }).wellFormed = false ∧
      (Instr.memcpy { m1 with toDevice := true }).wellFormed = false := by decide

theorem test_illFormed_memset :
    (Instr.memset { s1 with rsvd := 8 }).wellFormed = false ∧
      (Instr.memset { s1 with destCache := 2 }).wellFormed = false := by decide

theorem test_illFormed_cvo :
    (Instr.cvoExp { c 0x100 0x200 8 with flagsRsvd := 2 }).wellFormed = false ∧
      (Instr.cvoSqrt (c 0x100 0x200 0)).wellFormed = false ∧
      (Instr.cvoRecip { c 0x200 0x200 1 with recipScale := true }).wellFormed = false := by decide

/-! ### The test configuration and the vector start state -/

/-- A GEMV/GEMM bundle whose four entries are written as the test configuration writes them. -/
def bundle (shape size : Ptr) (a b : Descriptor) : GemxBundle :=
  { shapePtr := shape, fmapAtShape := some a, weightAtShape := some a, sizePtr := size, fmapAtSize := some b,
    weightAtSize := some b }

def vol4 : Descriptor := { a := 1, b := 1, c := 4 }
def vol8 : Descriptor := { a := 1, b := 1, c := 8 }
def vol0 : Descriptor := { a := 0, b := 1, c := 1 }

/-- An extent of the test configuration: it depends on every entry handed over, and has the value 1 where none is listed. -/
def gemxLen (table : List (GemxBundle × Nat)) : GemxExtent :=
  { depends := { fmapAtShape := true, weightAtShape := true, fmapAtSize := true, weightAtSize := true }
    table := table
    otherwise := 1 }

def inLens : GemxExtent :=
  gemxLen [(bundle 2 1 vol8 vol4, 8), (bundle 2 2 vol8 vol8, 8), (bundle 2 3 vol8 vol0, 8)]

def outLens : GemxExtent :=
  gemxLen [(bundle 2 1 vol8 vol4, 4), (bundle 2 2 vol8 vol8, 8), (bundle 2 3 vol8 vol0, 0)]

def copyLens : CopyExtent :=
  { depends := { fmapAtShape := true, weightAtShape := true }
    table :=
      [({ shapePtr := 2, fmapAtShape := some vol8, weightAtShape := some vol8 }, 8),
        ({ shapePtr := 3, fmapAtShape := some vol0, weightAtShape := some vol0 }, 0)]
    otherwise := 1 }

/-- The test configuration, with one queue place an engine and host addresses 0 to 0x47 reachable. -/
def tc : Platform :=
  { axilBase := 0x1000
    busyPolicy := .frontend
    fifoDepthPred := PerEngine.all 0
    gemvInLen := inLens
    gemvOutLen := outLens
    gemmInLen := inLens
    gemmOutLen := outLens
    fromHostLen := copyLens
    toHostLen := copyLens
    hostAddr := [(0, 0), (0x40, 0x40), (0x41, 0x41)]
    hostSpan := [(8, 8), (4, 4)]
    hostSpanOtherwise := 0
    hostWindows := [(0, 0x48)]
    scaleLayout := .vectorAfterScalar }

/-- `a_i`, `b_i` of the vectors. -/
def av (i : Nat) : Elem := ⟨10 + i⟩
def bv (i : Nat) : Elem := ⟨30 + i⟩

/-- The vector start state V0 (95 section 0.2). -/
def v0 : State :=
  { State.reset with
    fmapShape := [(1, vol4), (2, vol8), (3, vol0)]
    weightShape := [(1, vol4), (2, vol8), (3, vol0)]
    l2 := (List.range 8).map (fun i => (0x100 + i, av i)) ++ (List.range 9).map fun i => (0x200 + i, bv i)
    eMax := some ⟨7⟩
    issueOk := true
    platform := tc }

/-- What is seen of the next state, if there is one. -/
def seen {α : Type} (g : State → α) : Result → Option α
  | .next t => some (g t)
  | _ => none

/-- How an outcome stops, if it does. -/
def stop : Result → Option Stop
  | .next _ => none
  | .fault r => some (.fault r)
  | .refused r => some (.refused r)

/-- `v0` running an entry on an engine. -/
def running (e : Engine) (k : Nat) : State :=
  { v0 with nLatched := k, running := v0.running.set e (some { number := k, word := 0, footprint := unknownFootprint }) }

/-! ### Instructions -/

/-- G1: four elements from eight, e_max from the old one; the location after the destination is left alone. -/
theorem test_gemv_findemax :
    let out := fun i => Config.gemvFn ((List.range 8).map bv) (Config.weightStore .gemv g1 (bundle 2 1 vol8 vol4))
      (bundle 2 1 vol8 vol4) false 4 none i
    seen (fun t => (t.readL2 0x103, t.readL2 0x104, t.eMax)) (exec (.gemv g1) v0) =
      some (some (out 3), some (av 4), some (Config.emaxFn .gemv (some ⟨7⟩) [out 0, out 1, out 2, out 3])) := rfl

/-- G9: one location too far. -/
theorem test_gemv_overflow :
    stop (exec (.gemv { g1 with destReg := 0x1FFFD }) v0) = some (.refused .addressRangeOverflow) := by decide

/-- G2 on the Matrix Core: `accm` hands over the old destination; e_max stays. -/
theorem test_gemm_accm :
    let f := { g1 with findemax := false, accm := true }
    seen (fun t => (t.readL2 0x100, t.eMax)) (exec (.gemm f) v0) =
      some (some (Config.gemmFn ((List.range 8).map bv) (Config.weightStore .gemm f (bundle 2 1 vol8 vol4))
        (bundle 2 1 vol8 vol4) false 4 (some ((List.range 4).map av)) 0), some ⟨7⟩) := rfl

/-- G10: an unwritten accumulator is not zero. -/
theorem test_gemm_unwritten_accumulator :
    stop (exec (.gemm { g1 with destReg := 0x300, findemax := false, accm := true }) (running .gemm 5)) =
      some (.fault (.unwrittenRead (.l2 0x300) 5)) := by decide

/-- M1: element 7 of what the host's eight bytes code. -/
theorem test_memcpy_from_host :
    seen (fun t => t.readL2 0x107) (exec (.memcpy m1) v0) =
      some (some (Config.hostDecode 8 ((List.range 8).map Config.hostInitial) 7)) := rfl

/-- M2: the last byte of the range is stored, the next is not. -/
theorem test_memcpy_to_host :
    seen (fun t => (t.readHost 0x47, t.readHost 0x48, t.readL2 0x107)) (exec (.memcpy m2) v0) =
      some (some (Config.hostEncode ((List.range 8).map av) 7), none, some (av 7)) := rfl

/-- S1: one entry of one cache. -/
theorem test_memset :
    seen (fun t => (t.readFmapShape 2, t.readWeightShape 2, t.readFmapShape 1)) (exec (.memset s1) v0) =
      some (some { a := 2, b := 3, c := 4 }, some vol8, some vol4) := by decide

/-- S5: there is no third cache. -/
theorem test_memset_undefined_cache :
    stop (exec (.memset { s1 with destCache := 2 }) v0) = some (.refused .undefinedDestCache) := by decide

/-- C1: e_max is subtracted first; the location before the destination is left alone. -/
theorem test_cvoExp_sub_emax :
    seen (fun t => (t.readL2 0x208, t.readL2 0x200)) (exec (.cvoExp { c 0x100 0x201 8 with subEmax := true }) v0) =
      some (some (Config.cvoExp (Config.cvoSub (av 7) (Config.emaxToElem ⟨7⟩))), some (bv 0)) := rfl

/-- C3: subtract, apply, accumulate. -/
theorem test_cvoExp_accm :
    seen (fun t => t.readL2 0x201) (exec (.cvoExp { c 0x100 0x201 8 with subEmax := true, accm := true }) v0) =
      some (some (Config.cvoAdd (bv 1) (Config.cvoExp (Config.cvoSub (av 0) (Config.emaxToElem ⟨7⟩))))) := rfl

/-- C5: in place. -/
theorem test_cvoSqrt :
    seen (fun t => (t.readL2 0x200, t.readL2 0x201)) (exec (.cvoSqrt (c 0x200 0x200 1)) v0) =
      some (some (Config.cvoSqrt (bv 0)), some (bv 1)) := rfl

/-- C6: locations that held nothing become written. -/
theorem test_cvoGelu :
    seen (fun t => (t.readL2 0x187, t.readL2 0x188)) (exec (.cvoGelu (c 0x100 0x180 8)) v0) =
      some (some (Config.cvoGelu (av 7)), none) := rfl

/-- C7. -/
theorem test_cvoSin :
    seen (fun t => (t.readL2 0x103, t.readL2 0x104)) (exec (.cvoSin (c 0x100 0x100 4)) v0) =
      some (some (Config.cvoSin (av 3)), some (av 4)) := rfl

/-- C8. -/
theorem test_cvoCos :
    seen (fun t => (t.readL2 0x100, t.readL2 0x303)) (exec (.cvoCos (c 0x100 0x300 4)) v0) =
      some (some (av 0), some (Config.cvoCos (av 3))) := rfl

/-- C10: one scalar, accumulated. -/
theorem test_cvoReduceSum :
    seen (fun t => (t.readL2 0x200, t.readL2 0x201)) (exec (.cvoReduceSum { c 0x201 0x200 8 with accm := true }) v0) =
      some (some (Config.cvoAdd (bv 0) (Config.cvoSum ((List.range 8).map fun i => bv (i + 1)))), some (bv 1)) := rfl

/-- C12: the destination inside the input range. -/
theorem test_cvoReduceSum_overlap :
    stop (exec (.cvoReduceSum (c 0x100 0x107 8)) v0) = some (.refused .operandOverlap) := by decide

/-- C14 under `vector_after_scalar`. -/
theorem test_cvoScale :
    seen (fun t => (t.readL2 0x200, t.readL2 0x208)) (exec (.cvoScale { c 0x200 0x201 8 with recipScale := true }) v0) =
      some (some (bv 0), some (Config.cvoMul (bv 8) (Config.cvoRecip (bv 0)))) := rfl

/-- C16 under the other two layouts. -/
theorem test_cvoScale_layouts :
    seen (fun t => t.readL2 0x100)
        (exec (.cvoScale (c 0x200 0x100 8)) { v0 with platform := { tc with scaleLayout := .vectorFromScalar } }) =
      some (some (Config.cvoMul (bv 0) (bv 0))) ∧
    seen (fun t => t.readL2 0x100)
        (exec (.cvoScale (c 0x200 0x100 8)) { v0 with platform := { tc with scaleLayout := .inPlaceDst } }) =
      some (some (Config.cvoMul (av 0) (bv 0))) := ⟨rfl, rfl⟩

/-- C19: accepted, not performed. -/
theorem test_cvoRecip_async :
    seen (fun t => (t.readL2 0x200, t.pendingAsync.map Prod.fst))
      (exec (.cvoRecip { c 0x200 0x200 1 with async := true }) (running .cvo 3)) = some (some (bv 0), [3]) := by decide

/-- C20: the flag belongs to another function. -/
theorem test_cvoRecip_flag :
    stop (exec (.cvoRecip { c 0x200 0x200 1 with recipScale := true }) v0) = some (.refused .flagNotApplicable) := by
  decide

/-- A word placed at reset is what the next step runs (S8). -/
theorem test_withFetchWord :
    seen (fun t => (t.readFmapShape 2, t.readWeightShape 2, t.completed))
      (step (State.reset.withFetchWord 64 0x3020001000100080)) = some (some vol8, none, [1]) := by decide

/-- C25: the front end turns the word away before its function code is looked at. -/
theorem test_withFetchWord_reserved :
    stop (step (State.reset.withFetchWord 64 0x4800000000000042)) = some (.refused .reservedFieldNonzero) ∧
      stop (step (State.reset.withFetchWord 64 0x4800000000000040)) =
        some (.fault (.reservedCvoFunc 0x4800000000000040)) := by decide

/-- A format C word of a reserved function has its micro-op, the whole body (R250); a reserved opcode has none. -/
theorem test_uops_reserved :
    (wordUops 0x4F00000000000046).map (fun u => match u with | .cvo v => v.pack | _ => 0) = [0xF00000000000046] ∧
      wordUops 0x5000000000000000 = [] := by decide

/-- R179: a copy the platform will reject still touches its exact range (byte 0x48 is out of reach). -/
theorem test_footprint_rejected_copy :
    instrFootprint (.memcpy { m2 with destAddr := 0x41 }) v0 =
      { known := true, reads := [.fmapShape 2, .weightShape 2, .l2 0x100 8], writes := [.host 0x41 8] } ∧
    stop (exec (.memcpy { m2 with destAddr := 0x41 }) v0) = some (.fault (.hostMemoryFault .l2ToHost 0x41 8)) := by
  decide

/-- R207: length 1 with the destination behind the scalar is refused under no layout (log 37). -/
theorem test_cvoScale_length_one :
    stop (exec (.cvoScale (c 0x200 0x201 1)) { v0 with platform := { tc with scaleLayout := .vectorFromScalar } }) =
      none := by decide

/-- R65: an extent that does not depend on an entry does not miss it. -/
theorem test_extent_depends :
    let b : CopyBundle := { shapePtr := 2, fmapAtShape := some vol8, weightAtShape := none }
    copyExtent copyLens b = none ∧
      copyExtent { copyLens with depends := { fmapAtShape := true, weightAtShape := false } } b = some 1 := by decide

/-- H3, H6: the high word alone; a write with no BUSY = 0 read before it. -/
theorem test_host_duties :
    stop (step { v0 with script := [.host (.busWrite 0x1004 32 0x30200010)] }) =
        some (.fault (.unwrittenRead .cmdLo 1)) ∧
      stop (step { v0 with issueOk := false, script := [.host (.busWrite 0x1000 32 0x30200010)] }) =
        some (.refused .issuedWithoutBusyClear) := by decide

/-- R285: the place of an agent's step in the schedule is not seen; what the host stored is. -/
theorem test_runs_equivalent :
    let late := { v0 with script := [.host (.memWrite 0 [1]), .dispatch] }
    let early := { v0 with script := [.dispatch, .host (.memWrite 0 [1])] }
    runsEquivalent [(0, 1)] late 2 early 2 = true ∧ (runSteps 1 early).ended = false ∧
      ((runSteps 2 late).observe [(0, 1)]).outputs = [[1]] := by decide

/-! ### Concrete states that meet the hypotheses of the statements -/

/-- `s` with these moves to make. -/
def todo (s : State) (ms : List Move) : State := { s with script := ms }

/-- A latched word waiting for the dispatch step. -/
def latchedWord (w : Word) : State :=
  { v0 with
    latched := some { number := 1, word := w, footprint := footprintOf w v0 }
    nLatched := 1
    issueOk := false
    script := [.dispatch] }

/-- A word at the head of its engine's FIFO, that engine about to step. -/
def queued (e : Engine) (w : Word) (s : State) : State :=
  { s with
    fifo := s.fifo.set e [{ number := 1, word := w, footprint := footprintOf w s }]
    nLatched := 1
    script := [.engine e] }

/-- S1 queued, the low word of C4 written, its high word about to be. -/
def issuing (high : Half) (low : Half) : State :=
  { queued .memset 0x3020002000300040 v0 with cmdLo := some low, script := [.host (.busWrite 0x1004 32 high)] }

/-- An accepted copy of eight elements to the host bytes 0x40 to 0x47. -/
def copying : State :=
  { v0 with
    nLatched := 1
    completed := [1]
    pendingAsync := [(1, { op := .copy .l2ToHost 0x40 0x100 8, footprint := instrFootprint (.memcpy m2) v0 })] }

/-- An accepted CVO_RECIP of one element (C19). -/
def inverting : State :=
  { v0 with
    nLatched := 1
    completed := [1]
    pendingAsync := [(1, { op := .cvo .recip { c 0x200 0x200 1 with async := true }
                           footprint := cvoFootprint .recip (c 0x200 0x200 1) v0 })] }

/-- `v0` with another element at one address. -/
def v0With (a : Nat) : State := { v0 with l2 := cellWrite v0.l2 a ⟨99⟩ }

theorem onlyL2Range_v0With (a b n : Nat) (h : b ≤ a ∧ a < b + n) : OnlyL2Range v0 (v0With a) b n := by
  refine ⟨fun k hk => ?_, rfl⟩
  show cellRead (cellWrite v0.l2 a ⟨99⟩) k = _
  rw [cellRead_cellWrite, if_neg (by rintro rfl; exact hk h)]
  rfl

theorem test_witness_DecodeThenEncode : ∃ i, decode 0x1FFFFFFFFF8FFFF8#64 = .ok i := ⟨_, rfl⟩

theorem test_witness_DecodeRejectsReserved :
    5 ≤ (0x5000000000000000#64).toNat / 2 ^ 60 ∧
      ((0x4800000000000040#64).toNat / 2 ^ 60 = 4 ∧ 8 ≤ (0x4800000000000040#64).toNat / 2 ^ 56 % 16) ∧
      (0x3FFFFFFFFFFFFFFF#64).toNat / 2 ^ 60 < 4 ∧
      ((0x47FFFFFFFFFFFFFF#64).toNat / 2 ^ 60 = 4 ∧ (0x47FFFFFFFFFFFFFF#64).toNat / 2 ^ 56 % 16 < 8) := by decide

theorem test_witness_FormatFieldSlices :
    (∃ f, decode 0x0008000802004220#64 = .ok (.gemv f)) ∧ (∃ f, decode 0x1FFFFFFFFFFFFFFF#64 = .ok (.gemm f)) ∧
      (∃ f, decode 0x27FFFFFFFF00007F#64 = .ok (.memcpy f)) ∧ (∃ f, decode 0x37FFFFFFFFFFFFF0#64 = .ok (.memset f)) ∧
      ∃ f, decode 0x4601000080400239#64 = .ok (cvoInstr .scale f) :=
  ⟨⟨_, rfl⟩, ⟨_, rfl⟩, ⟨_, rfl⟩, ⟨_, rfl⟩, ⟨_, rfl⟩⟩

theorem test_witness_FunctionCodesAndFlagBits :
    (0x4701000080000041#64).toNat / 2 ^ 60 = 4 ∧ (∃ f, decode 0x0008000803804220#64 = .ok (.gemv f)) ∧
      (∃ f, decode 0x1008000803804220#64 = .ok (.gemm f)) ∧ ∃ f, decode 0x4701000080000041#64 = .ok (cvoInstr .recip f) :=
  ⟨by decide, ⟨_, rfl⟩, ⟨_, rfl⟩, ⟨_, rfl⟩⟩

theorem test_witness_ControlMicroOpMembers :
    (∃ f, decode 0x1FFFFFFFFF8FFFF8#64 = .ok (gemxInstr .gemm f)) ∧
      ∃ f, decode 0x2802000000000005#64 = .ok (.memcpy f) := ⟨⟨_, rfl⟩, ⟨_, rfl⟩⟩

theorem test_witness_PackedMicroOpsAreBodySlices :
    (∃ i, decode 0x4601000080400239#64 = .ok i) ∧ (0x4F00000000000046#64).toNat / 2 ^ 60 = 4 ∧
      (∃ f, decode 0x37FFFFFFFFFFFFF0#64 = .ok (.memset f)) ∧
      (∃ f, decode 0x0008000802004220#64 = .ok (gemxInstr .gemv f) ∧
        ∃ u, Uop.mem u ∈ splitUops (gemxInstr .gemv f)) ∧
      ∃ f, decode 0x27FFFFFFFF00007F#64 = .ok (.memcpy f) ∧ ∃ u, Uop.mem u ∈ splitUops (.memcpy f) :=
  ⟨⟨_, rfl⟩, by decide, ⟨_, rfl⟩, ⟨_, rfl, _, .tail _ (.head _)⟩, ⟨_, rfl, _, .head _⟩⟩

/-- H4: a second low write before the latch. -/
theorem test_witness_LowWriteSetsCommandLow :
    let s := todo v0 [.host (.busWrite 0x1000 32 0xDEADBEEF), .host (.busWrite 0x1000 32 0x00100080)]
    Running s ∧ s.issueOk = true ∧ s.script =
      [.host (.busWrite s.platform.axilBase 32 0xDEADBEEF), .host (.busWrite s.platform.axilBase 32 0x00100080)] :=
  ⟨⟨rfl, rfl⟩, rfl, rfl⟩

/-- C4 is latched while S1 is queued: they share no location. -/
theorem noConflict_issuing :
    ∀ x ∈ (issuing 0x40008000 0x40000200).inFlight,
      ¬Footprint.conflicts (footprintOf (0x40008000#32 ++ 0x40000200#32) (issuing 0x40008000 0x40000200)) x.2 := by
  have h1 : (issuing 0x40008000 0x40000200).inFlight =
      [(1, { known := true, reads := [], writes := [.fmapShape 2] })] := by decide
  have h2 : footprintOf (0x40008000#32 ++ 0x40000200#32) (issuing 0x40008000 0x40000200) =
      { known := true, reads := [.l2 0x100 8], writes := [.l2 0x100 8] } := by decide
  intro x hx
  rw [h1, List.mem_singleton] at hx
  subst hx
  rw [h2]
  rintro (h | h | ⟨l, h⟩)
  · cases h
  · cases h
  · cases l <;> simp [Footprint.writesLoc, Footprint.readsLoc, Region.holds] at h

theorem test_witness_HighWriteLatches :
    (let s := issuing 0x40008000 0x40000200
    Running s ∧ s.issueOk = true ∧ s.cmdLo = some 0x40000200#32 ∧
      s.script = [.host (.busWrite (s.platform.axilBase + 4) 32 0x40008000)] ∧
      ∀ x ∈ s.inFlight, ¬Footprint.conflicts (footprintOf (0x40008000#32 ++ 0x40000200#32) s) x.2) ∧
    let s := latchedWord 0x3020002000300040
    s.script = [.dispatch] ∧ dispatchEnabled s = true ∧ ∃ t, step s = .next t :=
  ⟨⟨⟨rfl, rfl⟩, rfl, rfl, rfl, noConflict_issuing⟩, rfl, rfl, _, rfl⟩

/-- The second clause: G1 reads the descriptor that the queued S1 writes. -/
theorem test_witness_LatchChecksConflicts :
    (∀ x ∈ (issuing 0x40008000 0x40000200).inFlight,
      ¬Footprint.conflicts (footprintOf (0x40008000#32 ++ 0x40000200#32) (issuing 0x40008000 0x40000200)) x.2) ∧
    let s := issuing 0x00080008 0x02004220
    Running s ∧ s.issueOk = true ∧ s.cmdLo = some 0x02004220#32 ∧
      s.script = [.host (.busWrite (s.platform.axilBase + 4) 32 0x00080008)] ∧
      ∃ x ∈ s.inFlight, Footprint.conflicts (footprintOf (0x00080008#32 ++ 0x02004220#32) s) x.2 := by
  refine ⟨noConflict_issuing, ⟨rfl, rfl⟩, rfl, rfl, rfl, (1, { known := true, reads := [], writes := [.fmapShape 2] }),
    by decide, .inr (.inr ⟨.fmapShape 2, .inr ⟨⟨.fmapShape 2, by decide, rfl⟩, ⟨.fmapShape 2, by decide, rfl⟩⟩⟩)⟩

theorem test_witness_IssueDutiesChecked :
    (let s := todo { v0 with issueOk := false } [.host (.busWrite 0x1000 32 5)]
    Running s ∧ s.issueOk = false ∧ s.script = [.host (.busWrite s.platform.axilBase 32 5)]) ∧
    (let s := todo { v0 with issueOk := false } [.host (.busWrite 0x1004 32 5)]
    Running s ∧ s.issueOk = false ∧ s.script = [.host (.busWrite (s.platform.axilBase + 4) 32 5)]) ∧
    let s := todo v0 [.host (.busWrite 0x1004 32 5)]
    Running s ∧ s.issueOk = true ∧ s.cmdLo = none ∧
      s.script = [.host (.busWrite (s.platform.axilBase + 4) 32 5)] :=
  ⟨⟨⟨rfl, rfl⟩, rfl, rfl⟩, ⟨⟨rfl, rfl⟩, rfl, rfl⟩, ⟨rfl, rfl⟩, rfl, rfl, rfl⟩

/-- H10: a write to the status register, a narrow write, a read of the low word. -/
theorem test_witness_OtherAccessesRefused :
    Running (todo v0 [.host (.busWrite 0x1008 32 5)]) ∧
      ¬(32 = 32 ∧ (0x1008 = v0.platform.axilBase ∨ 0x1008 = v0.platform.axilBase + 4)) ∧
      ¬(16 = 32 ∧ (0x1000 = v0.platform.axilBase ∨ 0x1000 = v0.platform.axilBase + 4)) ∧
      ¬(32 = 32 ∧ 0x1000 = v0.platform.axilBase + 8) := ⟨⟨rfl, rfl⟩, by decide, by decide, by decide⟩

theorem test_witness_StatusReadChangesNothing :
    let s := todo v0 [.host (.busRead 0x1008 32)]
    Running s ∧ s.script = [.host (.busRead (s.platform.axilBase + 8) 32)] := ⟨⟨rfl, rfl⟩, rfl⟩

theorem test_witness_BusyAndDone :
    (latchedWord 0x3020002000300040).latched ≠ none ∧ v0.inFlight = [] ∧
    (copying.latched = none ∧ copying.inFlight ≠ [] ∧ copying.platform.busyPolicy = .frontend ∧ copying.nLatched ≠ 0) ∧
    let s := { copying with platform := { tc with busyPolicy := .quiescent } }
    s.latched = none ∧ s.inFlight ≠ [] ∧ s.platform.busyPolicy = .quiescent ∧
    (v0.recordFault (.unwrittenRead .cmdLo 1)).faults ≠ [] := by decide

theorem inFlight_copying : copying.inFlight =
    [(1, { known := true, reads := [.fmapShape 2, .weightShape 2, .l2 0x100 8], writes := [.host 0x40 8] })] := by decide

/-- The last byte a pending copy writes, and the first it does not. -/
theorem test_witness_HostMemoryAccess :
    (∀ x ∈ copying.inFlight, ¬Footprint.conflicts (hostWriteFootprint 0x48 [1#8].length) x.2) ∧
    (∃ x ∈ copying.inFlight, Footprint.conflicts (hostWriteFootprint 0x47 [1#8].length) x.2) ∧
    (∀ x ∈ copying.inFlight, ¬Footprint.conflicts (hostReadFootprint 0x48 1) x.2) ∧
    (∃ x ∈ copying.inFlight, Footprint.conflicts (hostReadFootprint 0x47 1) x.2) ∧
    Running (todo copying [.host (.memWrite 0x48 [1#8])]) ∧ Running (todo copying [.host (.memRead 0x48 1)]) := by
  rw [inFlight_copying]
  refine ⟨?_, ⟨_, List.mem_singleton.mpr rfl, .inr (.inr ⟨.host 0x47, .inl ⟨⟨.host 0x47 1, by decide, by decide, by decide⟩,
    .inr ⟨.host 0x40 8, by decide, by decide, by decide⟩⟩⟩)⟩, ?_,
    ⟨_, List.mem_singleton.mpr rfl, .inr (.inr ⟨.host 0x47, .inr ⟨⟨.host 0x47 1, by decide, by decide, by decide⟩,
    ⟨.host 0x40 8, by decide, by decide, by decide⟩⟩⟩)⟩, ⟨rfl, rfl⟩, ⟨rfl, rfl⟩⟩
  all_goals
    intro x hx
    rw [List.mem_singleton] at hx
    subst hx
    rintro (h | h | ⟨l, h⟩)
    · cases h
    · cases h
    · cases l <;> simp [Footprint.writesLoc, Footprint.readsLoc, hostWriteFootprint, hostReadFootprint, Region.holds] at h
      try omega

theorem latchedWord_waits (w : Word) : Running (latchedWord w) ∧ (latchedWord w).script = [.dispatch] :=
  ⟨⟨rfl, rfl⟩, rfl⟩

/-- One word for each FIFO (2.8), each queue with its one place free. -/
theorem test_witness_OpcodeToFifo :
    (dispatchCheck 0x0008000802004220 = .ok () ∧ (0x0008000802004220#64).toNat / 2 ^ 60 = 0) ∧
    (dispatchCheck 0x1008000802004220 = .ok () ∧ (0x1008000802004220#64).toNat / 2 ^ 60 = 1) ∧
    (dispatchCheck 0x2802000000000004 = .ok () ∧ (0x2802000000000004#64).toNat / 2 ^ 60 = 2) ∧
    (dispatchCheck 0x3020002000300040 = .ok () ∧ (0x3020002000300040#64).toNat / 2 ^ 60 = 3) ∧
    (dispatchCheck 0x4800000000000040 = .ok () ∧ (0x4800000000000040#64).toNat / 2 ^ 60 = 4) ∧
    ∀ w e, ((latchedWord w).fifo.get e).length < fifoDepth (latchedWord w).platform e :=
  ⟨⟨rfl, by decide⟩, ⟨rfl, by decide⟩, ⟨rfl, by decide⟩, ⟨rfl, by decide⟩, ⟨rfl, by decide⟩,
    fun _ e => by cases e <;> exact Nat.one_pos⟩

theorem test_witness_DispatchAccepts :
    (∃ i, decode 0x0008000802004220#64 = .ok i ∧ i.wellFormed = true) ∧
      (0x4F00000000000040#64).toNat / 2 ^ 60 = 4 ∧ 0x4F00000000000040#64 &&& 0x6#64 = 0#64 :=
  ⟨⟨_, rfl, rfl⟩, by decide, by decide⟩

/-- H9, G18, G16, M11, M9, S7, S5, C25. -/
theorem test_witness_DispatchRefusals :
    5 ≤ (0x5000000000000000#64).toNat / 2 ^ 60 ∧
    (dispatchEnabled (latchedWord 0x0008000802004221) = true ∧ 0x0008000802004221#64 &&& 0x700007#64 ≠ 0#64) ∧
    (dispatchEnabled (latchedWord 0) = true ∧ 0#64 &&& 0x700007#64 = 0#64 ∧ (0#64).toNat / 2 ^ 3 % 2 ^ 5 = 0) ∧
    (dispatchEnabled (latchedWord 0x2802000000000084) = true ∧ 0x2802000000000084#64 &&& 0xFFFF80#64 ≠ 0#64) ∧
    (dispatchEnabled (latchedWord 0x2002000000000004) = true ∧ 0x2002000000000004#64 &&& 0xFFFF80#64 = 0#64 ∧
      (0x2002000000000004#64).toNat.testBit 59 = (0x2002000000000004#64).toNat.testBit 58) ∧
    (dispatchEnabled (latchedWord 0x3020001000100081) = true ∧ 0x3020001000100081#64 &&& 0xF#64 ≠ 0#64) ∧
    (dispatchEnabled (latchedWord 0x3820001000100080) = true ∧ 0x3820001000100080#64 &&& 0xF#64 = 0#64 ∧
      2 ≤ (0x3820001000100080#64).toNat / 2 ^ 58 % 2 ^ 2) ∧
    (dispatchEnabled (latchedWord 0x4800000000000002) = true ∧ 0x4800000000000002#64 &&& 0x6#64 ≠ 0#64) :=
  ⟨by decide, ⟨rfl, by decide⟩, ⟨rfl, by decide⟩, ⟨rfl, by decide⟩, ⟨rfl, by decide⟩, ⟨rfl, by decide⟩, ⟨rfl, by decide⟩,
    ⟨rfl, by decide⟩⟩

theorem test_witness_FullFifoHoldsTheWord :
    let s := { latchedWord 0x3020002000300040 with fifo := (queued .memset 0x3020002000300040 v0).fifo }
    Running s ∧ s.script = [.dispatch] ∧ (s.latched.map fun en => engineOfOpcode (opcodeOf en.word)) = some (some .memset) ∧
      fifoDepth s.platform .memset ≤ (s.fifo.get .memset).length := by
  unfold Running; decide

theorem test_witness_FifoDiscipline :
    (∃ t, step (latchedWord 0x3020002000300040) = .next t) ∧ ∃ t, step (queued .memset 0x3020002000300040 v0) = .next t :=
  ⟨⟨_, rfl⟩, ⟨_, rfl⟩⟩

theorem test_witness_StepRunsDecodedInstruction :
    let s := queued .memset 0x3020002000300040 v0
    Running s ∧ s.script = [.engine .memset] ∧ s.running.get .memset = none ∧
      ∃ en i, s.fifo.get .memset = [en] ∧ decode en.word = .ok i := ⟨⟨rfl, rfl⟩, rfl, rfl, _, _, rfl, rfl⟩

theorem test_witness_ReservedCvoFunctionFaults :
    let s := queued .cvo 0x4800000000000040 v0
    Running s ∧ s.script = [.engine .cvo] ∧ s.running.cvo = none ∧ s.fifo.cvo.length = 1 ∧
      (0x4800000000000040#64).toNat / 2 ^ 60 = 4 ∧ 8 ≤ (0x4800000000000040#64).toNat / 2 ^ 56 % 16 := by
  unfold Running; decide

theorem test_witness_MemsetResult :
    (s1.rsvd = 0#4 ∧ s1.destCache = 0#2) ∧ ({ s1 with destCache := 1 } : MemsetFields).destCache = 1#2 := by decide

/-- G4 and G8: every flag set; the last four locations. -/
theorem test_witness_MultiplyResult :
    (let f := { g1 with accm := true, wScale := true }
    GemxReady .gemm f v0 8 4 ∧ L2Holds v0 f.srcAddr.toNat 8 bv ∧ (f.accm = true → L2Holds v0 f.destReg.toNat 4 av)) ∧
    let f := { g1 with destReg := 0x1FFFC }
    GemxReady .gemv f v0 8 4 ∧ L2Holds v0 f.srcAddr.toNat 8 bv ∧ (f.accm = true → L2Holds v0 f.destReg.toNat 4 av) := by
  unfold GemxReady L2Holds Apart; decide

/-- G2, and a destination whose third location is empty. -/
theorem test_witness_MultiplyAccumulate :
    (let f := { g1 with accm := true }
    f.accm = true ∧ GemxReady .gemv f v0 8 4 ∧ L2Holds v0 f.srcAddr.toNat 8 bv ∧ L2Holds v0 f.destReg.toNat 4 av) ∧
    (let f := { g1 with accm := true, destReg := 0x106 }
    f.accm = true ∧ GemxReady .gemv f v0 8 4 ∧ L2Holds v0 f.srcAddr.toNat 8 bv ∧
      (0x106 ≤ 0x108 ∧ 0x108 < 0x106 + 4 ∧ v0.readL2 0x108 = none ∧ v0.readL2 0x106 ≠ none ∧ v0.readL2 0x107 ≠ none)) ∧
    (g1.accm = false ∧ GemxReady .gemv g1 v0 8 4 ∧ L2Holds v0 g1.srcAddr.toNat 8 bv) ∧
    OnlyL2Range v0 (v0With 0x103) g1.destReg.toNat 4 := by
  refine ⟨?_, ?_, ?_, onlyL2Range_v0With _ _ _ (by decide)⟩ <;> (unfold GemxReady L2Holds Apart; decide)

/-- `a` is the first empty location of the operand, as `FirstEmpty` says it. -/
theorem firstEmpty_v0 {b n a : Nat} (h : b ≤ a ∧ a < b + n ∧ v0.readL2 a = none ∧
    ∀ j, j < a - b → v0.readL2 (b + j) ≠ none) : FirstEmpty v0 b n a :=
  ⟨h.1, h.2.1, h.2.2.1, fun k hk hka => by
    have := h.2.2.2 (k - b) (by omega)
    rwa [show b + (k - b) = k by omega] at this⟩

/-- G12, G13, G9, an overlap of one location, an input whose last location is empty. -/
theorem test_witness_MultiplyStops :
    (g1.flagsRsvd = 0#3 ∧ g1.rsvd = 0#3 ∧ g1.parallelLane ≠ 0#5) ∧
    gemxOutLen .gemv { g1 with sizePtr := 7 } v0 = none ∧ gemxInLen .gemv { g1 with shapePtr := 7 } v0 = none ∧
    (gemxInLen .gemv { g1 with sizePtr := 3 } v0 = some 8 ∧ gemxOutLen .gemv { g1 with sizePtr := 3 } v0 = some 0) ∧
    (gemxInLen .gemv g1 v0 = some 8 ∧ gemxOutLen .gemv g1 v0 = some 4) ∧
    l2Size < (0x1FFFD#17).toNat + 4 ∧ l2Size < (0x1FFF9#17).toNat + 8 ∧
    (¬Apart (0x200#17).toNat 8 (0x207#17).toNat 4 ∧ Apart (0x200#17).toNat 8 (0x208#17).toNat 4) ∧
    FirstEmpty v0 (0x202#17).toNat 8 0x209 := by
  refine ⟨by decide, by decide, by decide, by decide, by decide, by decide, by decide, ?_, firstEmpty_v0 (by decide)⟩
  unfold Apart; decide

/-- M7: the last eight locations. -/
theorem test_witness_CopyFromHostResult :
    let f := { m1 with destAddr := 0x1FFF8 }
    MemcpyReady .hostToL2 f v0 8 ∧ f.async = false ∧ hostRange v0.platform f.srcAddr 8 = some (0, 8) := by
  unfold MemcpyReady; decide

/-- M2: the last eight bytes of the window. -/
theorem test_witness_CopyToHostResult :
    MemcpyReady .l2ToHost m2 v0 8 ∧ m2.async = false ∧ L2Holds v0 m2.srcAddr.toNat 8 av ∧
      hostRange v0.platform m2.destAddr 8 = some (0x40, 8) := by
  unfold MemcpyReady L2Holds; decide

theorem test_witness_CopyAccepted :
    let f := { m1 with async := true }
    MemcpyReady .hostToL2 f (running .mem 5) 8 ∧ f.async = true ∧ (running .mem 5).running.mem.isSome = true := by
  unfold MemcpyReady; decide

/-- M5, M6, overflow by one on each route, a range one byte past the window, an operand whose last location is empty. -/
theorem test_witness_CopyFootprint :
    (copyRoute m1 = some .hostToL2 ∧ copyLen .hostToL2 m1 v0 = some 8 ∧
      v0.platform.hostAddr.lookup m1.srcAddr = some 0) ∧
    let f := { m2 with destAddr := 0x41 }
    copyRoute f = some .l2ToHost ∧ copyLen .l2ToHost f v0 = some 8 ∧
      v0.platform.hostAddr.lookup f.destAddr = some 0x41 := by decide

theorem test_witness_CopyStops :
    (m1.auxAddr = 0#17 ∧ copyRoute m1 = some .hostToL2 ∧ copyRoute m2 = some .l2ToHost) ∧
    copyLen .hostToL2 { m1 with shapePtr := 9 } v0 = none ∧ copyLen .hostToL2 { m1 with shapePtr := 3 } v0 = some 0 ∧
    (copyLen .hostToL2 m1 v0 = some 8 ∧ copyLen .l2ToHost m2 v0 = some 8) ∧ l2Size < (0x1FFF9#17).toNat + 8 ∧
    (m1.destAddr.toNat + 8 ≤ l2Size ∧ hostRange v0.platform 0x41 8 = none) ∧
    (m2.srcAddr.toNat + 8 ≤ l2Size ∧ FirstEmpty v0 (0x101#17).toNat 8 0x108) ∧ L2Holds v0 m2.srcAddr.toNat 8 av := by
  refine ⟨by decide, by decide, by decide, by decide, by decide, by decide, ⟨by decide, firstEmpty_v0 (by decide)⟩, ?_⟩
  unfold L2Holds; decide

/-- C3. -/
theorem test_witness_ElementwiseResult :
    let f := { c 0x100 0x201 8 with subEmax := true, accm := true }
    (∃ g, cvoUnary .exp = some g) ∧ CvoReady .exp f v0 ∧ f.async = false ∧ L2Holds v0 f.srcAddr.toNat 8 av ∧
      v0.eMax = some ⟨7⟩ ∧ L2Holds v0 f.dstAddr.toNat 8 fun i => bv (i + 1) := by
  refine ⟨⟨_, rfl⟩, ?_⟩
  unfold CvoReady CvoRangesOk Apart L2Holds; decide

/-- C10, and C13: the first location after the range. -/
theorem test_witness_ReduceSumResult :
    (let f := { c 0x201 0x200 8 with accm := true, subEmax := true }
    CvoReady .reduceSum f v0 ∧ f.async = false ∧ (L2Holds v0 f.srcAddr.toNat 8 fun i => bv (i + 1)) ∧
      v0.eMax = some ⟨7⟩ ∧ v0.readL2 f.dstAddr.toNat = some (bv 0)) ∧
    let f := c 0x100 0x108 8
    CvoReady .reduceSum f v0 ∧ f.async = false ∧ L2Holds v0 f.srcAddr.toNat 8 av := by
  unfold CvoReady CvoRangesOk Apart L2Holds; decide

/-- C17 with every flag. -/
theorem test_witness_ScaleResult :
    let f := { c 0x200 0x201 8 with subEmax := true, recipScale := true, accm := true }
    CvoReady .scale f v0 ∧ f.async = false ∧ v0.readL2 f.srcAddr.toNat = some (bv 0) ∧
      (L2Holds v0 (f.srcAddr.toNat + 1) 8 fun i => bv (i + 1)) ∧ v0.platform.scaleLayout = .vectorAfterScalar ∧
      v0.eMax = some ⟨7⟩ ∧ L2Holds v0 f.dstAddr.toNat 8 fun i => bv (i + 1) := by
  unfold CvoReady CvoRangesOk Apart L2Holds; decide

/-- C10; an output whose fifth location is empty; an output of another content. -/
theorem test_witness_CvoAccumulate :
    (let f := { c 0x201 0x200 8 with accm := true }
    f.accm = true ∧ f.async = false ∧ (∃ u, exec (cvoInstr .reduceSum { f with accm := false }) v0 = .next u) ∧
      L2Holds v0 f.dstAddr.toNat 1 bv) ∧
    (let f := { c 0x200 0x104 8 with accm := true }
    f.accm = true ∧ f.async = false ∧ (∃ u, exec (cvoInstr .gelu { f with accm := false }) v0 = .next u) ∧
      FirstEmpty v0 f.dstAddr.toNat 8 0x108) ∧
    let f := c 0x100 0x200 8
    f.accm = false ∧ f.async = false ∧ Apart (cvoVectorBase .exp f v0) 8 f.dstAddr.toNat (cvoOutLen .exp f) ∧
      OnlyL2Range v0 (v0With 0x207) f.dstAddr.toNat (cvoOutLen .exp f) ∧ ∃ t, exec (cvoInstr .exp f) v0 = .next t := by
  refine ⟨⟨rfl, rfl, ⟨_, rfl⟩, by unfold L2Holds; decide⟩, ⟨rfl, rfl, ⟨_, rfl⟩, firstEmpty_v0 (by decide)⟩, rfl, rfl,
    by unfold Apart; decide, onlyL2Range_v0With _ _ _ (by decide), ⟨_, rfl⟩⟩

theorem test_witness_CvoAccepted :
    let f := { c 0x200 0x201 8 with async := true, recipScale := true }
    CvoReady .scale f (running .cvo 5) ∧ f.async = true ∧ (running .cvo 5).running.cvo.isSome = true := by
  unfold CvoReady CvoRangesOk Apart; decide

/-- C21, C27, C30, C33, C28, C12, an empty scalar, a vector and an input whose last location is empty, no e_max. -/
theorem test_witness_CvoStops :
    (CvoFunc.exp ≠ .scale ∧ (c 0x100 0x200 0).length = 0#16) ∧
    l2Size < cvoVectorBase .exp (c 0x1FFFF 0 2) v0 + 2 ∧
    l2Size < (c 0 0x10002 65535).dstAddr.toNat + cvoOutLen .recip (c 0 0x10002 65535) ∧
    ¬CvoRangesOk .exp (c 0x100 0x104 8) v0 ∧ ¬CvoRangesOk .reduceSum (c 0x100 0x107 8) v0 ∧
    (CvoReady .scale (c 0x300 0x400 4) v0 ∧ v0.readL2 0x300 = none) ∧
    (CvoReady .scale (c 0x205 0x300 4) v0 ∧ v0.readL2 0x205 ≠ none ∧
      FirstEmpty v0 (cvoVectorBase .scale (c 0x205 0x300 4) v0) 4 0x209) ∧
    (CvoReady .exp (c 0x101 0x300 8) v0 ∧ FirstEmpty v0 (cvoVectorBase .exp (c 0x101 0x300 8) v0) 8 0x108) ∧
    let s := { v0 with eMax := none }
    let f := { c 0x100 0x201 8 with subEmax := true }
    CvoReady .exp f s ∧ f.async = false ∧ L2Holds s (cvoVectorBase .exp f s) 8 av ∧ f.subEmax = true ∧ s.eMax = none := by
  refine ⟨by decide, by decide, by decide, ?_, ?_, ?_, ⟨?_, by decide, firstEmpty_v0 (by decide)⟩,
    ⟨?_, firstEmpty_v0 (by decide)⟩, ?_⟩
  · unfold CvoRangesOk Apart; decide
  · unfold CvoRangesOk Apart; decide
  · unfold CvoReady CvoRangesOk Apart; decide
  · unfold CvoReady CvoRangesOk Apart; decide
  · unfold CvoReady CvoRangesOk Apart; decide
  · unfold CvoReady CvoRangesOk Apart L2Holds; decide

/-- A pending operation that completes and one whose operand is empty, of each kind. -/
theorem test_witness_AsyncPerformsTheEffect :
    (let f := { c 0x200 0x200 1 with async := true }
    let s := todo inverting [.performAsync 1]
    let en : Entry := { number := 1, word := 0, footprint := unknownFootprint }
    Running s ∧ (cellRead s.pendingAsync 1).map Pending.op = some (.cvo .recip f) ∧
      (∃ u, exec (cvoInstr .recip { f with async := false })
        { s with script := [], running := s.running.set .cvo (some en) } = .next u) ∧
      let e := { s with l2 := [] }
      Running e ∧ exec (cvoInstr .recip { f with async := false })
        { e with script := [], running := e.running.set .cvo (some en) } = .fault (.unwrittenRead (.l2 0x200) 1)) ∧
    let s := todo copying [.performAsync 1]
    let en : Entry := { number := 1, word := 0, footprint := unknownFootprint }
    Running s ∧ (cellRead s.pendingAsync 1).map Pending.op = some (.copy .l2ToHost m2.destAddr m2.srcAddr 8) ∧
      copyRoute m2 = some .l2ToHost ∧ copyLen .l2ToHost m2 s = some 8 ∧
      (∃ u, exec (.memcpy { m2 with async := false })
        { s with script := [], running := s.running.set .mem (some en) } = .next u) ∧
      let e := { s with l2 := [] }
      Running e ∧ copyLen .l2ToHost m2 e = some 8 ∧ exec (.memcpy { m2 with async := false })
        { e with script := [], running := e.running.set .mem (some en) } = .fault (.unwrittenRead (.l2 0x100) 1) :=
  ⟨⟨⟨rfl, rfl⟩, rfl, ⟨_, rfl⟩, ⟨rfl, rfl⟩, rfl⟩, ⟨rfl, rfl⟩, rfl, rfl, rfl, ⟨_, rfl⟩, ⟨rfl, rfl⟩, rfl, rfl⟩

/-- G1 from V0n: the first e_max. -/
theorem test_witness_EmaxWrittenOnlyByFindemax :
    ∃ t, step (queued .gemv 0x0008000802004220 { v0 with eMax := none }) = .next t ∧ t.eMax ≠ none :=
  ⟨_, rfl, Option.some_ne_none _⟩

/-- S1 and S3. -/
theorem test_witness_DescriptorsWrittenOnlyByMemset :
    (∃ t, step (queued .memset 0x3020002000300040 v0) = .next t ∧ t.readFmapShape 2 ≠ v0.readFmapShape 2) ∧
      ∃ t, step (queued .memset 0x37FFFFFFFFFFFFF0 v0) = .next t ∧ t.readWeightShape 63 ≠ v0.readWeightShape 63 :=
  ⟨⟨_, rfl, by decide⟩, ⟨_, rfl, by decide⟩⟩

/-- The host's own store, M2, and a pending copy. -/
theorem test_witness_HostWrittenOnlyByCopyOrHost :
    (∃ t, step (todo v0 [.host (.memWrite 0x47 [1#8])]) = .next t ∧ t.readHost 0x47 ≠ v0.readHost 0x47) ∧
      (∃ t, step (queued .mem 0x2400800100000004 v0) = .next t ∧ t.readHost 0x47 ≠ v0.readHost 0x47) ∧
      ∃ t, step (todo copying [.performAsync 1]) = .next t ∧ t.readHost 0x40 ≠ copying.readHost 0x40 :=
  ⟨⟨_, rfl, by decide⟩, ⟨_, rfl, Option.some_ne_none _⟩, ⟨_, rfl, Option.some_ne_none _⟩⟩

theorem test_witness_FrameByFootprint :
    (∃ t, exec (.memset s1) v0 = .next t) ∧ instrIsAsync (.memset s1) = false ∧
      ¬(instrFootprint (.memset s1) v0).writesLoc (.fmapShape 3) ∧
      (∃ t, exec (.memcpy { m1 with async := true }) v0 = .next t) ∧ instrIsAsync (.memcpy { m1 with async := true }) = true := by
  refine ⟨⟨_, rfl⟩, rfl, ?_, ⟨_, rfl⟩, rfl⟩
  rintro ⟨r, hr, h⟩
  rw [show (instrFootprint (.memset s1) v0).writes = [.fmapShape 2] from rfl, List.mem_singleton] at hr
  subst hr
  simp [Region.holds] at h

/-- C4 in two states that differ just after its operand. -/
theorem test_witness_ReadsOnlyItsFootprint :
    let i := Instr.cvoExp (c 0x100 0x100 8)
    instrIsAsync i = false ∧ (v0With 0x108).platform = v0.platform ∧
      (∀ l, (instrFootprint i v0).readsLoc l → sameAt v0 (v0With 0x108) l) ∧ ∃ t, exec i v0 = .next t := by
  refine ⟨rfl, rfl, ?_, _, rfl⟩
  rintro l ⟨r, hr, h⟩
  rw [show (instrFootprint (.cvoExp (c 0x100 0x100 8)) v0).reads = [.l2 0x100 8] from rfl, List.mem_singleton] at hr
  subst hr
  cases l with
  | l2 a => exact (onlyL2Range_v0With 0x108 0x108 1 (by decide)).1 a (by simp only [Region.holds] at h; omega)
  | _ => simp [Region.holds] at h

/-- S1 latched behind the accepted copy. -/
def twoInFlight : State :=
  { copying with
    latched := some { number := 2, word := 0x3010002000300040, footprint := footprintOf 0x3010002000300040 v0 }
    nLatched := 2
    issueOk := false }

theorem queueInv_twoInFlight : QueueInv twoInFlight := by
  refine ⟨by decide, fun e => by cases e <;> rfl, fun e => by cases e <;> decide, fun e => by cases e <;> decide, ?_,
    by decide, by decide, by decide, by decide⟩
  intro en hen
  cases hen
  rfl

theorem raceFree_twoInFlight : RaceFree twoInFlight := by
  have h : twoInFlight.inFlight =
      [(2, { known := true, reads := [], writes := [.fmapShape 1] }),
        (1, { known := true, reads := [.fmapShape 2, .weightShape 2, .l2 0x100 8], writes := [.host 0x40 8] })] := by decide
  unfold RaceFree
  rw [h]
  simp only [List.pairwise_cons, List.mem_singleton, forall_eq, List.not_mem_nil, false_imp_iff, implies_true,
    List.Pairwise.nil, and_true]
  rintro (h | h | ⟨l, h⟩)
  · cases h
  · cases h
  · cases l <;> simp [Footprint.writesLoc, Footprint.readsLoc, Region.holds] at h
    obtain ⟨rfl, h⟩ := h
    revert h
    decide

theorem memoryInv_twoInFlight : MemoryInv twoInFlight := ⟨by decide, by intro p hp; simp [twoInFlight, copying] at hp; subst hp; trivial⟩

theorem test_witness_StepKeepsRaceFreedom :
    QueueInv twoInFlight ∧ RaceFree twoInFlight ∧ ∃ t, step twoInFlight = .next t :=
  ⟨queueInv_twoInFlight, raceFree_twoInFlight, _, rfl⟩

theorem test_witness_StepKeepsMemoryInv : MemoryInv twoInFlight ∧ ∃ t, step twoInFlight = .next t :=
  ⟨memoryInv_twoInFlight, _, rfl⟩

theorem test_witness_StepKeepsQueueInv : QueueInv twoInFlight ∧ ∃ t, step twoInFlight = .next t :=
  ⟨queueInv_twoInFlight, _, rfl⟩

/-- S1, issued from the quiescent V0. -/
theorem test_witness_SerialIssueRunsTheInstruction :
    let s := todo v0 [.host (.busWrite 0x1000 32 0x00300040), .host (.busWrite 0x1004 32 0x30200020), .dispatch,
      .engine .memset]
    let w := 0x3020002000300040#64
    Running s ∧ s.quiescent = true ∧ s.issueOk = true ∧ (∃ i, decode w = .ok i ∧ i.wellFormed = true) ∧
      engineOfOpcode (opcodeOf w) = some .memset ∧
      s.script =
        [.host (.busWrite s.platform.axilBase 32 (w.extractLsb' 0 32)),
          .host (.busWrite (s.platform.axilBase + 4) 32 (w.extractLsb' 32 32)), .dispatch, .engine .memset] :=
  ⟨⟨rfl, rfl⟩, rfl, rfl, ⟨_, rfl, rfl⟩, rfl, rfl⟩

theorem queueInv_v0 : QueueInv v0 :=
  ⟨by decide, fun e => by cases e <;> rfl, fun e => by cases e <;> decide, fun e => by cases e <;> decide,
    fun _ h => (by cases h), by decide, by decide, by decide, by decide⟩

theorem test_witness_DrainRunsDry :
    (QueueInv v0 ∧ v0.script = [] ∧ v0.quiescent = true ∧ ∃ t, step v0 = .next t) ∧
      QueueInv twoInFlight ∧ twoInFlight.script = [] ∧ twoInFlight.quiescent = false ∧ ∃ t, step twoInFlight = .next t :=
  ⟨⟨queueInv_v0, rfl, rfl, _, rfl⟩, queueInv_twoInFlight, rfl, rfl, _, rfl⟩

theorem test_witness_StepKeepsRecords : ∃ t, step twoInFlight = .next t := ⟨_, rfl⟩

/-- H3: a latch without a low word. H6: a low word without the status read. -/
theorem test_witness_RecordedStopEndsTheRun :
    (let s := todo v0 [.host (.busWrite 0x1004 32 5)]
    Running s ∧ step s = .fault (.unwrittenRead .cmdLo 1)) ∧
    let s := todo { v0 with issueOk := false } [.host (.busWrite 0x1000 32 5)]
    Running s ∧ step s = .refused .issuedWithoutBusyClear := ⟨⟨⟨rfl, rfl⟩, rfl⟩, ⟨rfl, rfl⟩, rfl⟩

/-- One stop of each agent: H9; a reserved CVO function; a pending copy of empty locations; G1 behind a MEMSET that writes
its descriptor. The engine and the asynchronous agent are named by the drain, the script being empty. -/
theorem test_witness_StoppedInstructionIsInFlightNoMore :
    QueueInv v0 ∧
    (Running (latchedWord 0x5000000000000000) ∧ (∀ t, step (latchedWord 0x5000000000000000) ≠ .next t) ∧
      nextMove (latchedWord 0x5000000000000000) = some .dispatch) ∧
    (Running (todo (queued .cvo 0x4800000000000040 v0) []) ∧
      (∀ t, step (todo (queued .cvo 0x4800000000000040 v0) []) ≠ .next t) ∧
      nextMove (todo (queued .cvo 0x4800000000000040 v0) []) = some (.engine .cvo)) ∧
    (Running { copying with l2 := [], script := [] } ∧ (∀ t, step { copying with l2 := [], script := [] } ≠ .next t) ∧
      nextMove { copying with l2 := [], script := [] } = some (.performAsync 1)) ∧
    Running (issuing 0x00080008 0x02004220) ∧
      nextMove (issuing 0x00080008 0x02004220) = some (.host (.busWrite 0x1004 32 0x00080008)) ∧
      step (issuing 0x00080008 0x02004220) = .fault (.inFlightConflict (.instr 2) 1 (some (.fmapShape 2))) :=
  ⟨queueInv_v0, ⟨⟨rfl, rfl⟩, fun _ h => (nomatch h), rfl⟩, ⟨⟨rfl, rfl⟩, fun _ h => (nomatch h), rfl⟩,
    ⟨⟨rfl, rfl⟩, fun _ h => (nomatch h), rfl⟩, ⟨rfl, rfl⟩, rfl, rfl⟩

/-- A status read, and a step that is none. -/
theorem test_witness_StatusValuesReadGrowOnlyByStatusReads :
    (let s := todo v0 [.host (.busRead 0x1008 32)]
    (∃ t, step s = .next t) ∧ ∃ rest, s.script = .host (.busRead (s.platform.axilBase + 8) 32) :: rest) ∧
    (∃ t, step twoInFlight = .next t) ∧ twoInFlight.script = [] := ⟨⟨⟨_, rfl⟩, _, rfl⟩, ⟨_, rfl⟩, rfl⟩

/-- Two states that differ in an entry the extent does not depend on, and only there. -/
theorem test_witness_ExtentsDependOnDeclaredEntries :
    let e := { copyLens with depends := { fmapAtShape := true, weightAtShape := false } }
    let s := v0.writeWeightShape 2 vol4
    (e.depends.fmapAtShape = true → s.readFmapShape m1.shapePtr = v0.readFmapShape m1.shapePtr) ∧
      (e.depends.weightAtShape = true → s.readWeightShape m1.shapePtr = v0.readWeightShape m1.shapePtr) ∧
      s.readWeightShape m1.shapePtr ≠ v0.readWeightShape m1.shapePtr ∧
    let g := { inLens with depends := { inLens.depends with weightAtShape := false } }
    (g.depends.fmapAtShape = true → s.readFmapShape g1.shapePtr = v0.readFmapShape g1.shapePtr) ∧
      (g.depends.weightAtShape = true → s.readWeightShape g1.shapePtr = v0.readWeightShape g1.shapePtr) ∧
      (g.depends.fmapAtSize = true → s.readFmapShape g1.sizePtr = v0.readFmapShape g1.sizePtr) ∧
      (g.depends.weightAtSize = true → s.readWeightShape g1.sizePtr = v0.readWeightShape g1.sizePtr) := by decide

/-- A conflict at a named location, and one that an unknown footprint makes with a footprint that holds nothing. -/
theorem test_witness_ConflictIffSharedLocation :
    footprintConflict (hostWriteFootprint 0x47 1) (instrFootprint (.memcpy m2) v0) = some (some (.host 0x47)) ∧
      footprintConflict unknownFootprint (instrFootprint (.memset s1) v0) = some (some (.fmapShape 2)) ∧
      footprintConflict (footprintOf 0x5000000000000000 v0) unknownFootprint = some none := by decide

end Sys2Proof.Tests
end

