-- ==== Sys2Proof/Proofs/FamilyState.lean ====
section
/-! PROOFS. The statements about the state of 10_state.md: what a step can do to the latch (R39) and to the FIFOs (R40). -/

namespace Sys2Proof.Machine

/-! ### The conflict check, said through `Footprint.conflicts` -/

/-- `regionsShare` finds nothing exactly where no location lies in both lists. -/
theorem regionsShare_eq_none_iff (rs qs : List Region) :
    regionsShare rs qs = none ↔ ∀ l, ¬((∃ r ∈ rs, r.holds l) ∧ ∃ q ∈ qs, q.holds l) := by
  refine ⟨regionsShare_none, fun h => ?_⟩
  cases hs : regionsShare rs qs with
  | none => rfl
  | some l => exact absurd (regionsShare_some hs) (h l)

/-- The check the model makes finds nothing exactly where the footprints do not conflict (R77, R261). -/
theorem footprintConflict_eq_none_iff (a b : Footprint) : footprintConflict a b = none ↔ ¬a.conflicts b := by
  unfold footprintConflict Footprint.conflicts
  cases a.known with
  | false => simp
  | true =>
    cases b.known with
    | false => simp
    | true =>
      simp only [Bool.and_self, if_true, Option.map_eq_none_iff, Option.or_eq_none_iff, regionsShare_eq_none_iff,
        Footprint.readsLoc, Footprint.writesLoc, List.mem_append, or_and_right, exists_or, Bool.true_eq_false,
        false_or, not_exists, not_or]

/-- Nothing in flight stops a footprint exactly where it conflicts with none of it. -/
theorem firstConflict_eq_none_iff_not_conflicts (fp : Footprint) (xs : List (Nat × Footprint)) :
    firstConflict fp xs = none ↔ ∀ x ∈ xs, ¬fp.conflicts x.2 := by
  simp only [firstConflict_eq_none, footprintConflict_eq_none_iff]

/-! ### The latch and the dispatch -/

/-- The 32-bit write at offset 0x04 is the latch (R270, R272). -/
theorem hostStep_busWrite_high (v : Half) (s : State) :
    hostStep (.busWrite (s.platform.axilBase + 4) 32 v) s = hostWriteHigh v s := by
  simp [hostStep]

/-- The step that makes the latch, where nothing stops it. -/
theorem step_latches {s : State} {v lo : Half} {rest : List Move} (hr : Running s) (hi : s.issueOk = true)
    (hc : s.cmdLo = some lo) (hs : s.script = .host (.busWrite (s.platform.axilBase + 4) 32 v) :: rest)
    (hf : ∀ x ∈ s.inFlight, ¬Footprint.conflicts (footprintOf (v ++ lo) s) x.2) :
    step s = .next (latchState v lo { s with script := rest }) := by
  rw [step_of_script hr hs]
  refine (hostStep_busWrite_high v { s with script := rest }).trans (hostWriteHigh_next hi hc ?_)
  have hfp : footprintOf (assembleWord lo v) { s with script := rest } = footprintOf (v ++ lo) s :=
    footprintOf_congr _ rfl rfl rfl
  rw [hfp]
  exact (firstConflict_eq_none_iff_not_conflicts _ _).mpr hf

/-- The dispatch step is enabled where something is latched, and the FIFO it is routed to, if any, has room (R244). -/
theorem dispatchEnabled_iff (s : State) :
    dispatchEnabled s = true ↔ ∃ en, s.latched = some en ∧
      ∀ e, engineOfOpcode (opcodeOf en.word) = some e → fifoHasRoom e s = true := by
  unfold dispatchEnabled
  cases s.latched with
  | none => simp
  | some en => cases he : engineOfOpcode (opcodeOf en.word) <;> simp [he]

/-- A dispatch step that is enabled and answers has pushed the latched entry (R244). -/
theorem dispatch_next_of_enabled {s t : State} (hen : dispatchEnabled s = true) (h : dispatch s = .next t) :
    ∃ en e, s.latched = some en ∧ t = dispatchState e en s := by
  obtain ⟨en, hl, hroom⟩ := (dispatchEnabled_iff s).mp hen
  cases he : engineOfOpcode (opcodeOf en.word) with
  | none => simp [dispatch, hl, he] at h
  | some e =>
    simp only [dispatch, hl, he, hroom e he, if_true, toResult_next_iff, run_bind_ok] at h
    obtain ⟨_, _, ht⟩ := h
    exact ⟨en, e, hl, by simpa [eq_comm] using ht⟩

/-! ### The FIFOs -/

/-- An instruction's meaning leaves the FIFOs as they are. -/
theorem exec_fifo {i : Instr} {s t : State} (h : exec i s = .next t) : t.fifo = s.fifo :=
  (congrArg State.fifo (exec_frame h) :)

/-- A pending operation leaves the FIFOs as they are. -/
theorem performDeferred_fifo {op : Deferred} {k : Nat} {s t : State} (h : performDeferred op k s = .ok t) :
    t.fifo = s.fifo :=
  (congrArg State.fifo (performDeferred_frame h) :)

/-- What a move that answers can do to the FIFO of `e`: nothing; its engine takes the head; or the front end puts the
latched entry at the tail of a FIFO that has room. -/
theorem moveStep_fifo {m : Move} {s t : State} (h : moveStep m s = .next t) (e : Engine) :
    t.fifo.get e = s.fifo.get e ∨
      (m = .engine e ∧ ∃ en, s.fifo.get e = en :: t.fifo.get e) ∨
      (m = .dispatch ∧ ∃ en, s.latched = some en ∧ t.fifo.get e = s.fifo.get e ++ [en] ∧
        (s.fifo.get e).length < fifoDepth s.platform e) := by
  rcases moveStep_next h with rfl | ⟨_, _, _, _, rfl⟩ | ⟨_, _, _, _, _, _, _, rfl⟩ | ⟨_, _, rfl⟩ | ⟨_, _, _, _, rfl⟩ |
    ⟨en, d, rfl, hl, _, hroom, _, rfl⟩ | ⟨d, en, rest, i, u, rfl, _, hq, _, hx, rfl⟩ | ⟨k, p, u, _, _, hp, rfl⟩
  · exact .inl rfl
  · exact .inl rfl
  · exact .inl rfl
  · exact .inl rfl
  · exact .inl rfl
  · by_cases hd : e = d
    · subst hd
      exact .inr (.inr ⟨rfl, en, hl, by simp, of_decide_eq_true hroom⟩)
    · exact .inl (by simp [perEngine_get_set_ne _ _ hd])
  · have hu : (retire d en.number u).fifo = s.fifo.set d rest := exec_fifo hx
    by_cases hd : e = d
    · subst hd
      exact .inr (.inl ⟨rfl, en, by rw [hu, perEngine_get_set_same, hq]⟩)
    · exact .inl (by rw [hu, perEngine_get_set_ne _ _ hd])
  · exact .inl (by rw [removePending_fifo, performDeferred_fifo hp])

/-- A step that answers made the next move on the state whose script no longer names it, or there was none to make. -/
theorem step_next_cases {s t : State} (h : step s = .next t) :
    (∃ m, nextMove s = some m ∧ moveStep m s.advance = .next t) ∨ t = s := by
  have hr := running_of_step_next h
  cases hm : nextMove s with
  | some m => exact .inl ⟨m, rfl, by rwa [step_of_move hr hm] at h⟩
  | none => exact .inr (by simpa [step_of_idle hr hm, eq_comm] using h)

end Sys2Proof.Machine

namespace Sys2Proof.Proofs

open Sys2Proof.Machine

/-- Settles O24: the step's one move is found by `step_next_cases`, and `moveStep_fifo` says what it does to a FIFO. -/
theorem fifoDiscipline : Obligations.FifoDiscipline := by
  refine ⟨fun s t e h => ?_, perEngine_get_all []⟩
  rcases step_next_cases h with ⟨m, hm, hstep⟩ | rfl
  · rw [hm, Option.some.injEq, Option.some.injEq]
    exact moveStep_fifo hstep e
  · exact .inl rfl

/-- Settles O12: the latch by `step_latches`, the dispatch by `dispatch_next_of_enabled`. -/
theorem highWriteLatches : Obligations.HighWriteLatches := by
  refine ⟨fun s v lo rest hr hi hc hs hf => ⟨_, step_latches hr hi hc hs hf, rfl, rfl, rfl⟩,
    fun s t rest hs hen h => ?_, rfl⟩
  rw [step_of_script (running_of_step_next h) hs] at h
  obtain ⟨en, e, _, rfl⟩ := dispatch_next_of_enabled (s := { s with script := rest }) hen h
  rfl

end Sys2Proof.Proofs
end

