-- ==== Sys2Proof/Proofs/FamilyEncoding.lean ====
section
/-! PROOFS. The statements about the words of 30_encoding.md: which bits of the word each field of a format is (R104 to
R107). -/

namespace Sys2Proof

open Sys2Proof.Machine

/-! ### Slices of a word as unsigned numbers -/

theorem slice_toNat (w : Word) (start len : Nat) :
    (w.extractLsb' start len).toNat = w.toNat / 2 ^ start % 2 ^ len := by
  rw [BitVec.extractLsb'_toNat, Nat.shiftRight_eq_div_pow]

theorem lowSlice_toNat (w : Word) (len : Nat) : (w.extractLsb' 0 len).toNat = w.toNat % 2 ^ len := by
  rw [BitVec.extractLsb'_toNat, Nat.shiftRight_zero]

/-- A one-bit field is the slice of length 1 at its place. -/
theorem ofBool_getLsbD_eq_slice (w : Word) (i : Nat) : BitVec.ofBool (w.getLsbD i) = w.extractLsb' i 1 := by
  apply BitVec.eq_of_getLsbD_eq
  intro j hj
  obtain rfl : j = 0 := by omega
  simp

/-! ### The flag fields, which the decoder splits into their bits, are slices too -/

/-- Both flag fields are three flags, highest bit first, above their reserved bits (R108, R109). -/
theorem threeFlags_append_slice (w : Word) (start len : Nat) :
    BitVec.ofBool (w.getLsbD (start + len + 2)) ++ BitVec.ofBool (w.getLsbD (start + len + 1)) ++
      BitVec.ofBool (w.getLsbD (start + len)) ++ w.extractLsb' start len = w.extractLsb' start (1 + 1 + 1 + len) := by
  simp only [ofBool_getLsbD_eq_slice]
  rw [BitVec.extractLsb'_append_extractLsb'_eq_extractLsb' (by omega),
    BitVec.extractLsb'_append_extractLsb'_eq_extractLsb' (by omega),
    BitVec.extractLsb'_append_extractLsb'_eq_extractLsb' (by omega)]

theorem gemxFlags_decodeGemx (w : Word) : gemxFlags (decodeGemx w) = w.extractLsb' 20 6 :=
  threeFlags_append_slice w 20 3

theorem cvoFlags_decodeCvo (w : Word) : cvoFlags (decodeCvo w) = w.extractLsb' 1 5 :=
  threeFlags_append_slice w 1 2

/-! ### The opcodes of a format G word -/

theorem decode_gemv_iff (w : Word) (f : GemxFields) :
    decode w = .ok (.gemv f) ↔ w.toNat / 2 ^ 60 = 0 ∧ f = decodeGemx w := by
  rw [← opcodeOf_toNat]
  exact decode_gemx_iff w .gemv f

theorem decode_gemm_iff (w : Word) (f : GemxFields) :
    decode w = .ok (.gemm f) ↔ w.toNat / 2 ^ 60 = 1 ∧ f = decodeGemx w := by
  rw [← opcodeOf_toNat]
  exact decode_gemx_iff w .gemm f

/-- Both multiplies are format G, and the opcode tells them apart (R102). -/
theorem decode_formatG {w : Word} {f : GemxFields} (h : decode w = .ok (.gemv f) ∨ decode w = .ok (.gemm f)) :
    f = decodeGemx w ∧ (w.toNat / 2 ^ 60 = 0 ∨ w.toNat / 2 ^ 60 = 1) := by
  rw [decode_gemv_iff, decode_gemm_iff] at h
  rcases h with ⟨hop, hf⟩ | ⟨hop, hf⟩
  · exact ⟨hf, .inl hop⟩
  · exact ⟨hf, .inr hop⟩

end Sys2Proof

namespace Sys2Proof.Proofs

open Sys2Proof.Machine

/-- Settles O4: a word of a format decodes to that format's fields (`decode_formatG` and the decoder's laws), and each of
these is a slice. -/
theorem formatFieldSlices : Obligations.FormatFieldSlices := by
  refine ⟨fun w f h => ?formatG, fun w f h => ?formatM, fun w f h => ?formatS, fun w func f h => ?formatC⟩
  case formatG =>
    obtain ⟨rfl, hop⟩ := decode_formatG h
    refine ⟨hop, by simp [decode_gemv_iff], slice_toNat w 43 17, slice_toNat w 26 17, ?_, slice_toNat w 14 6,
      slice_toNat w 8 6, slice_toNat w 3 5, lowSlice_toNat w 3⟩
    rw [gemxFlags_decodeGemx, slice_toNat]
  case formatM =>
    obtain ⟨hop, rfl⟩ := (decode_memcpy_iff w f).mp h
    rw [opcodeOf_toNat] at hop
    exact ⟨hop, rfl, rfl, slice_toNat w 41 17, slice_toNat w 24 17, slice_toNat w 7 17, slice_toNat w 1 6, rfl⟩
  case formatS =>
    obtain ⟨hop, rfl⟩ := (decode_memset_iff w f).mp h
    rw [opcodeOf_toNat] at hop
    exact ⟨hop, slice_toNat w 58 2, slice_toNat w 52 6, slice_toNat w 36 16, slice_toNat w 20 16,
      slice_toNat w 4 16, lowSlice_toNat w 4⟩
  case formatC =>
    obtain ⟨hop, hfunc, rfl⟩ := (decode_cvo_iff w func f).mp h
    rw [opcodeOf_toNat] at hop
    rw [slice_toNat] at hfunc
    refine ⟨hop, hfunc.symm, slice_toNat w 39 17, slice_toNat w 22 17, slice_toNat w 6 16, ?_, rfl⟩
    rw [cvoFlags_decodeCvo]
    exact slice_toNat w 1 5

end Sys2Proof.Proofs
end

section
/-! PROOFS. The statements about the copy of 41_memcpy.md: which micro-op a MEMCPY is split into (R172, R247), and beside
it the control micro-op of a multiply (R246). -/

namespace Sys2Proof.Machine

/-- The selectors name a route exactly where they differ, and `from_device` tells which of the two it is (R172, D13). -/
theorem copyRoute_eq_some_iff (f : MemcpyFields) (r : CopyRoute) :
    copyRoute f = some r ↔
      (f.fromDevice != f.toDevice) = true ∧ r = if f.fromDevice then .hostToL2 else .l2ToHost := by
  cases r with
  | hostToL2 => rw [copyRoute_hostToL2]; cases f.fromDevice <;> simp
  | l2ToHost => rw [copyRoute_l2ToHost]; cases f.fromDevice <;> simp

/-- The memory micro-ops of a MEMCPY: one for the route its selectors name, none where they name none (R247). -/
theorem memUop_mem_splitUops_memcpy (f : MemcpyFields) (u : MemUop) :
    Uop.mem u ∈ splitUops (.memcpy f) ↔
      ∃ r, copyRoute f = some r ∧
        u = { dataDest := copyRouteOf r, destAddr := f.destAddr, srcAddr := f.srcAddr, shapePtr := f.shapePtr,
              async := f.async } := by
  simp only [splitUops, memcpyUops]
  cases copyRoute f <;> simp

/-- A multiply has one control micro-op; its other two micro-ops are of the memory engine (R246, R249). -/
theorem gemxUop_mem_splitUops_gemxInstr (kind : GemxKind) (f : GemxFields) (u : GemxUop) :
    Uop.gemx u ∈ splitUops (gemxInstr kind f) ↔
      u = { flags := gemxFlags f, sizePtr := f.sizePtr, parallelLane := f.parallelLane } := by
  cases kind <;> simp [gemxInstr, splitUops, gemxUops]

end Sys2Proof.Machine

namespace Sys2Proof.Proofs

open Sys2Proof.Machine

/-- Settles O7: the decoder's laws give the fields as slices of the word, and the micro-op is read off the fields; that of
a copy through the route its selectors name. -/
theorem controlMicroOpMembers : Obligations.ControlMicroOpMembers := by
  refine ⟨fun w kind f h u => ?multiply, fun w f h u => ?copy⟩
  case multiply =>
    obtain ⟨_, rfl⟩ := (decode_gemx_iff w kind f).mp h
    rw [gemxUop_mem_splitUops_gemxInstr, gemxFlags_decodeGemx]
    rfl
  case copy =>
    obtain ⟨_, rfl⟩ := (decode_memcpy_iff w f).mp h
    simp only [memUop_mem_splitUops_memcpy, copyRoute_eq_some_iff, and_assoc, exists_and_left, exists_eq_left,
      apply_ite copyRouteOf]
    rfl

end Sys2Proof.Proofs
end

section
/-! PROOFS. The statements about the front end of 44_uops_and_dispatch.md: where its step puts the latched word (R244,
R245). -/

namespace Sys2Proof.Machine

/-- The step that dispatches a word which passes its checks, to an engine whose FIFO has room (R244). -/
theorem step_dispatches {s : State} {en : Entry} {e : Engine} {rest : List Move} (hr : Running s)
    (hs : s.script = .dispatch :: rest) (hl : s.latched = some en) (hc : dispatchCheck en.word = .ok ())
    (he : engineOfOpcode (opcodeOf en.word) = some e) (hroom : (s.fifo.get e).length < fifoDepth s.platform e) :
    step s = .next (dispatchState e en { s with script := rest }) := by
  rw [step_of_script hr hs]
  exact dispatch_accepted (s := { s with script := rest }) hl he (decide_eq_true hroom) hc

end Sys2Proof.Machine

namespace Sys2Proof.Proofs

open Sys2Proof.Machine

/-- Settles O20: `step_dispatches` for each engine, whose opcode is read off the top four bits of the word. -/
theorem opcodeToFifo : Obligations.OpcodeToFifo := by
  intro s en rest hr hs hl hc
  have route (e : Engine) := step_dispatches (e := e) hr hs hl hc
  simp only [engineOfOpcode_some_iff, opcodeOf_toNat] at route
  exact ⟨route .gemv, route .gemm, route .mem, route .memset, route .cvo⟩

end Sys2Proof.Proofs
end

section
/-! PROOFS. The statements about the host's accesses of 45_host_interface.md: the write of the low word (R271). -/

namespace Sys2Proof.Machine

/-- The 32-bit write at offset 0x00 is the write of the low word (R270, R271). -/
theorem hostStep_busWrite_low (v : Half) (s : State) :
    hostStep (.busWrite s.platform.axilBase 32 v) s = hostWriteLow v s := by
  simp [hostStep]

/-- The write of the low word, where the host may issue (R271, R276). -/
theorem hostWriteLow_next {s : State} (v : Half) (hi : s.issueOk = true) :
    hostWriteLow v s = .next { s with cmdLo := some v } := by
  simp [hostWriteLow, hi]

/-- The step that writes the low word. -/
theorem step_writesLow {s : State} {v : Half} {rest : List Move} (hr : Running s) (hi : s.issueOk = true)
    (hs : s.script = .host (.busWrite s.platform.axilBase 32 v) :: rest) :
    step s = .next { s with script := rest, cmdLo := some v } := by
  rw [step_of_script hr hs]
  exact (hostStep_busWrite_low v { s with script := rest }).trans (hostWriteLow_next v hi)

/-- A run goes on from the state its first step leaves. -/
theorem run_succ_of_step (M : Host.Core) {s t : M.State} (k : Nat) (h : M.step s = .next t) :
    M.run (k + 1) s = M.run k t := by
  rw [Host.Core.run, h]

end Sys2Proof.Machine

namespace Sys2Proof.Proofs

open Sys2Proof.Machine

/-- Settles O11: `step_writesLow` for each write; the first one leaves the machine running and the host free to issue, so
the lemma applies to the second as well. -/
theorem lowWriteSetsCommandLow : Obligations.LowWriteSetsCommandLow := by
  refine ⟨fun s v rest hr hi hs => step_writesLow hr hi hs, fun s v v' rest hr hi hs => ?twice⟩
  case twice =>
    have first := step_writesLow hr hi hs
    have second : step { s with script := .host (.busWrite s.platform.axilBase 32 v') :: rest, cmdLo := some v } =
        .next { s with script := rest, cmdLo := some v' } := step_writesLow hr hi rfl
    exact (run_succ_of_step core 1 first).trans (run_succ_of_step core 0 second)

end Sys2Proof.Proofs
end

section
/-! PROOFS. Words and instructions determine each other (30_encoding.md R100 to R116): the encoder and the decoder are
inverse to each other, and the words that are no instruction are rejected by name. -/

namespace Sys2Proof

open Sys2Proof.Machine

/-! ### Fields of an encoded word -/

/-- The decoder reads back the fields of a format G word (R104): each is the slice at its own place. -/
theorem decodeGemx_encodeGemx (op : BitVec 4) (f : GemxFields) : decodeGemx (encodeGemx op f) = f := by
  simp (disch := decide) only [decodeGemx, encodeGemx, BitVec.extractLsb'_append_eq_of_le,
    BitVec.extractLsb'_append_eq_of_add_le, BitVec.extractLsb'_eq_self, BitVec.getLsbD_append, BitVec.getLsbD_ofBool,
    Nat.reduceSub, if_pos, if_neg, decide_true, Bool.true_and]

theorem opcodeOf_encodeGemx (op : BitVec 4) (f : GemxFields) : opcodeOf (encodeGemx op f) = op := by
  simp (disch := decide) only [opcodeOf, encodeGemx, BitVec.extractLsb'_append_eq_of_le, BitVec.extractLsb'_eq_self,
    Nat.reduceSub]

/-- The decoder reads back the fields of a format M word (R105). -/
theorem decodeMemcpy_encodeMemcpy (f : MemcpyFields) : decodeMemcpy (encodeMemcpy f) = f := by
  simp (disch := decide) only [decodeMemcpy, encodeMemcpy, BitVec.extractLsb'_append_eq_of_le,
    BitVec.extractLsb'_append_eq_of_add_le, BitVec.extractLsb'_eq_self, BitVec.getLsbD_append, BitVec.getLsbD_ofBool,
    Nat.reduceSub, if_pos, if_neg, decide_true, Bool.true_and]

theorem opcodeOf_encodeMemcpy (f : MemcpyFields) : opcodeOf (encodeMemcpy f) = 2#4 := by
  simp (disch := decide) only [opcodeOf, encodeMemcpy, BitVec.extractLsb'_append_eq_of_le, BitVec.extractLsb'_eq_self,
    Nat.reduceSub]

/-- The decoder reads back the fields of a format S word (R106). -/
theorem decodeMemset_encodeMemset (f : MemsetFields) : decodeMemset (encodeMemset f) = f := by
  simp (disch := decide) only [decodeMemset, encodeMemset, BitVec.extractLsb'_append_eq_of_le,
    BitVec.extractLsb'_append_eq_of_add_le, BitVec.extractLsb'_eq_self, Nat.reduceSub]

theorem opcodeOf_encodeMemset (f : MemsetFields) : opcodeOf (encodeMemset f) = 3#4 := by
  simp (disch := decide) only [opcodeOf, encodeMemset, BitVec.extractLsb'_append_eq_of_le, BitVec.extractLsb'_eq_self,
    Nat.reduceSub]

/-- The decoder reads back the fields of a format C word (R107). -/
theorem decodeCvo_encodeCvo (func : BitVec 4) (f : CvoFields) : decodeCvo (encodeCvo func f) = f := by
  simp (disch := decide) only [decodeCvo, encodeCvo, BitVec.extractLsb'_append_eq_of_le,
    BitVec.extractLsb'_append_eq_of_add_le, BitVec.extractLsb'_eq_self, BitVec.getLsbD_append, BitVec.getLsbD_ofBool,
    Nat.reduceSub, if_pos, if_neg, decide_true, Bool.true_and]

theorem opcodeOf_encodeCvo (func : BitVec 4) (f : CvoFields) : opcodeOf (encodeCvo func f) = 4#4 := by
  simp (disch := decide) only [opcodeOf, encodeCvo, BitVec.extractLsb'_append_eq_of_le, BitVec.extractLsb'_eq_self,
    Nat.reduceSub]

theorem cvoFuncOf_encodeCvo (func : BitVec 4) (f : CvoFields) : (encodeCvo func f).extractLsb' 56 4 = func := by
  simp (disch := decide) only [encodeCvo, BitVec.extractLsb'_append_eq_of_le, BitVec.extractLsb'_append_eq_of_add_le,
    BitVec.extractLsb'_eq_self, Nat.reduceSub]

/-! ### The encoder by kind of instruction -/

theorem encode_gemxInstr (kind : GemxKind) (f : GemxFields) :
    encode (gemxInstr kind f) = encodeGemx (BitVec.ofNat 4 (gemxOpcode kind)) f := by
  cases kind <;> rfl

theorem encode_cvoInstr (func : CvoFunc) (f : CvoFields) :
    encode (cvoInstr func f) = encodeCvo (cvoFuncCode func) f := by
  cases func <;> rfl

/-- An opcode is determined by the number it spells. -/
theorem opcodeOf_eq_ofNat {w : Word} {n : Nat} (h : (opcodeOf w).toNat = n) : opcodeOf w = BitVec.ofNat 4 n := by
  rw [← h, BitVec.ofNat_toNat, BitVec.setWidth_eq]

/-! ### The fields of a format tile the word

Adjacent slices, appended, are one slice; from the opcode down to the last field the slices are adjacent, and the slice
they make is the word. -/

theorem encodeGemx_decodeGemx (w : Word) : encodeGemx (opcodeOf w) (decodeGemx w) = w := by
  simp only [encodeGemx, opcodeOf, decodeGemx, ofBool_getLsbD_eq_slice]
  repeat rw [BitVec.extractLsb'_append_extractLsb'_eq_extractLsb' (by decide)]
  exact BitVec.extractLsb'_eq_self

theorem encodeMemcpy_decodeMemcpy {w : Word} (h : opcodeOf w = 2#4) : encodeMemcpy (decodeMemcpy w) = w := by
  simp only [encodeMemcpy, ← h, opcodeOf, decodeMemcpy, ofBool_getLsbD_eq_slice]
  repeat rw [BitVec.extractLsb'_append_extractLsb'_eq_extractLsb' (by decide)]
  exact BitVec.extractLsb'_eq_self

theorem encodeMemset_decodeMemset {w : Word} (h : opcodeOf w = 3#4) : encodeMemset (decodeMemset w) = w := by
  simp only [encodeMemset, ← h, opcodeOf, decodeMemset]
  repeat rw [BitVec.extractLsb'_append_extractLsb'_eq_extractLsb' (by decide)]
  exact BitVec.extractLsb'_eq_self

/-- Format C, whatever the function code (R107). -/
theorem encodeCvo_decodeCvo {w : Word} (h : opcodeOf w = 4#4) :
    encodeCvo (w.extractLsb' 56 4) (decodeCvo w) = w := by
  simp only [encodeCvo, ← h, opcodeOf, decodeCvo, ofBool_getLsbD_eq_slice]
  repeat rw [BitVec.extractLsb'_append_extractLsb'_eq_extractLsb' (by decide)]
  exact BitVec.extractLsb'_eq_self

/-- Opcode and body tile the word (R101). -/
theorem opcodeOf_append_body (w : Word) : opcodeOf w ++ w.extractLsb' 0 60 = w := by
  rw [opcodeOf, BitVec.extractLsb'_append_extractLsb'_eq_extractLsb' (by decide)]
  exact BitVec.extractLsb'_eq_self

/-! ### The two round trips -/

/-- A word that decodes to an instruction is the encoding of that instruction. -/
theorem encode_of_decode_ok {w : Word} {i : Instr} (h : decode w = .ok i) : encode i = w := by
  rcases instr_cases i with ⟨kind, f, rfl⟩ | ⟨f, rfl⟩ | ⟨f, rfl⟩ | ⟨func, f, rfl⟩
  · obtain ⟨hop, rfl⟩ := (decode_gemx_iff w kind f).mp h
    rw [encode_gemxInstr, ← opcodeOf_eq_ofNat hop, encodeGemx_decodeGemx]
  · obtain ⟨hop, rfl⟩ := (decode_memcpy_iff w f).mp h
    exact encodeMemcpy_decodeMemcpy (opcodeOf_eq_ofNat hop)
  · obtain ⟨hop, rfl⟩ := (decode_memset_iff w f).mp h
    exact encodeMemset_decodeMemset (opcodeOf_eq_ofNat hop)
  · obtain ⟨hop, hfunc, rfl⟩ := (decode_cvo_iff w func f).mp h
    rw [encode_cvoInstr, ← BitVec.eq_of_toNat_eq hfunc, encodeCvo_decodeCvo (opcodeOf_eq_ofNat hop)]

/-! ### What the decoder rejects -/

/-- Every result of the decoder is an instruction or one of the two rejections. -/
theorem decode_cases (w : Word) :
    (∃ i, decode w = .ok i) ∨ (∃ op body, decode w = .error (.reservedOpcode op body)) ∨
      ∃ func f, decode w = .error (.reservedCvoFunc func f) := by
  rcases decode w with (⟨op, body⟩ | ⟨func, f⟩) | i
  · exact .inr (.inl ⟨op, body, rfl⟩)
  · exact .inr (.inr ⟨func, f, rfl⟩)
  · exact .inl ⟨i, rfl⟩

theorem decode_isReservedOpcode_iff (w : Word) :
    (∃ op body, decode w = .error (.reservedOpcode op body)) ↔ 5 ≤ w.toNat / 2 ^ 60 := by
  simp [decode_reservedOpcode_iff, opcodeOf_toNat]

theorem decode_isReservedCvoFunc_iff (w : Word) :
    (∃ func f, decode w = .error (.reservedCvoFunc func f)) ↔
      w.toNat / 2 ^ 60 = 4 ∧ 8 ≤ w.toNat / 2 ^ 56 % 16 := by
  simp only [decode_reservedCvoFunc_iff, opcodeOf_toNat, cvoFuncOf_toNat, exists_and_left, exists_eq, and_true]

/-- The decoder answers an instruction exactly where it rejects nothing. -/
theorem decode_isOk_iff (w : Word) :
    (∃ i, decode w = .ok i) ↔
      w.toNat / 2 ^ 60 < 4 ∨ w.toNat / 2 ^ 60 = 4 ∧ w.toNat / 2 ^ 56 % 16 < 8 := by
  have hop := decode_isReservedOpcode_iff w
  have hfn := decode_isReservedCvoFunc_iff w
  constructor
  · rintro ⟨i, hi⟩
    simp [hi] at hop hfn
    omega
  · intro h
    rcases decode_cases w with hi | hr | hr
    · exact hi
    · have := hop.mp hr; omega
    · have := hfn.mp hr; omega

end Sys2Proof

namespace Sys2Proof.Proofs

open Sys2Proof.Machine

/-- Settles O1: each format's fields are read back from its word, and the opcode (with the function code) picks the
format. -/
theorem encodeThenDecode : Obligations.EncodeThenDecode := by
  intro i
  rcases instr_cases i with ⟨kind, f, rfl⟩ | ⟨f, rfl⟩ | ⟨f, rfl⟩ | ⟨func, f, rfl⟩
  · rw [decode_gemx_iff, encode_gemxInstr, opcodeOf_encodeGemx, decodeGemx_encodeGemx]
    cases kind <;> exact ⟨rfl, rfl⟩
  · rw [decode_memcpy_iff, encode, opcodeOf_encodeMemcpy, decodeMemcpy_encodeMemcpy]
    exact ⟨rfl, rfl⟩
  · rw [decode_memset_iff, encode, opcodeOf_encodeMemset, decodeMemset_encodeMemset]
    exact ⟨rfl, rfl⟩
  · rw [decode_cvo_iff, encode_cvoInstr, opcodeOf_encodeCvo, cvoFuncOf_encodeCvo, decodeCvo_encodeCvo]
    exact ⟨rfl, rfl, rfl⟩

/-- Settles O2: the fields of every format tile the word, and so do the body of a reserved opcode and the fields of a
reserved CVO function. -/
theorem decodeThenEncode : Obligations.DecodeThenEncode := by
  refine ⟨fun w => ?_, fun w i => encode_of_decode_ok⟩
  rcases decode_cases w with ⟨i, h⟩ | ⟨op, body, h⟩ | ⟨func, f, h⟩
  · rw [h]
    exact encode_of_decode_ok h
  · obtain ⟨_, rfl, rfl⟩ := (decode_reservedOpcode_iff w op body).mp h
    rw [h]
    exact opcodeOf_append_body w
  · obtain ⟨hop, _, rfl, rfl⟩ := (decode_reservedCvoFunc_iff w func f).mp h
    rw [h]
    exact encodeCvo_decodeCvo (opcodeOf_eq_ofNat hop)

/-- Settles O3: the decoder's laws for the two rejections, and what is left is an instruction. -/
theorem decodeRejectsReserved : Obligations.DecodeRejectsReserved := by
  refine fun w => ⟨⟨fun h => ?_, fun ⟨op, body, h, _⟩ => (decode_isReservedOpcode_iff w).mp ⟨op, body, h⟩⟩,
    ⟨fun h => ?_, fun ⟨fn, f, h, _⟩ => (decode_isReservedCvoFunc_iff w).mp ⟨fn, f, h⟩⟩, (decode_isOk_iff w).symm⟩
  · obtain ⟨op, body, h⟩ := (decode_isReservedOpcode_iff w).mpr h
    obtain ⟨_, hop, hbody⟩ := (decode_reservedOpcode_iff w op body).mp h
    exact ⟨op, body, h, by rw [hop, opcodeOf_toNat], by rw [hbody, lowSlice_toNat]⟩
  · obtain ⟨fn, f, h⟩ := (decode_isReservedCvoFunc_iff w).mpr h
    obtain ⟨_, _, hfn, hf⟩ := (decode_reservedCvoFunc_iff w fn f).mp h
    exact ⟨fn, f, h, by rw [hfn, cvoFuncOf_toNat], hf⟩

/-- Settles O5: a CVO word decodes to the function whose code it holds, and each flag is one bit of the word. -/
theorem functionCodesAndFlagBits : Obligations.FunctionCodesAndFlagBits := by
  refine ⟨fun w hop func => ?codes, fun w f h => ?gemxFlags, fun w func f h => ?cvoFlags⟩
  case codes =>
    simp only [decode_cvo_iff, opcodeOf_toNat, cvoFuncOf_toNat, hop, true_and, exists_and_left, exists_eq, and_true]
    cases func <;> rfl
  case gemxFlags =>
    obtain ⟨rfl, _⟩ := decode_formatG h
    exact ⟨rfl, rfl, rfl, slice_toNat w 20 3⟩
  case cvoFlags =>
    obtain ⟨_, _, rfl⟩ := (decode_cvo_iff w func f).mp h
    exact ⟨rfl, rfl, rfl, slice_toNat w 1 2⟩

/-- Settles O6: each word is evaluated. -/
theorem specWordsDecode : Obligations.SpecWordsDecode :=
  ⟨rfl, rfl, rfl, rfl, rfl, rfl, rfl⟩

end Sys2Proof.Proofs
end

section
/-! PROOFS. Micro-ops and routes (30_encoding.md R117, 44_uops_and_dispatch.md R242 to R250, R257): what an instruction is
split into, and which bits of its word a packed micro-op is. -/

namespace Sys2Proof.Machine

/-! ### Splitting, by kind of instruction -/

/-- Different routes have different codes (R117). -/
theorem routeCode_inj (r q : Route) : routeCode r = routeCode q ↔ r = q := by
  cases r <;> cases q <;> decide

/-- The code of the route a MEMCPY's selectors name, where they name one: `from_device` tells which it is (R172). -/
theorem routeCode_copyRouteOf_selected (fromDevice : Bool) :
    routeCode (copyRouteOf (if fromDevice then .hostToL2 else .l2ToHost)) =
      if fromDevice then 0x01#8 else 0x10#8 := by
  cases fromDevice <;> rfl

/-- The two memory micro-ops of a multiply: the L1 fill of its engine and its result drain (R249). -/
def gemxRoutes : GemxKind → Route × Route
  | .gemv => (.l2ToL1Gemv, .gemvResToL2)
  | .gemm => (.l2ToL1Gemm, .gemmResToL2)

theorem splitUops_gemxInstr (kind : GemxKind) (f : GemxFields) :
    splitUops (gemxInstr kind f) = gemxUops (gemxRoutes kind).1 (gemxRoutes kind).2 f := by
  cases kind <;> rfl

/-- The memory micro-ops of a multiply carry the fields its control micro-op lacks (R249). -/
theorem memUop_mem_splitUops_gemxInstr (kind : GemxKind) (f : GemxFields) (u : MemUop) :
    Uop.mem u ∈ splitUops (gemxInstr kind f) ↔
      u.destAddr = f.destReg ∧ u.srcAddr = f.srcAddr ∧ u.shapePtr = f.shapePtr ∧ u.async = false ∧
        (u.dataDest = (gemxRoutes kind).1 ∨ u.dataDest = (gemxRoutes kind).2) := by
  obtain ⟨dataDest, destAddr, srcAddr, shapePtr, async⟩ := u
  simp only [splitUops_gemxInstr, gemxUops, List.mem_cons, List.not_mem_nil, reduceCtorEq, Uop.mem.injEq,
    MemUop.mk.injEq, false_or, or_false]
  tauto

/-- A CVO function has one micro-op (R250). -/
theorem splitUops_cvoInstr (func : CvoFunc) (f : CvoFields) :
    splitUops (cvoInstr func f) = [.cvo (cvoUop (cvoFuncCode func) f)] := by
  cases func <;> rfl

theorem wordUops_of_decode {w : Word} {i : Instr} (h : decode w = .ok i) : wordUops w = splitUops i := by
  simp [wordUops, h]

/-- A word of opcode 4 is one CVO micro-op with the function code it holds, reserved or not (R250, R116). -/
theorem wordUops_of_opcodeCvo {w : Word} (h : w.toNat / 2 ^ 60 = 4) :
    wordUops w = [.cvo (cvoUop (w.extractLsb' 56 4) (decodeCvo w))] := by
  rw [← opcodeOf_toNat] at h
  rcases decode_cases w with ⟨i, hd⟩ | ⟨op, body, hd⟩ | ⟨func, f, hd⟩
  · rw [wordUops_of_decode hd]
    rcases instr_cases i with ⟨kind, f, rfl⟩ | ⟨f, rfl⟩ | ⟨f, rfl⟩ | ⟨func, f, rfl⟩
    · have := ((decode_gemx_iff w kind f).mp hd).1
      cases kind <;> simp_all [gemxOpcode]
    · have := ((decode_memcpy_iff w f).mp hd).1
      omega
    · have := ((decode_memset_iff w f).mp hd).1
      omega
    · obtain ⟨_, hfunc, rfl⟩ := (decode_cvo_iff w func f).mp hd
      rw [splitUops_cvoInstr, BitVec.eq_of_toNat_eq hfunc]
  · have := ((decode_reservedOpcode_iff w op body).mp hd).1
    omega
  · obtain ⟨_, _, rfl, rfl⟩ := (decode_reservedCvoFunc_iff w func f).mp hd
    simp [wordUops, hd]

/-! ### Packed micro-ops are slices of the word -/

/-- The packed CVO micro-op is the whole body (R250, R257). -/
theorem pack_cvoUop (w : Word) : (cvoUop (w.extractLsb' 56 4) (decodeCvo w)).pack = w.extractLsb' 0 60 := by
  simp only [CvoUop.pack, cvoUop, cvoFlags_decodeCvo]
  simp only [decodeCvo, ofBool_getLsbD_eq_slice]
  repeat rw [BitVec.extractLsb'_append_extractLsb'_eq_extractLsb' (by decide)]

/-- The packed memory-set micro-op is the body less its four reserved bits (R248, R257). -/
theorem pack_memsetUop (w : Word) : (memsetUop (decodeMemset w)).pack = w.extractLsb' 4 56 := by
  simp only [MemsetUop.pack, memsetUop, decodeMemset]
  repeat rw [BitVec.extractLsb'_append_extractLsb'_eq_extractLsb' (by decide)]

end Sys2Proof.Machine

namespace Sys2Proof.Proofs

open Sys2Proof.Machine

/-- Settles O8: the decoder's laws give the fields as slices of the word, and packing puts the slices side by side. -/
theorem packedMicroOpsAreBodySlices : Obligations.PackedMicroOpsAreBodySlices := by
  refine ⟨fun w i => wordUops_of_decode, fun w h => ⟨_, wordUops_of_opcodeCvo h, pack_cvoUop w⟩, fun w f h => ?memset,
    fun w kind f h => ⟨?control, fun u hu => ?move⟩, fun w f h u hu => ?copy⟩
  case memset =>
    obtain ⟨_, rfl⟩ := (decode_memset_iff w f).mp h
    exact ⟨_, rfl, pack_memsetUop w⟩
  case control =>
    obtain ⟨_, rfl⟩ := (decode_gemx_iff w kind f).mp h
    refine ⟨_, _, splitUops_gemxInstr kind _, ?_⟩
    rw [GemxUop.pack, gemxFlags_decodeGemx]
    rfl
  case move =>
    obtain ⟨_, rfl⟩ := (decode_gemx_iff w kind f).mp h
    obtain ⟨hdest, hsrc, hptr, hasync, _⟩ := (memUop_mem_splitUops_gemxInstr kind _ u).mp hu
    rw [MemUop.pack, hdest, hsrc, hptr, hasync]
    rfl
  case copy =>
    obtain ⟨_, rfl⟩ := (decode_memcpy_iff w f).mp h
    obtain ⟨r, hr, rfl⟩ := (memUop_mem_splitUops_memcpy _ u).mp hu
    obtain ⟨_, rfl⟩ := (copyRoute_eq_some_iff _ r).mp hr
    rw [MemUop.pack, routeCode_copyRouteOf_selected, ← ofBool_getLsbD_eq_slice]
    rfl

/-- Settles O9: the three micro-ops are listed by `gemxUops`, and a route is known by its code. -/
theorem multiplyDataMovement : Obligations.MultiplyDataMovement := by
  refine fun kind f => ⟨by rw [splitUops_gemxInstr]; rfl, fun u => ?control, fun u => ?move⟩
  case control =>
    obtain ⟨flags, sizePtr, parallelLane⟩ := u
    rw [gemxUop_mem_splitUops_gemxInstr, GemxUop.mk.injEq]
  case move =>
    rw [memUop_mem_splitUops_gemxInstr, ← routeCode_inj u.dataDest, ← routeCode_inj u.dataDest]
    cases kind <;> rfl

/-- Settles O10: the table of codes. -/
theorem routeCodes : Obligations.RouteCodes := ⟨rfl, rfl, rfl, rfl, rfl, rfl, rfl, rfl⟩

end Sys2Proof.Proofs
end

section
/-! PROOFS. The front end and the engines (44_uops_and_dispatch.md R244, R251, R254): what the dispatch step accepts, holds
back and turns away, and what an engine's step runs. -/

namespace Sys2Proof.Machine

/-! ### The dispatch checks, by kind of word -/

theorem dispatchCheck_gemx {w : Word} {kind : GemxKind} (h : (opcodeOf w).toNat = gemxOpcode kind) :
    dispatchCheck w = gemxDispatchCheck (decodeGemx w) := by
  have hd := (decode_gemx_iff w kind _).mpr ⟨h, rfl⟩
  cases kind <;> simp only [dispatchCheck, hd] <;> rfl

theorem dispatchCheck_memcpy {w : Word} (h : (opcodeOf w).toNat = 2) :
    dispatchCheck w = memcpyDispatchCheck (decodeMemcpy w) := by
  have hd := (decode_memcpy_iff w _).mpr ⟨h, rfl⟩
  simp only [dispatchCheck, hd]
  rfl

theorem dispatchCheck_memset {w : Word} (h : (opcodeOf w).toNat = 3) :
    dispatchCheck w = memsetDispatchCheck (decodeMemset w) := by
  have hd := (decode_memset_iff w _).mpr ⟨h, rfl⟩
  simp only [dispatchCheck, hd]
  rfl

theorem instrDispatchCheck_cvoInstr (func : CvoFunc) (f : CvoFields) :
    instrDispatchCheck (cvoInstr func f) = cvoDispatchCheck f.flagsRsvd := by
  cases func <;> rfl

theorem instrDispatchCheck_gemxInstr (kind : GemxKind) (f : GemxFields) :
    instrDispatchCheck (gemxInstr kind f) = gemxDispatchCheck f := by
  cases kind <;> rfl

/-- The front end does not look at a CVO word's function code (R221). -/
theorem dispatchCheck_cvo {w : Word} (h : (opcodeOf w).toNat = 4) :
    dispatchCheck w = cvoDispatchCheck (decodeCvo w).flagsRsvd := by
  rcases decode_cases w with ⟨i, hd⟩ | ⟨op, body, hd⟩ | ⟨func, f, hd⟩
  · simp only [dispatchCheck, hd]
    rcases instr_cases i with ⟨kind, f, rfl⟩ | ⟨f, rfl⟩ | ⟨f, rfl⟩ | ⟨func, f, rfl⟩
    · have := ((decode_gemx_iff w kind f).mp hd).1
      cases kind <;> simp_all [gemxOpcode]
    · have := ((decode_memcpy_iff w f).mp hd).1
      omega
    · have := ((decode_memset_iff w f).mp hd).1
      omega
    · rw [instrDispatchCheck_cvoInstr, ((decode_cvo_iff w func f).mp hd).2.2]
  · have := ((decode_reservedOpcode_iff w op body).mp hd).1
    omega
  · obtain ⟨_, _, _, rfl⟩ := (decode_reservedCvoFunc_iff w func f).mp hd
    simp only [dispatchCheck, hd]

/-- A well-formed instruction passes the checks of the front end (R244). -/
theorem instrDispatchCheck_of_wellFormed {i : Instr} (h : i.wellFormed = true) : instrDispatchCheck i = .ok () := by
  rcases instr_cases i with ⟨kind, f, rfl⟩ | ⟨f, rfl⟩ | ⟨f, rfl⟩ | ⟨func, f, rfl⟩
  · rw [instrDispatchCheck_gemxInstr, gemxDispatchCheck_ok]
    have hf : f.wellFormed = true := by cases kind <;> exact h
    simpa [GemxFields.wellFormed, and_assoc] using hf
  · refine (memcpyDispatchCheck_ok f ()).mpr ?_
    have hf : f.auxAddr = 0 ∧ f.fromDevice ≠ f.toDevice := by
      simpa [Instr.wellFormed, MemcpyFields.wellFormed] using h
    exact ⟨hf.1, Option.ne_none_iff_isSome.mp fun hn => hf.2 ((copyRoute_none f).mp hn)⟩
  · have hf : f.rsvd = 0 ∧ f.destCache.toNat < 2 := by
      simpa [Instr.wellFormed, MemsetFields.wellFormed] using h
    simp [instrDispatchCheck, memsetDispatchCheck, hf.1, Nat.not_le.mpr hf.2]
  · have hf : f.wellFormed func = true := by cases func <;> exact h
    have hz : f.flagsRsvd = 0 := by
      simp only [CvoFields.wellFormed, Bool.and_eq_true, beq_iff_eq] at hf
      exact hf.1.1
    simp [instrDispatchCheck_cvoInstr, cvoDispatchCheck, hz]

theorem dispatchCheck_of_wellFormed {w : Word} {i : Instr} (hd : decode w = .ok i) (h : i.wellFormed = true) :
    dispatchCheck w = .ok () := by
  simp only [dispatchCheck, hd]
  exact instrDispatchCheck_of_wellFormed h

/-! ### The masks of the reserved fields -/

/-- The bits of the field of `len` bits at bit `start`, as a mask. -/
def fieldMask (start len : Nat) : Word := (BitVec.allOnes len).setWidth 64 <<< start

theorem getLsbD_fieldMask {start len i : Nat} (hi : i < 64) :
    (fieldMask start len).getLsbD i = (decide (start ≤ i) && decide (i < start + len)) := by
  rw [Bool.eq_iff_iff]
  simp only [fieldMask, BitVec.getLsbD_shiftLeft, BitVec.getLsbD_setWidth, BitVec.getLsbD_allOnes, hi, Bool.and_eq_true,
    Bool.not_eq_true', decide_eq_true_eq, decide_eq_false_iff_not, true_and]
  omega

/-- A field is zero exactly where its mask finds no bit set. -/
theorem and_fieldMask_eq_zero_iff (w : Word) (start len : Nat) :
    w &&& fieldMask start len = 0#64 ↔ w.extractLsb' start len = 0 := by
  constructor
  · intro h
    apply BitVec.eq_of_getLsbD_eq
    intro i hi
    by_cases hs : start + i < 64
    · have := congrArg (fun v => BitVec.getLsbD v (start + i)) h
      simpa [getLsbD_fieldMask hs, hi, -BitVec.getLsbD_eq_getElem] using this
    · simp [hi, BitVec.getLsbD_of_ge w (start + i) (by omega)]
  · intro h
    apply BitVec.eq_of_getLsbD_eq
    intro i hi
    rw [BitVec.getLsbD_and, getLsbD_fieldMask hi]
    by_cases hin : start ≤ i ∧ i < start + len
    · have := congrArg (fun v => BitVec.getLsbD v (i - start)) h
      have hlt : i - start < len := by omega
      have hadd : start + (i - start) = i := by omega
      simp only [BitVec.getLsbD_extractLsb', hlt, hadd, decide_true, Bool.true_and] at this
      rw [this, BitVec.ofNat_eq_ofNat, BitVec.getLsbD_zero, Bool.false_and, BitVec.getLsbD_zero]
    · rcases not_and_or.mp hin with hlo | hhi
      · simp [hlo]
      · simp [hhi]

/-- The reserved fields of format G under the mask of spec/opcode_table.json. -/
theorem gemxReserved_eq_zero_iff (w : Word) :
    w &&& 0x0000000000700007#64 = 0#64 ↔ (decodeGemx w).flagsRsvd = 0 ∧ (decodeGemx w).rsvd = 0 := by
  have hmask : 0x0000000000700007#64 = fieldMask 20 3 ||| fieldMask 0 3 := by decide
  rw [hmask, BitVec.and_or_distrib_left, BitVec.or_eq_zero_iff, and_fieldMask_eq_zero_iff, and_fieldMask_eq_zero_iff]
  rfl

theorem memcpyReserved_eq_zero_iff (w : Word) :
    w &&& 0x0000000000FFFF80#64 = 0#64 ↔ (decodeMemcpy w).auxAddr = 0 := by
  have hmask : 0x0000000000FFFF80#64 = fieldMask 7 17 := by decide
  rw [hmask, and_fieldMask_eq_zero_iff]
  rfl

theorem memsetReserved_eq_zero_iff (w : Word) :
    w &&& 0x000000000000000F#64 = 0#64 ↔ (decodeMemset w).rsvd = 0 := by
  have hmask : 0x000000000000000F#64 = fieldMask 0 4 := by decide
  rw [hmask, and_fieldMask_eq_zero_iff]
  rfl

theorem cvoReserved_eq_zero_iff (w : Word) :
    w &&& 0x0000000000000006#64 = 0#64 ↔ (decodeCvo w).flagsRsvd = 0 := by
  have hmask : 0x0000000000000006#64 = fieldMask 1 2 := by decide
  rw [hmask, and_fieldMask_eq_zero_iff]
  rfl

/-! ### What the checks refuse, in their order -/

theorem gemxDispatchCheck_reserved {f : GemxFields} (h : ¬(f.flagsRsvd = 0 ∧ f.rsvd = 0)) :
    gemxDispatchCheck f = .error (.refused .reservedFieldNonzero) := by
  have hbit : (f.rsvd != 0 || f.flagsRsvd != 0) = true := by
    simp only [Bool.or_eq_true, bne_iff_ne]
    tauto
  rw [gemxDispatchCheck, hbit]
  rfl

theorem gemxDispatchCheck_zeroLanes {f : GemxFields} (h : f.flagsRsvd = 0 ∧ f.rsvd = 0) (hl : f.parallelLane = 0) :
    gemxDispatchCheck f = .error (.refused .zeroLanes) := by
  simp [gemxDispatchCheck, h, hl]

theorem memcpyDispatchCheck_reserved {f : MemcpyFields} (h : f.auxAddr ≠ 0) :
    memcpyDispatchCheck f = .error (.refused .reservedFieldNonzero) := by
  rw [memcpyDispatchCheck, bne_iff_ne.mpr h]
  rfl

theorem memcpyDispatchCheck_noRoute {f : MemcpyFields} (h : f.auxAddr = 0) (hr : f.fromDevice = f.toDevice) :
    memcpyDispatchCheck f = .error (.refused .memcpyRouteUnspecified) := by
  simp [memcpyDispatchCheck, h, (copyRoute_none f).mpr hr]

theorem memsetDispatchCheck_reserved {f : MemsetFields} (h : f.rsvd ≠ 0) :
    memsetDispatchCheck f = .error (.refused .reservedFieldNonzero) := by
  rw [memsetDispatchCheck, bne_iff_ne.mpr h]
  rfl

theorem memsetDispatchCheck_undefinedCache {f : MemsetFields} (h : f.rsvd = 0) (hc : 2 ≤ f.destCache.toNat) :
    memsetDispatchCheck f = .error (.refused .undefinedDestCache) := by
  simp [memsetDispatchCheck, h, hc]

theorem cvoDispatchCheck_reserved {flagsRsvd : BitVec 2} (h : flagsRsvd ≠ 0) :
    cvoDispatchCheck flagsRsvd = .error (.refused .reservedFieldNonzero) := by
  rw [cvoDispatchCheck, bne_iff_ne.mpr h]
  rfl

/-! ### The dispatch step -/

/-- Where its queue has room, the dispatch step makes the checks (R244). -/
theorem dispatch_of_room {s : State} {en : Entry} {e : Engine} (hl : s.latched = some en)
    (he : engineOfOpcode (opcodeOf en.word) = some e) (hroom : fifoHasRoom e s = true) :
    dispatch s = toResult (do dispatchCheck en.word; return dispatchState e en s) := by
  simp only [dispatch, hl, he, hroom, if_true]

/-- Where its queue is full, it does nothing (R254). -/
theorem dispatch_of_full {s : State} {en : Entry} {e : Engine} (hl : s.latched = some en)
    (he : engineOfOpcode (opcodeOf en.word) = some e) (hfull : fifoDepth s.platform e ≤ (s.fifo.get e).length) :
    dispatch s = .next s := by
  have hroom : fifoHasRoom e s = false := decide_eq_false (Nat.not_lt.mpr hfull)
  simp only [dispatch, hl, he, hroom, Bool.false_eq_true, if_false]

/-- A reserved opcode faults, room or not (R103). -/
theorem step_faultsReservedOpcode {s : State} {en : Entry} {rest : List Move} (hr : Running s)
    (hs : s.script = .dispatch :: rest) (hl : s.latched = some en) (hop : 5 ≤ en.word.toNat / 2 ^ 60) :
    step s = .fault (.reservedOpcode en.word) := by
  rw [← opcodeOf_toNat, ← engineOfOpcode_none_iff] at hop
  rw [step_of_script hr hs]
  simp only [moveStep, dispatch, hl, hop]

/-- A word of a defined opcode that fails a check is refused where the dispatch step is enabled (R244). -/
theorem step_refusesDispatch {s : State} {en : Entry} {rest : List Move} {r : Refusal} (hr : Running s)
    (hs : s.script = .dispatch :: rest) (hl : s.latched = some en) (hen : dispatchEnabled s = true)
    (hop : en.word.toNat / 2 ^ 60 < 5) (hc : dispatchCheck en.word = .error (.refused r)) : step s = .refused r := by
  obtain ⟨en', hl', hroom⟩ := (dispatchEnabled_iff s).mp hen
  obtain rfl : en = en' := Option.some.inj (hl.symm.trans hl')
  rw [step_of_script hr hs]
  cases he : engineOfOpcode (opcodeOf en.word) with
  | none =>
    rw [engineOfOpcode_none_iff, opcodeOf_toNat] at he
    omega
  | some e =>
    refine (dispatch_of_room (s := { s with script := rest }) hl he (hroom e he)).trans ?_
    rw [hc]
    rfl

/-! ### The engines -/

/-- An idle engine's step runs the head of its queue (R251). -/
theorem step_runsHead {s : State} {e : Engine} {en : Entry} {entries : List Entry} {rest : List Move} (hr : Running s)
    (hs : s.script = .engine e :: rest) (hidle : s.running.get e = none) (hq : s.fifo.get e = en :: entries) :
    step s = runEntry e en (popState e en entries { s with script := rest }) := by
  rw [step_of_script hr hs]
  exact engineStep_enabled (s := { s with script := rest }) hidle hq

theorem runEntry_of_decode {e : Engine} {en : Entry} {i : Instr} (s : State) (h : decode en.word = .ok i) :
    runEntry e en s = mapNext (retire e en.number) (exec i s) := by
  simp only [runEntry, h]

end Sys2Proof.Machine

namespace Sys2Proof.Proofs

open Sys2Proof.Machine

/-- Settles O21: a well-formed instruction passes each of its checks, and of a CVO word the front end looks at the reserved
flag bits alone. -/
theorem dispatchAccepts : Obligations.DispatchAccepts := by
  refine ⟨fun w i => dispatchCheck_of_wellFormed, fun w hop hmask => ?_⟩
  rw [← opcodeOf_toNat] at hop
  rw [dispatchCheck_cvo hop, (cvoReserved_eq_zero_iff w).mp hmask]
  rfl

/-- Settles O22: the opcode picks the check (`dispatchCheck_gemx` and its like), and the check refuses by name. -/
theorem dispatchRefusals : Obligations.DispatchRefusals := by
  refine fun s en rest hr hs hl => ⟨step_faultsReservedOpcode hr hs hl, fun hen =>
    ⟨fun hop => ?gemx, fun hop => ?memcpy, fun hop => ?memset, fun hop hmask => ?cvo⟩⟩
  case gemx =>
    obtain ⟨kind, hkind⟩ : ∃ kind, (opcodeOf en.word).toNat = gemxOpcode kind := by
      rw [opcodeOf_toNat]
      rcases (by omega : en.word.toNat / 2 ^ 60 = 0 ∨ en.word.toNat / 2 ^ 60 = 1) with h | h
      · exact ⟨.gemv, h⟩
      · exact ⟨.gemm, h⟩
    have refused {r : Refusal} := step_refusesDispatch (r := r) hr hs hl hen (by omega)
    simp only [Ne, gemxReserved_eq_zero_iff, dispatchCheck_gemx hkind] at refused ⊢
    refine ⟨fun hmask => refused (gemxDispatchCheck_reserved hmask), fun hmask hlanes =>
      refused (gemxDispatchCheck_zeroLanes hmask (BitVec.eq_of_toNat_eq ?_))⟩
    exact (slice_toNat en.word 3 5).trans hlanes
  case memcpy =>
    have refused {r : Refusal} := step_refusesDispatch (r := r) hr hs hl hen (by omega)
    rw [← opcodeOf_toNat] at hop
    simp only [Ne, memcpyReserved_eq_zero_iff, dispatchCheck_memcpy hop] at refused ⊢
    exact ⟨fun hmask => refused (memcpyDispatchCheck_reserved hmask),
      fun hmask hsel => refused (memcpyDispatchCheck_noRoute hmask hsel)⟩
  case memset =>
    have refused {r : Refusal} := step_refusesDispatch (r := r) hr hs hl hen (by omega)
    rw [← opcodeOf_toNat] at hop
    simp only [Ne, memsetReserved_eq_zero_iff, dispatchCheck_memset hop] at refused ⊢
    refine ⟨fun hmask => refused (memsetDispatchCheck_reserved hmask),
      fun hmask hcache => refused (memsetDispatchCheck_undefinedCache hmask ?_)⟩
    exact hcache.trans_eq (slice_toNat en.word 58 2).symm
  case cvo =>
    refine step_refusesDispatch hr hs hl hen (by omega) ?_
    rw [← opcodeOf_toNat] at hop
    rw [dispatchCheck_cvo hop]
    exact cvoDispatchCheck_reserved (mt (cvoReserved_eq_zero_iff en.word).mpr hmask)

/-- Settles O23: with the queue full the dispatch step is not enabled. -/
theorem fullFifoHoldsTheWord : Obligations.FullFifoHoldsTheWord := by
  intro s en e rest hr hs hl he hfull
  rw [step_of_script hr hs]
  exact dispatch_of_full (s := { s with script := rest }) hl he hfull

/-- Settles O25: the engine's step runs the head of its queue, and a word that decodes runs as its instruction. -/
theorem stepRunsDecodedInstruction : Obligations.StepRunsDecodedInstruction := by
  intro s e en entries rest i hr hs hidle hq hd u
  rw [step_runsHead hr hs hidle hq, runEntry_of_decode _ hd]
  change mapNext (retire e en.number) (exec i u) = _
  cases exec i u <;> rfl

/-- Settles O26: the decoder rejects the word when the engine starts it. -/
theorem reservedCvoFunctionFaults : Obligations.ReservedCvoFunctionFaults := by
  intro s en entries rest hr hs hidle hq hop hfn
  obtain ⟨func, f, hd⟩ := (decode_isReservedCvoFunc_iff en.word).mpr ⟨hop, hfn⟩
  rw [step_runsHead (e := .cvo) hr hs hidle hq]
  simp only [runEntry, hd, decodeFault]

end Sys2Proof.Proofs
end

section
/-! PROOFS. The Host agent (45_host_interface.md R270 to R285) and the two status bits (10_state.md R25 to R28): what each
access does, where it stops, and what the conflict check it makes finds (20_memory.md R77). -/

namespace Sys2Proof.Machine

/-! ### What the conflict check names -/

/-- The check finds a conflict exactly where there is one (R77, R261). -/
theorem footprintConflict_isSome_iff (a b : Footprint) : (footprintConflict a b).isSome = true ↔ a.conflicts b := by
  rw [← not_iff_not, ← footprintConflict_eq_none_iff]
  simp

/-- What two known footprints are found to share, one of them writes (R77). -/
theorem footprintConflict_known {a b : Footprint} {l : Loc} (ha : a.known = true) (hb : b.known = true)
    (h : footprintConflict a b = some (some l)) :
    a.writesLoc l ∧ (b.readsLoc l ∨ b.writesLoc l) ∨ a.readsLoc l ∧ b.writesLoc l := by
  simp only [footprintConflict, ha, hb, Bool.and_self, if_true, Option.map_eq_some_iff, Option.some.injEq,
    exists_eq_right, Option.or_eq_some_iff] at h
  rcases h with h | ⟨_, h⟩
  · obtain ⟨hw, q, hq, hl⟩ := regionsShare_some h
    rcases List.mem_append.mp hq with hq | hq
    · exact .inl ⟨hw, .inl ⟨q, hq, hl⟩⟩
    · exact .inl ⟨hw, .inr ⟨q, hq, hl⟩⟩
  · exact .inr (regionsShare_some h)

theorem footprintConflict_unknown {a b : Footprint} (h : ¬(a.known = true ∧ b.known = true)) :
    footprintConflict a b = some (unknownShare a b) := by
  rw [footprintConflict, if_neg (by simpa using h)]

/-- The first location of a region lies in it; a region without one holds nothing. -/
theorem regionFirst_holds {r : Region} {l : Loc} (h : regionFirst r = some l) : r.holds l := by
  cases r <;> simp only [regionFirst, Option.ite_none_left_eq_some, Option.some.injEq] at h
  case eMax => subst h; trivial
  case fmapShape | weightShape => subst h; rfl
  case l2 | host =>
    obtain ⟨hn, rfl⟩ := h
    exact ⟨le_rfl, by omega⟩

theorem not_holds_of_regionFirst_none {r : Region} (h : regionFirst r = none) (l : Loc) : ¬r.holds l := by
  cases r <;> simp only [regionFirst, ite_eq_left_iff, reduceCtorEq, imp_false, not_not] at h
  all_goals
    subst h
    cases l <;> simp only [Region.holds, not_false_eq_true]
    omega

/-- The location `unknownShare` takes from a footprint is one it reads or writes. -/
theorem findFirst_touches {fp : Footprint} {l : Loc} (h : (fp.writes ++ fp.reads).findSome? regionFirst = some l) :
    fp.readsLoc l ∨ fp.writesLoc l := by
  obtain ⟨r, hr, h⟩ := List.exists_of_findSome?_eq_some h
  rcases List.mem_append.mp hr with hr | hr
  · exact .inr ⟨r, hr, regionFirst_holds h⟩
  · exact .inl ⟨r, hr, regionFirst_holds h⟩

theorem not_touches_of_findFirst_none {fp : Footprint}
    (h : (fp.writes ++ fp.reads).findSome? regionFirst = none) (l : Loc) : ¬(fp.readsLoc l ∨ fp.writesLoc l) := by
  rw [List.findSome?_eq_none_iff] at h
  rintro (⟨r, hr, hl⟩ | ⟨r, hr, hl⟩)
  · exact not_holds_of_regionFirst_none (h r (List.mem_append_right _ hr)) l hl
  · exact not_holds_of_regionFirst_none (h r (List.mem_append_left _ hr)) l hl

/-- Where one footprint is unknown, what is named lies in the other, if that is known (R76). -/
theorem unknownShare_some {a b : Footprint} {l : Loc} (h : unknownShare a b = some l)
    (hu : ¬(a.known = true ∧ b.known = true)) :
    (a.known = true → a.readsLoc l ∨ a.writesLoc l) ∧ (b.known = true → b.readsLoc l ∨ b.writesLoc l) := by
  unfold unknownShare at h
  split at h
  · next ha => exact ⟨fun _ => findFirst_touches h, fun hb => absurd ⟨ha, hb⟩ hu⟩
  · next ha =>
    refine ⟨fun hk => absurd hk ha, fun hb => ?_⟩
    rw [if_pos hb] at h
    exact findFirst_touches h

/-- Nothing is named only where the known one of the two holds nothing. -/
theorem unknownShare_none {a b : Footprint} (h : unknownShare a b = none) (hu : ¬(a.known = true ∧ b.known = true)) :
    (a.known = true ∧ b.known = false ∧ ∀ l, ¬(a.readsLoc l ∨ a.writesLoc l)) ∨
      (a.known = false ∧ b.known = true ∧ ∀ l, ¬(b.readsLoc l ∨ b.writesLoc l)) := by
  unfold unknownShare at h
  split at h
  · next ha => exact .inl ⟨ha, by simpa using fun hb => hu ⟨ha, hb⟩, not_touches_of_findFirst_none h⟩
  · next ha =>
    split at h
    · next hb => exact .inr ⟨by simpa using ha, hb, not_touches_of_findFirst_none h⟩
    · cases h

/-- Where something in flight conflicts with a footprint, the check stops at such an instruction, with the location found
for the two (R261). -/
theorem firstConflict_of_conflicts {fp : Footprint} {xs : List (Nat × Footprint)}
    (h : ∃ x ∈ xs, fp.conflicts x.2) :
    ∃ x ∈ xs, fp.conflicts x.2 ∧ ∃ loc, footprintConflict fp x.2 = some loc ∧
      firstConflict fp xs = some (x.1, loc) := by
  cases hf : firstConflict fp xs with
  | none =>
    obtain ⟨x, hx, hc⟩ := h
    exact absurd hc ((firstConflict_eq_none_iff_not_conflicts fp xs).mp hf x hx)
  | some c =>
    obtain ⟨g, hg, hloc⟩ := firstConflict_eq_some hf
    exact ⟨_, hg, (footprintConflict_isSome_iff _ _).mp (by simp [hloc]), c.2, hloc, rfl⟩

/-! ### The host's accesses -/

theorem hostStep_busRead_status (s : State) :
    hostStep (.busRead (s.platform.axilBase + 8) 32) s = .next (hostReadStatus s) := by
  simp [hostStep]

/-- The host stores to its own memory, where nothing in flight conflicts (R274). -/
theorem hostMemWrite_next {s : State} {b : Nat} {bytes : List Byte}
    (h : firstConflict (hostWriteFootprint b bytes.length) s.inFlight = none) :
    hostMemWrite b bytes s = .next (s.writeHostMany b bytes) := by
  simp only [hostMemWrite, h]

theorem hostMemWrite_conflict {s : State} {b k : Nat} {bytes : List Byte} {loc : Option Loc}
    (h : firstConflict (hostWriteFootprint b bytes.length) s.inFlight = some (k, loc)) :
    hostMemWrite b bytes s = .fault (.inFlightConflict (.host (.memWrite b bytes)) k loc) := by
  simp only [hostMemWrite, h]

/-- The host loads from its own memory, where nothing in flight conflicts (R274). -/
theorem hostMemRead_next {s : State} {b len : Nat} (h : firstConflict (hostReadFootprint b len) s.inFlight = none) :
    hostMemRead b len s = .next s := by
  simp only [hostMemRead, h]

theorem hostMemRead_conflict {s : State} {b len k : Nat} {loc : Option Loc}
    (h : firstConflict (hostReadFootprint b len) s.inFlight = some (k, loc)) :
    hostMemRead b len s = .fault (.inFlightConflict (.host (.memRead b len)) k loc) := by
  simp only [hostMemRead, h]

/-! ### The status bits -/

/-- STATUS bit 0 is BUSY (R25). -/
theorem status_busy (s : State) :
    s.status.getLsbD 0 = s.busy ((Config.drawStatus s.draws).getLsbD 0) := by
  rw [State.status, BitVec.getLsbD_append, if_pos (by decide)]
  simp

/-- STATUS bit 1 is DONE (R25). -/
theorem status_done (s : State) :
    s.status.getLsbD 1 = s.done ((Config.drawStatus s.draws).getLsbD 1) := by
  rw [State.status, BitVec.getLsbD_append, if_neg (by decide), BitVec.getLsbD_append, if_pos (by decide)]
  simp

/-- `ofBool_getLsbD_eq_slice` for a value of any width. -/
theorem ofBool_getLsbD_eq_extractLsb' {n : Nat} (v : BitVec n) (i : Nat) :
    BitVec.ofBool (v.getLsbD i) = v.extractLsb' i 1 := by
  apply BitVec.eq_of_getLsbD_eq
  intro j hj
  obtain rfl : j = 0 := by omega
  simp

/-- What is observed of a status value: DONE high, BUSY low (R285). -/
theorem status_observed (s : State) :
    s.status.extractLsb' 0 2 = BitVec.ofBool (s.status.getLsbD 1) ++ BitVec.ofBool (s.status.getLsbD 0) := by
  rw [ofBool_getLsbD_eq_extractLsb', ofBool_getLsbD_eq_extractLsb',
    BitVec.extractLsb'_append_extractLsb'_eq_extractLsb' (by decide)]

/-- The machine is quiescent exactly where nothing is in flight (R252, R253). -/
theorem quiescent_iff_inFlight_nil (s : State) : s.quiescent = true ↔ s.inFlight = [] := by
  simp only [State.quiescent, State.inFlight, Bool.and_eq_true, Option.isNone_iff_eq_none, List.all_eq_true,
    List.isEmpty_iff, List.append_eq_nil_iff, List.map_eq_nil_iff, List.flatMap_eq_nil_iff, Option.toList_eq_nil_iff]

/-- BUSY is 1 while something is latched, whatever is drawn (R26). -/
theorem busy_of_latched {s : State} (d : Bool) (h : s.latched ≠ none) : s.busy d = true := by
  rw [State.busy, if_pos (Option.ne_none_iff_isSome.mp h)]

/-- With nothing latched and something in flight, BUSY is as the policy says (R26). -/
theorem busy_of_policy {s : State} (d : Bool) (hl : s.latched = none) (h : s.inFlight ≠ []) :
    (s.platform.busyPolicy = .quiescent → s.busy d = true) ∧
      (s.platform.busyPolicy = .frontend → s.busy d = false) := by
  have hq : ¬s.quiescent = true := mt (quiescent_iff_inFlight_nil s).mp h
  rw [State.busy, if_neg (by simp [hl]), if_neg hq]
  exact ⟨fun hp => by simp only [hp], fun hp => by simp only [hp]⟩

theorem busy_of_quiescent {s : State} (d : Bool) (h : s.quiescent = true) : s.busy d = false := by
  have hl : s.latched = none := by
    simp only [State.quiescent, Bool.and_eq_true, Option.isNone_iff_eq_none] at h
    exact h.1.1
  rw [State.busy, if_neg (by simp [hl]), if_pos h]

/-- DONE is 0 once a fault is recorded (R292, R280). -/
theorem done_of_fault {s : State} (d : Bool) (h : s.faults ≠ []) : s.done d = false := by
  rw [State.done, if_pos (by simpa using h)]

/-- Once something was latched, DONE tells of the last instruction and of the faults (R27). -/
theorem done_iff {s : State} (d : Bool) (h : s.nLatched ≠ 0) :
    s.done d = true ↔ s.nLatched ∈ s.completed ∧ s.faults = [] := by
  by_cases hf : s.faults = []
  · simp [State.done, hf, h]
  · simp [done_of_fault d hf, hf]

/-! ### Who names a host access, and who reads STATUS -/

/-- Drain moves are those of the NPU's own agents, each enabled, in the order of the drain (log 8). -/
theorem drainMove_some {s : State} {m : Move} (h : drainMove s = some m) :
    (dispatchEnabled s = true ∧ m = .dispatch) ∨
      (dispatchEnabled s = false ∧ ∃ e, engineEnabled e s = true ∧ m = .engine e) ∨
      (dispatchEnabled s = false ∧ (∀ e, engineEnabled e s = false) ∧
        ∃ k p rest, s.pendingAsync = (k, p) :: rest ∧ m = .performAsync k) := by
  unfold drainMove at h
  split at h
  · next hd => exact .inl ⟨hd, by simpa [eq_comm] using h⟩
  · next hd =>
    have hd : dispatchEnabled s = false := by simpa using hd
    split at h
    · next e he =>
      have hen := List.find?_some (p := fun e => engineEnabled e s) he
      exact .inr (.inl ⟨hd, e, hen, by simpa [eq_comm] using h⟩)
    · next he =>
      have hall : ∀ e, engineEnabled e s = false := by
        intro e
        have hmem : e ∈ Engine.list := by cases e <;> decide
        simpa using List.find?_eq_none.mp he e hmem
      split at h
      · next k p rest hp => exact .inr (.inr ⟨hd, hall, k, p, rest, hp, by simpa [eq_comm] using h⟩)
      · cases h

/-- The drain names no access of the host. -/
theorem drainMove_ne_host {s : State} (a : HostAccess) : drainMove s ≠ some (.host a) := by
  intro h
  rcases drainMove_some h with ⟨_, hm⟩ | ⟨_, _, _, hm⟩ | ⟨_, _, _, _, _, _, hm⟩ <;> cases hm

/-- Every access of the host that answers, the status read apart, leaves the status values as they are. -/
theorem hostStep_statusReads {a : HostAccess} {s t : State} (h : hostStep a s = .next t) :
    a = .busRead (s.platform.axilBase + 8) 32 ∨ t.statusReads = s.statusReads := by
  cases a with
  | busRead addr width =>
    simp only [hostStep] at h
    split at h
    · next hc => exact .inl (by rw [hc.1, hc.2])
    · cases h
  | busWrite addr width v =>
    right
    simp only [hostStep, hostWriteLow, hostWriteHigh] at h
    split_ifs at h
    · cases h; rfl
    · split at h
      · cases h
      · split at h
        · cases h
        · cases h; rfl
  | memWrite b bytes =>
    right
    simp only [hostStep, hostMemWrite] at h
    split at h
    · cases h
    · cases h; rfl
  | memRead b len =>
    right
    simp only [hostStep, hostMemRead] at h
    split at h
    · cases h
    · cases h; rfl

/-- Every move that answers, the status read apart, leaves the status values as they are (R285). -/
theorem moveStep_statusReads {m : Move} {s t : State} (h : moveStep m s = .next t) :
    m = .host (.busRead (s.platform.axilBase + 8) 32) ∨ t.statusReads = s.statusReads := by
  cases m with
  | host a => exact (hostStep_statusReads h).imp_left (congrArg Move.host)
  | dispatch =>
    right
    rcases dispatch_next h with rfl | ⟨en, e, _, _, _, _, rfl⟩ <;> rfl
  | engine e =>
    right
    rcases engineStep_next h with rfl | ⟨en, rest, i, u, _, _, _, hx, rfl⟩
    · rfl
    · exact (congrArg State.statusReads (exec_frame hx) :)
  | performAsync k =>
    right
    rcases asyncStep_next h with rfl | ⟨p, u, _, hp, rfl⟩
    · rfl
    · exact (congrArg State.statusReads (performDeferred_frame hp) :)

end Sys2Proof.Machine

namespace Sys2Proof.Proofs

open Sys2Proof.Machine

/-- Settles O19: `footprintConflict_known` for two known footprints, `unknownShare_some` and `unknownShare_none` where one
is unknown. -/
theorem conflictIffSharedLocation : Obligations.ConflictIffSharedLocation := by
  refine ⟨footprintConflict_isSome_iff, fun a b l h => ?named, fun a b h => ?unnamed⟩
  case named =>
    by_cases hk : a.known = true ∧ b.known = true
    · have hshared := footprintConflict_known hk.1 hk.2 h
      exact ⟨fun _ _ => hshared, fun _ => by tauto, fun _ => by tauto⟩
    · rw [footprintConflict_unknown hk, Option.some.injEq] at h
      exact ⟨fun ha hb => absurd ⟨ha, hb⟩ hk, unknownShare_some h hk⟩
  case unnamed =>
    by_cases hk : a.known = true ∧ b.known = true
    · simp [footprintConflict, hk] at h
    · rw [footprintConflict_unknown hk, Option.some.injEq] at h
      exact unknownShare_none h hk

/-- Settles O13: `step_latches` where nothing conflicts, `firstConflict_of_conflicts` where something does. -/
theorem latchChecksConflicts : Obligations.LatchChecksConflicts := by
  intro s v lo rest hr hi hc hs
  have hfp : footprintOf (assembleWord lo v) { s with script := rest } = footprintOf (v ++ lo) s :=
    footprintOf_congr _ rfl rfl rfl
  refine ⟨fun hf => ?free, fun hf => ?conflict⟩
  case free =>
    rw [step_latches hr hi hc hs hf, latchState, hfp]
    rfl
  case conflict =>
    obtain ⟨x, hx, hconf, loc, hloc, hfirst⟩ := firstConflict_of_conflicts hf
    refine ⟨x, hx, hconf, loc, hloc, ?_⟩
    rw [step_of_script hr hs]
    refine (hostStep_busWrite_high v { s with script := rest }).trans (hostWriteHigh_conflict hi hc ?_)
    rw [hfp]
    exact hfirst

/-- Settles O14: both writes look at `issue_ok` first, and the latch at the low word next. -/
theorem issueDutiesChecked : Obligations.IssueDutiesChecked := by
  refine ⟨fun s v rest hr hi hs => ?_, fun s v rest hr hi hc hs => ?_⟩
  · rcases hs with hs | hs
    · rw [step_of_script hr hs]
      refine (hostStep_busWrite_low v { s with script := rest }).trans ?_
      simp only [hostWriteLow, hi, Bool.false_eq_true, if_false]
    · rw [step_of_script hr hs]
      refine (hostStep_busWrite_high v { s with script := rest }).trans ?_
      simp only [hostWriteHigh, hi, Bool.false_eq_true, if_false]
  · rw [step_of_script hr hs]
    refine (hostStep_busWrite_high v { s with script := rest }).trans ?_
    simp only [hostWriteHigh, hi, hc, if_true]

/-- Settles O15: the three accesses of the register map are the only ones with a meaning. -/
theorem otherAccessesRefused : Obligations.OtherAccessesRefused := by
  refine ⟨fun s a width v rest hr hs ha => ?_, fun s a width rest hr hs ha => ?_⟩
  · rw [step_of_script hr hs]
    simp only [moveStep, hostStep]
    rw [if_neg fun h => ha ⟨h.1, .inl h.2⟩, if_neg fun h => ha ⟨h.1, .inr h.2⟩]
  · rw [step_of_script hr hs]
    simp only [moveStep, hostStep]
    rw [if_neg ha]

/-- Settles O16: the access is `hostReadStatus`. -/
theorem statusReadChangesNothing : Obligations.StatusReadChangesNothing := by
  intro s rest hr hs
  rw [step_of_script hr hs]
  refine (hostStep_busRead_status { s with script := rest }).trans ?_
  have hok : (!s.status.getLsbD 0) = decide (s.status.getLsbD 0 = false) := by cases s.status.getLsbD 0 <;> rfl
  rw [← hok]
  rfl

/-- Settles O17: the two bits of the status value, each said once by the lemmas of `State.busy` and `State.done`. -/
theorem busyAndDone : Obligations.BusyAndDone := by
  intro s
  simp only [status_busy, status_done]
  exact ⟨busy_of_latched _, fun h => busy_of_quiescent _ ((quiescent_iff_inFlight_nil s).mpr h),
    fun hl h => (busy_of_policy _ hl h).1, fun hl h => (busy_of_policy _ hl h).2, done_iff _, done_of_fault _⟩

/-- Settles O18: `hostMemWrite` and `hostMemRead` in their two cases. -/
theorem hostMemoryAccess : Obligations.HostMemoryAccess := by
  refine ⟨fun s b bytes rest hr hs => ⟨fun hf => ?store, fun hf => ?storeConflict⟩,
    fun s b len rest hr hs => ⟨fun hf => ?load, fun hf => ?loadConflict⟩⟩
  case store =>
    refine ⟨({ s with script := rest } : State).writeHostMany b bytes, ?_, rfl, rfl,
      fun a => readHost_writeHostMany { s with script := rest } b a bytes⟩
    rw [step_of_script hr hs]
    exact hostMemWrite_next (s := { s with script := rest }) ((firstConflict_eq_none_iff_not_conflicts _ _).mpr hf)
  case storeConflict =>
    obtain ⟨x, hx, hconf, loc, hloc, hfirst⟩ := firstConflict_of_conflicts hf
    refine ⟨x, hx, hconf, loc, hloc, ?_⟩
    rw [step_of_script hr hs]
    exact hostMemWrite_conflict (s := { s with script := rest }) hfirst
  case load =>
    rw [step_of_script hr hs]
    exact hostMemRead_next (s := { s with script := rest }) ((firstConflict_eq_none_iff_not_conflicts _ _).mpr hf)
  case loadConflict =>
    obtain ⟨x, hx, hconf, loc, hloc, hfirst⟩ := firstConflict_of_conflicts hf
    refine ⟨x, hx, hconf, loc, hloc, ?_⟩
    rw [step_of_script hr hs]
    exact hostMemRead_conflict (s := { s with script := rest }) hfirst

/-- Settles O59: a status read puts the value it shows in front, and `moveStep_statusReads` rules out every other
change. -/
theorem statusValuesReadGrowOnlyByStatusReads : Obligations.StatusValuesReadGrowOnlyByStatusReads := by
  refine fun s t h => ⟨fun ⟨rest, hs⟩ => ?read, fun hno => ?other⟩
  case read =>
    rw [step_of_script (running_of_step_next h) hs] at h
    obtain rfl := Host.Outcome.next.inj ((hostStep_busRead_status { s with script := rest }).symm.trans h)
    rw [← status_observed]
    simp only [State.observedStatus, hostReadStatus_statusReads, List.reverse_cons, List.map_append]
    rfl
  case other =>
    obtain ⟨_, ⟨m, hm, hnext⟩ | ⟨rfl, _⟩⟩ := step_move h
    · rcases moveStep_statusReads hm with rfl | hreads
      · rcases hnext with hs | ⟨_, hd⟩
        · exact absurd ⟨_, hs⟩ hno
        · exact absurd hd (drainMove_ne_host _)
      · simp only [State.observedStatus, hreads]
    · rfl

/-- Settles O56: each store is empty, and an empty machine is not busy. -/
theorem resetState : Obligations.ResetState := by
  refine ⟨fun _ => rfl, fun _ => rfl, fun _ => rfl, fun _ => rfl, rfl, rfl, rfl,
    fun e => ⟨perEngine_get_all [] e, perEngine_get_all none e⟩, rfl, rfl, rfl, rfl, rfl, rfl, rfl, rfl, rfl, ?_⟩
  rw [status_busy]
  exact busy_of_quiescent _ rfl

end Sys2Proof.Proofs
end

section
/-! PROOFS. MEMSET (42_memset.md), the extents (20_memory.md R65) and the two multiplies (40_gemv_gemm.md R151): what they
compute, what they leave alone, and where they stop. -/

namespace Sys2Proof.Machine

/-! ### Descriptor entries -/

theorem readFmapShape_writeFmapShape (s : State) (p q : Ptr) (d : Descriptor) :
    (s.writeFmapShape p d).readFmapShape q = if q = p then some d else s.readFmapShape q := by
  simp only [State.readFmapShape, writeFmapShape_fmapShape, cellRead_cellWrite, BitVec.toNat_inj]

theorem readWeightShape_writeWeightShape (s : State) (p q : Ptr) (d : Descriptor) :
    (s.writeWeightShape p d).readWeightShape q = if q = p then some d else s.readWeightShape q := by
  simp only [State.readWeightShape, writeWeightShape_weightShape, cellRead_cellWrite, BitVec.toNat_inj]

/-- What a MEMSET of cache 0 answers (R191). -/
theorem exec_memset_fmapShape {f : MemsetFields} (s : State) (hr : f.rsvd = 0) (hc : f.destCache = 0) :
    exec (.memset f) s = .next (s.writeFmapShape f.destAddr (memsetEntry f)) := by
  rw [exec, execMemset, toResult_next_iff, memset_ok, if_pos hc]
  exact ⟨hr, by rw [hc]; decide, rfl⟩

/-- What a MEMSET of cache 1 answers (R191). -/
theorem exec_memset_weightShape {f : MemsetFields} (s : State) (hr : f.rsvd = 0) (hc : f.destCache = 1) :
    exec (.memset f) s = .next (s.writeWeightShape f.destAddr (memsetEntry f)) := by
  rw [exec, execMemset, toResult_next_iff, memset_ok, if_neg (by rw [hc]; decide)]
  exact ⟨hr, by rw [hc]; decide, rfl⟩

/-! ### Extents -/

theorem entryMissing_congr {depends : Bool} {d d' : Option Descriptor} (h : depends = true → d' = d) :
    entryMissing depends d' = entryMissing depends d := by
  cases depends with
  | false => rfl
  | true => rw [h rfl]

theorem entrySeen_congr {depends : Bool} {d d' : Option Descriptor} (h : depends = true → d' = d) :
    entrySeen depends d' = entrySeen depends d := by
  cases depends with
  | false => rfl
  | true => rw [h rfl]

/-- An extent depends on the pointers and on the entries its function is declared to depend on, and on no other (R65,
R147). -/
theorem gemxExtent_congr {e : GemxExtent} {b b' : GemxBundle} (hshape : b'.shapePtr = b.shapePtr)
    (hsize : b'.sizePtr = b.sizePtr) (h1 : e.depends.fmapAtShape = true → b'.fmapAtShape = b.fmapAtShape)
    (h2 : e.depends.weightAtShape = true → b'.weightAtShape = b.weightAtShape)
    (h3 : e.depends.fmapAtSize = true → b'.fmapAtSize = b.fmapAtSize)
    (h4 : e.depends.weightAtSize = true → b'.weightAtSize = b.weightAtSize) : gemxExtent e b' = gemxExtent e b := by
  dsimp only [gemxExtent]
  rw [hshape, hsize, entryMissing_congr h1, entryMissing_congr h2, entryMissing_congr h3, entryMissing_congr h4,
    entrySeen_congr h1, entrySeen_congr h2, entrySeen_congr h3, entrySeen_congr h4]

/-- As `gemxExtent_congr`, for MEMCPY (R65, R177). -/
theorem copyExtent_congr {e : CopyExtent} {b b' : CopyBundle} (hshape : b'.shapePtr = b.shapePtr)
    (h1 : e.depends.fmapAtShape = true → b'.fmapAtShape = b.fmapAtShape)
    (h2 : e.depends.weightAtShape = true → b'.weightAtShape = b.weightAtShape) :
    copyExtent e b' = copyExtent e b := by
  dsimp only [copyExtent]
  rw [hshape, entryMissing_congr h1, entryMissing_congr h2, entrySeen_congr h1, entrySeen_congr h2]

/-! ### The multiply, check by check -/

section

variable {kind : GemxKind} {f : GemxFields} {s : State} {nIn nOut : Nat}

theorem gemxDispatchCheck_pass (h1 : f.flagsRsvd = 0) (h2 : f.rsvd = 0) (h3 : f.parallelLane ≠ 0) :
    gemxDispatchCheck f = .ok () :=
  (gemxDispatchCheck_ok f ()).mpr ⟨h1, h2, h3⟩

/-- An extent without an answer is an unwritten read of the descriptors (R144). -/
theorem exec_gemx_noExtent (hc : gemxDispatchCheck f = .ok ())
    (h : gemxInLen kind f s = none ∨ gemxOutLen kind f s = none) :
    exec (gemxInstr kind f) s =
      .fault (.unwrittenRead (.descriptor [f.shapePtr, f.sizePtr]) (s.runningNumber (gemxEngine kind))) := by
  rw [exec_gemxInstr, gemx, hc]
  cases hin : gemxInLen kind f s with
  | none => rfl
  | some nIn =>
    rw [h.resolve_left (by simp [hin])]
    rfl

/-- A zero extent is refused (R151). -/
theorem exec_gemx_zeroExtent (hc : gemxDispatchCheck f = .ok ()) (hin : gemxInLen kind f s = some nIn)
    (hout : gemxOutLen kind f s = some nOut) (h : nIn = 0 ∨ nOut = 0) :
    exec (gemxInstr kind f) s = .refused .zeroExtent := by
  have hz : (nIn == 0 || nOut == 0) = true := by simpa using h
  simp only [exec_gemxInstr, gemx, hc, hin, hout, orRaise_some, run_ok_bind, hz, refuseIf_true, run_error_bind]
  rfl

/-- A range past the end of L2 is refused (R66). -/
theorem exec_gemx_overflow (hc : gemxDispatchCheck f = .ok ()) (hin : gemxInLen kind f s = some nIn)
    (hout : gemxOutLen kind f s = some nOut) (h1 : 0 < nIn) (h2 : 0 < nOut)
    (h : l2Size < f.srcAddr.toNat + nIn ∨ l2Size < f.destReg.toNat + nOut) :
    exec (gemxInstr kind f) s = .refused .addressRangeOverflow := by
  have hz : (nIn == 0 || nOut == 0) = false := by simp; omega
  simp only [exec_gemxInstr, gemx, hc, hin, hout, orRaise_some, run_ok_bind, hz, refuseIf_false]
  cases hf : fitsL2 f.srcAddr.toNat nIn with
  | false => rfl
  | true =>
    have hd : fitsL2 f.destReg.toNat nOut = false := by
      simp only [fitsL2, decide_eq_true_eq, decide_eq_false_iff_not] at hf ⊢
      omega
    rw [hd]
    rfl

/-- A multiply whose ranges lie in L2 comes to the overlap check and the reads (R151). -/
theorem exec_gemx_inRange (hc : gemxDispatchCheck f = .ok ()) (hin : gemxInLen kind f s = some nIn)
    (hout : gemxOutLen kind f s = some nOut) (h1 : 0 < nIn) (h2 : 0 < nOut) (h3 : f.srcAddr.toNat + nIn ≤ l2Size)
    (h4 : f.destReg.toNat + nOut ≤ l2Size) :
    exec (gemxInstr kind f) s = toResult (do
      refuseIf (rangesMeet f.srcAddr.toNat nIn f.destReg.toNat nOut) .operandOverlap
      let x ← s.readL2Many (s.runningNumber (gemxEngine kind)) f.srcAddr.toNat nIn
      let old ← gemxOld f s (s.runningNumber (gemxEngine kind)) nOut
      let out := (List.range nOut).map (gemxElem kind f s x old)
      return { s.writeL2Many f.destReg.toNat out with eMax := gemxEmax kind f s out }) := by
  have hz : (nIn == 0 || nOut == 0) = false := by simp; omega
  have hf : fitsL2 f.srcAddr.toNat nIn = true := decide_eq_true h3
  have hd : fitsL2 f.destReg.toNat nOut = true := decide_eq_true h4
  simp only [exec_gemxInstr, gemx, hc, hin, hout, orRaise_some, run_ok_bind, hz, refuseIf_false, hf, hd, Bool.not_true]

/-- Past all its checks a multiply faults at the first empty location of its source (R46, log 31). -/
theorem exec_gemx_emptySource (h : GemxReady kind f s nIn nOut) {a : Nat}
    (he : FirstEmpty s f.srcAddr.toNat nIn a) :
    exec (gemxInstr kind f) s = .fault (.unwrittenRead (.l2 a) (s.runningNumber (gemxEngine kind))) := by
  obtain ⟨h1, h2, h3, hin, hout, h4, h5, h6, h7, h8⟩ := h
  rw [exec_gemx_inRange (gemxDispatchCheck_pass h1 h2 h3) hin hout h4 h5 h6 h7,
    (rangesMeet_eq_false _ _ _ _ h4 h5).mpr h8, readL2Many_firstEmpty _ he]
  rfl

/-- With `accm` it faults at the first empty location of its destination (R144, log 31). -/
theorem exec_gemx_emptyDest (h : GemxReady kind f s nIn nOut) {x : Nat → Elem} {a : Nat} (hacc : f.accm = true)
    (hx : L2Holds s f.srcAddr.toNat nIn x) (he : FirstEmpty s f.destReg.toNat nOut a) :
    exec (gemxInstr kind f) s = .fault (.unwrittenRead (.l2 a) (s.runningNumber (gemxEngine kind))) := by
  obtain ⟨h1, h2, h3, hin, hout, h4, h5, h6, h7, h8⟩ := h
  rw [exec_gemx_inRange (gemxDispatchCheck_pass h1 h2 h3) hin hout h4 h5 h6 h7,
    (rangesMeet_eq_false _ _ _ _ h4 h5).mpr h8, readL2Many_of_holds _ hx, gemxOld, if_pos hacc,
    readL2Many_firstEmpty _ he]
  rfl

/-- A state that differs from `s` in L2 only is `s` with another L2. -/
theorem eq_withL2_of_onlyL2Range {s s' : State} {b n : Nat} (h : OnlyL2Range s s' b n) :
    s' = { s with l2 := s'.l2 } := by
  rw [← h.2]

/-- The checks of a multiply look at no L2 content. -/
theorem GemxReady.of_onlyL2Range {s' : State} {b n : Nat} (h : GemxReady kind f s nIn nOut)
    (hs : OnlyL2Range s s' b n) : GemxReady kind f s' nIn nOut := by
  rw [eq_withL2_of_onlyL2Range hs]
  exact h

theorem gemxBundle_of_onlyL2Range {s' : State} {b n : Nat} (hs : OnlyL2Range s s' b n) :
    gemxBundle f s' = gemxBundle f s := by
  rw [eq_withL2_of_onlyL2Range hs]
  rfl

/-- An operand apart from the range in which two states differ is held in both. -/
theorem l2Holds_of_onlyL2Range {s' : State} {b n b' n' : Nat} {x : Nat → Elem} (hs : OnlyL2Range s s' b' n')
    (hx : L2Holds s b n x) (ha : Apart b n b' n') : L2Holds s' b n x := by
  intro i hi
  rw [hs.1 (b + i) (by unfold Apart at ha; omega)]
  exact hx i hi

/-- What a multiply leaves at its destination (R151). -/
theorem exec_gemx_holds {x : Nat → Elem} {old : Option (List Elem)} (h : GemxReady kind f s nIn nOut)
    (hx : L2Holds s f.srcAddr.toNat nIn x)
    (ho : gemxOld f s (s.runningNumber (gemxEngine kind)) nOut = .ok old) :
    ∃ t, exec (gemxInstr kind f) s = .next t ∧
      L2Holds t f.destReg.toNat nOut (productElem kind f (gemxBundle f s) ((List.range nIn).map x) old) :=
  ⟨_, exec_gemx_ready old h hx ho, l2Holds_writeL2Many s _ _ _⟩

end

end Sys2Proof.Machine

namespace Sys2Proof.Proofs

open Sys2Proof.Machine

/-- Settles O27: what MEMSET answers for each of its caches, and the read rules of the two caches. -/
theorem memsetResult : Obligations.MemsetResult := fun f s hr =>
  ⟨fun hc => ⟨_, exec_memset_fmapShape s hr hc, fun p => readFmapShape_writeFmapShape s f.destAddr p _, rfl⟩,
    fun hc => ⟨_, exec_memset_weightShape s hr hc, fun p => readWeightShape_writeWeightShape s f.destAddr p _, rfl⟩⟩

/-- Settles O57: the laws of the two extent functions, at the bundle of an instruction. -/
theorem extentsDependOnDeclaredEntries : Obligations.ExtentsDependOnDeclaredEntries :=
  ⟨fun e f s => gemxExtent_eq_none_iff e (gemxBundle f s), fun _ f s s' =>
      gemxExtent_congr (b := gemxBundle f s) (b' := gemxBundle f s') rfl rfl,
    fun e f s => copyExtent_eq_none_iff e (copyBundle f s), fun _ f s s' =>
      copyExtent_congr (b := copyBundle f s) (b' := copyBundle f s') rfl⟩

/-- Settles O28: `exec_gemx_ready` gives the whole next state, with the old destination where `accm` asks for it. -/
theorem multiplyResult : Obligations.MultiplyResult := by
  intro kind f s nIn nOut x y h hx hy d z
  have ho : gemxOld f s (s.runningNumber (gemxEngine kind)) nOut =
      .ok (if f.accm then some ((List.range nOut).map y) else none) := by
    cases hacc : f.accm with
    | false => exact gemxOld_noAccm hacc
    | true => exact gemxOld_accm hacc (hy hacc)
  refine ⟨_, exec_gemx_ready _ h hx ho, l2Holds_writeL2Many s _ _ _, rfl, ?_⟩
  exact onlyL2Range_writeL2Many s _ _ _ (by simp)

/-- Settles O29: with `accm` by `gemxOld_accm`, without it the two states give the same product. -/
theorem multiplyAccumulate : Obligations.MultiplyAccumulate := by
  refine ⟨fun kind f s nIn nOut x y hacc h hx hy => exec_gemx_holds h hx (gemxOld_accm hacc hy),
    fun kind f s nIn nOut a x hacc h hx he => exec_gemx_emptyDest h hacc hx he,
    fun kind f s s' nIn nOut x hacc h hx hs => ?_⟩
  obtain ⟨t, ht, hz⟩ := exec_gemx_holds h hx (gemxOld_noAccm hacc)
  obtain ⟨_, _, _, _, _, _, _, _, _, hapart⟩ := id h
  obtain ⟨t', ht', hz'⟩ :=
    exec_gemx_holds (h.of_onlyL2Range hs) (l2Holds_of_onlyL2Range hs hx hapart) (gemxOld_noAccm hacc)
  rw [gemxBundle_of_onlyL2Range hs] at hz'
  exact ⟨t, t', ht, ht', hz, hz'⟩

/-- Settles O30: one lemma for each check, in their order. -/
theorem multiplyStops : Obligations.MultiplyStops := by
  intro kind f s h1 h2 h3
  have hc : gemxDispatchCheck f = .ok () := gemxDispatchCheck_pass h1 h2 h3
  refine ⟨exec_gemx_noExtent hc, fun nIn nOut hin hout => ⟨exec_gemx_zeroExtent hc hin hout, fun h4 h5 =>
    ⟨exec_gemx_overflow hc hin hout h4 h5, fun h6 h7 => ⟨fun hmeet => ?overlap, fun hapart a he => ?empty⟩⟩⟩⟩
  case overlap =>
    rw [exec_gemx_inRange hc hin hout h4 h5 h6 h7, rangesMeet_eq_true h4 h5 hmeet]
    rfl
  case empty => exact exec_gemx_emptySource ⟨h1, h2, h3, hin, hout, h4, h5, h6, h7, hapart⟩ he

end Sys2Proof.Proofs
end

section
/-! PROOFS. MEMCPY (41_memcpy.md R171 to R180): what a copy does in either direction, what an accepted one leaves pending,
where it stops, and what its footprint holds. -/

namespace Sys2Proof.Machine

section

variable {route : CopyRoute} {f : MemcpyFields} {s : State} {n : Nat}

/-- A MEMCPY with a route comes to the lookup of its extent (R171). -/
theorem exec_memcpy_routed (ha : f.auxAddr = 0) (hr : copyRoute f = some route) :
    exec (.memcpy f) s = toResult (do
      let n ← orRaise (copyLen route f s) (.unwrittenRead (.descriptor [f.shapePtr]) (s.runningNumber .mem))
      refuseIf (n == 0) .zeroExtent
      refuseIf (route == .l2ToHost && !fitsL2 f.srcAddr.toNat n) .addressRangeOverflow
      refuseIf (route == .hostToL2 && !fitsL2 f.destAddr.toNat n) .addressRangeOverflow
      if f.async then return s.addPending .mem (.copy route f.destAddr f.srcAddr n)
      else copyTransfer route f.destAddr f.srcAddr n (s.runningNumber .mem) s) := by
  have hc : memcpyDispatchCheck f = .ok () := (memcpyDispatchCheck_ok f ()).mpr ⟨ha, by simp [hr]⟩
  simp only [exec, execMemcpy, memcpy, hc, run_ok_bind, hr]

/-- A MEMCPY whose checks pass is accepted, or makes its transfer at once (R171, R180). -/
theorem exec_memcpy_ready (h : MemcpyReady route f s n) :
    exec (.memcpy f) s = toResult (if f.async then .ok (s.addPending .mem (.copy route f.destAddr f.srcAddr n))
      else copyTransfer route f.destAddr f.srcAddr n (s.runningNumber .mem) s) := by
  obtain ⟨ha, hr, hn, hpos, hsrc, hdest⟩ := h
  have hzero : (n == 0) = false := by simpa using hpos.ne'
  have hsrc : (route == .l2ToHost && !fitsL2 f.srcAddr.toNat n) = false := by
    cases route with
    | hostToL2 => rfl
    | l2ToHost => simpa [fitsL2] using hsrc rfl
  have hdest : (route == .hostToL2 && !fitsL2 f.destAddr.toNat n) = false := by
    cases route with
    | hostToL2 => simpa [fitsL2] using hdest rfl
    | l2ToHost => rfl
  simp only [exec_memcpy_routed ha hr, hn, orRaise_some, run_ok_bind, hzero, hsrc, hdest, refuseIf_false, run_pure]

theorem exec_memcpy_noExtent (ha : f.auxAddr = 0) (hr : copyRoute f = some route) (hn : copyLen route f s = none) :
    exec (.memcpy f) s = .fault (.unwrittenRead (.descriptor [f.shapePtr]) (s.runningNumber .mem)) := by
  rw [exec_memcpy_routed ha hr, hn]
  rfl

theorem exec_memcpy_zeroExtent (ha : f.auxAddr = 0) (hr : copyRoute f = some route)
    (hn : copyLen route f s = some 0) : exec (.memcpy f) s = .refused .zeroExtent := by
  rw [exec_memcpy_routed ha hr, hn]
  rfl

/-- The L2 side of a copy past the end of L2 is refused (R66). -/
theorem exec_memcpy_overflow (ha : f.auxAddr = 0) (hr : copyRoute f = some route) (hn : copyLen route f s = some n)
    (hpos : 0 < n) (h : l2Size < (match route with | .l2ToHost => f.srcAddr | .hostToL2 => f.destAddr).toNat + n) :
    exec (.memcpy f) s = .refused .addressRangeOverflow := by
  have hzero : (n == 0) = false := by simpa using hpos.ne'
  rw [exec_memcpy_routed ha hr, hn, orRaise_some, run_ok_bind, hzero, refuseIf_false, run_ok_bind]
  cases route with
  | hostToL2 =>
    have hd : fitsL2 f.destAddr.toNat n = false := decide_eq_false (Nat.not_le.mpr h)
    rw [hd]
    rfl
  | l2ToHost =>
    have hs : fitsL2 f.srcAddr.toNat n = false := decide_eq_false (Nat.not_le.mpr h)
    rw [hs]
    rfl

/-- The host-to-L2 transfer, where its range may be reached (R176). -/
theorem copyFromHost_of_range {dest src : Addr} {b len : Nat} (h : hostRange s.platform src n = some (b, len)) :
    copyFromHost dest src n s = .ok (s.writeL2Many dest.toNat (s.readHostElems b len n)) := by
  rw [copyFromHost, h]
  rfl

/-- The L2-to-host transfer, where its source is held and its range may be reached (R173). -/
theorem copyToHost_of_range {dest src : Addr} {b len k : Nat} {x : Nat → Elem} (hx : L2Holds s src.toNat n x)
    (h : hostRange s.platform dest n = some (b, len)) :
    copyToHost dest src n k s = .ok (s.writeHostMany b (encodeHost ((List.range n).map x) len)) := by
  rw [copyToHost, readL2Many_of_holds k hx, h]
  rfl

theorem copyFromHost_unmapped {dest src : Addr} (h : hostRange s.platform src n = none) :
    copyFromHost dest src n s = .error (.fault (.hostMemoryFault .hostToL2 src n)) := by
  rw [copyFromHost, h]
  rfl

theorem copyToHost_unmapped {dest src : Addr} {k : Nat} {x : Nat → Elem} (hx : L2Holds s src.toNat n x)
    (h : hostRange s.platform dest n = none) :
    copyToHost dest src n k s = .error (.fault (.hostMemoryFault .l2ToHost dest n)) := by
  rw [copyToHost, readL2Many_of_holds k hx, h]
  rfl

theorem copyToHost_emptySource {dest src : Addr} {k a : Nat} (he : FirstEmpty s src.toNat n a) :
    copyToHost dest src n k s = .error (.fault (.unwrittenRead (.l2 a) k)) := by
  rw [copyToHost, readL2Many_firstEmpty k he]
  rfl

theorem exec_memcpy_sync (h : MemcpyReady route f s n) (hsync : f.async = false) :
    exec (.memcpy f) s = toResult (copyTransfer route f.destAddr f.srcAddr n (s.runningNumber .mem) s) := by
  rw [exec_memcpy_ready h, hsync]
  rfl

/-- The host image of `len` bytes, byte by byte (R64). -/
theorem getElem?_encodeHost {vs : List Elem} {len i : Nat} (h : i < len) :
    (encodeHost vs len)[i]? = some (Config.hostEncode vs i) := by
  simp [encodeHost, h]

/-! ### Pending operations -/

/-- What is pending after an operation of a running engine joins it (R42, R251). -/
theorem cellRead_addPending {e : Engine} {en : Entry} (op : Deferred) (hr : s.running.get e = some en) (k : Nat) :
    cellRead (s.addPending e op).pendingAsync k =
      if k = en.number then some { op := op, footprint := en.footprint } else cellRead s.pendingAsync k := by
  simp only [State.addPending, State.runningNumber, State.runningFootprint, hr, cellRead_cellWrite]

/-! ### The footprint of a copy -/

theorem memcpyFootprint_unknown (hr : copyRoute f = some route) (hn : copyLen route f s = none) :
    memcpyFootprint f s = unknownFootprint := by
  simp only [memcpyFootprint, hr, hn]

theorem memcpyFootprint_hostToL2 (hr : copyRoute f = some .hostToL2) (hn : copyLen .hostToL2 f s = some n) :
    memcpyFootprint f s =
      { known := true
        reads := [.fmapShape f.shapePtr, .weightShape f.shapePtr] ++ hostRegions s.platform f.srcAddr n
        writes := [.l2 f.destAddr.toNat n] } := by
  simp only [memcpyFootprint, hr, hn]

theorem memcpyFootprint_l2ToHost (hr : copyRoute f = some .l2ToHost) (hn : copyLen .l2ToHost f s = some n) :
    memcpyFootprint f s =
      { known := true
        reads := [.fmapShape f.shapePtr, .weightShape f.shapePtr, .l2 f.srcAddr.toNat n]
        writes := hostRegions s.platform f.destAddr n } := by
  simp only [memcpyFootprint, hr, hn]
  rfl

theorem hostRegions_of_address {p : Platform} {field : Addr} {b : Nat} (h : p.hostAddr.lookup field = some b)
    (n : Nat) : hostRegions p field n = [.host b (codecSize p n)] := by
  simp [hostRegions, hostImage, h]

theorem holds_l2_iff (b n : Nat) (l : Loc) : (Region.l2 b n).holds l ↔ ∃ a, l = .l2 a ∧ b ≤ a ∧ a < b + n := by
  cases l <;> simp [Region.holds]

theorem holds_host_iff (b n : Nat) (l : Loc) : (Region.host b n).holds l ↔ ∃ a, l = .host a ∧ b ≤ a ∧ a < b + n := by
  cases l <;> simp [Region.holds]

theorem holds_fmapShape_iff (p : Ptr) (l : Loc) : (Region.fmapShape p).holds l ↔ l = .fmapShape p := by
  cases l <;> simp [Region.holds, eq_comm]

theorem holds_weightShape_iff (p : Ptr) (l : Loc) : (Region.weightShape p).holds l ↔ l = .weightShape p := by
  cases l <;> simp [Region.holds, eq_comm]

theorem holds_eMax_iff (l : Loc) : Region.eMax.holds l ↔ l = .eMax := by
  cases l <;> simp [Region.holds]

end

end Sys2Proof.Machine

namespace Sys2Proof.Proofs

open Sys2Proof.Machine

/-- Settles O31: `copyFromHost_of_range`, and the read rule of L2. -/
theorem copyFromHostResult : Obligations.CopyFromHostResult := by
  intro f s n b len h hsync hrange
  refine ⟨s.writeL2Many f.destAddr.toNat (s.readHostElems b len n), ?_, onlyL2Range_writeL2Many s _ _ _ (by simp),
    l2Holds_writeL2Many s _ _ _⟩
  rw [exec_memcpy_sync h hsync, copyTransfer, copyFromHost_of_range hrange, toResult_ok]

/-- Settles O32: `copyToHost_of_range`, and the read rule of host memory. -/
theorem copyToHostResult : Obligations.CopyToHostResult := by
  intro f s n b len x h hsync hx hrange
  refine ⟨s.writeHostMany b (encodeHost ((List.range n).map x) len), ?_, rfl, fun a => ?_⟩
  · rw [exec_memcpy_sync h hsync, copyTransfer, copyToHost_of_range hx hrange, toResult_ok]
  · rw [readHost_writeHostMany, length_encodeHost]
    split
    · exact getElem?_encodeHost (by omega)
    · rfl

/-- Settles O33: `cellRead_addPending`. -/
theorem copyAccepted : Obligations.CopyAccepted := by
  intro route f s n en h hasync hrun
  refine ⟨s.addPending .mem (.copy route f.destAddr f.srcAddr n), ?_, rfl, cellRead_addPending _ hrun⟩
  rw [exec_memcpy_ready h, if_pos hasync, toResult_ok]

/-- Settles O34: one lemma for each check and each read, in their order. -/
theorem copyStops : Obligations.CopyStops := by
  refine fun route f s ha hr => ⟨exec_memcpy_noExtent ha hr, exec_memcpy_zeroExtent ha hr, fun n hn hpos =>
    ⟨fun hroute h => ?srcRange, fun hroute h => ?destRange, fun hsync hroute hfit hrange => ?unmappedSource,
      fun hsync hroute hfit => ⟨fun a he => ?emptySource, fun x hx hrange => ?unmappedDest⟩⟩⟩
  case srcRange => subst hroute; exact exec_memcpy_overflow ha hr hn hpos h
  case destRange => subst hroute; exact exec_memcpy_overflow ha hr hn hpos h
  case unmappedSource =>
    subst hroute
    have hready : MemcpyReady .hostToL2 f s n := ⟨ha, hr, hn, hpos, nofun, fun _ => hfit⟩
    rw [exec_memcpy_sync hready hsync, copyTransfer, copyFromHost_unmapped hrange]
    rfl
  all_goals
    subst hroute
    have hready : MemcpyReady .l2ToHost f s n := ⟨ha, hr, hn, hpos, fun _ => hfit, nofun⟩
    rw [exec_memcpy_sync hready hsync, copyTransfer]
  case emptySource =>
    rw [copyToHost_emptySource he]
    rfl
  case unmappedDest =>
    rw [copyToHost_unmapped hx hrange]
    rfl

/-- Settles O60: the three forms of a copy's footprint, and what each region holds. -/
theorem copyFootprint : Obligations.CopyFootprint := by
  refine ⟨fun route f s hr => ?unknown, fun f s n b l hr hn hb => ?fromHost, fun f s n b l hr hn hb => ?toHost⟩
  case unknown =>
    change (memcpyFootprint f s).known = false ↔ _
    cases hn : copyLen route f s with
    | none => simp [memcpyFootprint_unknown hr hn, unknownFootprint]
    | some n =>
      cases route with
      | hostToL2 => simp [memcpyFootprint_hostToL2 hr hn]
      | l2ToHost => simp [memcpyFootprint_l2ToHost hr hn]
  case fromHost =>
    simp [Footprint.readsLoc, Footprint.writesLoc, instrFootprint, memcpyFootprint_hostToL2 hr hn,
      hostRegions_of_address hb, holds_l2_iff, holds_host_iff, holds_fmapShape_iff, holds_weightShape_iff]
  case toHost =>
    simp [Footprint.readsLoc, Footprint.writesLoc, instrFootprint, memcpyFootprint_l2ToHost hr hn,
      hostRegions_of_address hb, holds_l2_iff, holds_host_iff, holds_fmapShape_iff, holds_weightShape_iff]

end Sys2Proof.Proofs
end

section
/-! PROOFS. The eight functions of OP_CVO (43_cvo.md R201 to R223): what each writes, the flag `accm`, what an accepted
instruction leaves pending, and where each check and each read stops. -/

namespace Sys2Proof.Machine

section

variable {func : CvoFunc} {f : CvoFields} {s : State}

/-! ### The values a CVO function handles -/

/-- Element `i` of the input, reduced by e_max with `sub_emax` (R209). -/
def reducedElem (f : CvoFields) (m : Emax) (x : Nat → Elem) (i : Nat) : Elem :=
  if f.subEmax then Config.cvoSub (x i) (Config.emaxToElem m) else x i

/-- Element `i` of the output, added to the old destination with `accm` (R211). -/
def accumulatedElem (f : CvoFields) (y v : Nat → Elem) (i : Nat) : Elem :=
  if f.accm then Config.cvoAdd (y i) (v i) else v i

/-- The reads of a CVO function's input, where it is held: the elements, reduced (R209). -/
theorem subtractEmax_holds {k n : Nat} {x : Nat → Elem} {m : Emax} (hm : f.subEmax = true → s.eMax = some m) :
    subtractEmax f s k ((List.range n).map x) = .ok ((List.range n).map (reducedElem f m x)) :=
  subtractEmax_range hm

theorem accumulate_holds {k n : Nat} {y v : Nat → Elem} (hy : f.accm = true → L2Holds s f.dstAddr.toNat n y) :
    accumulate f s k ((List.range n).map v) = .ok ((List.range n).map (accumulatedElem f y v)) :=
  accumulate_range hy

/-- What the element-wise skeleton stores (R218). -/
theorem cvoMap_holds {g : Elem → Elem} {k : Nat} {x y : Nat → Elem} {m : Emax}
    (hx : L2Holds s f.srcAddr.toNat f.length.toNat x) (hm : f.subEmax = true → s.eMax = some m)
    (hy : f.accm = true → L2Holds s f.dstAddr.toNat f.length.toNat y) :
    cvoMap g f k s = .ok (s.writeL2Many f.dstAddr.toNat
      ((List.range f.length.toNat).map (accumulatedElem f y fun i => g (reducedElem f m x i)))) := by
  rw [cvoMap, readL2Many_of_holds k hx, run_ok_bind, subtractEmax_holds hm, run_ok_bind, List.map_map,
    accumulate_holds hy]
  rfl

/-- What CVO_REDUCE_SUM stores (R206). -/
theorem effectsCvoReduceSum_holds {k : Nat} {x y : Nat → Elem} {m : Emax}
    (hx : L2Holds s f.srcAddr.toNat f.length.toNat x) (hm : f.subEmax = true → s.eMax = some m)
    (hy : f.accm = true → L2Holds s f.dstAddr.toNat 1 y) :
    effectsCvoReduceSum f k s = .ok (s.writeL2Many f.dstAddr.toNat ((List.range 1).map
      (accumulatedElem f y fun _ => Config.cvoSum ((List.range f.length.toNat).map (reducedElem f m x))))) := by
  have hone (e : Elem) : [e] = (List.range 1).map fun _ => e := rfl
  rw [effectsCvoReduceSum, readL2Many_of_holds k hx, run_ok_bind, subtractEmax_holds hm, run_ok_bind, hone,
    accumulate_holds hy]
  rfl

/-- What CVO_SCALE stores (R207). -/
theorem effectsCvoScale_holds {k : Nat} {c : Elem} {x y : Nat → Elem} {m : Emax}
    (hc : s.readL2 f.srcAddr.toNat = some c) (hx : L2Holds s (cvoVectorBase .scale f s) f.length.toNat x)
    (hm : f.subEmax = true → s.eMax = some m) (hy : f.accm = true → L2Holds s f.dstAddr.toNat f.length.toNat y) :
    effectsCvoScale f k s = .ok (s.writeL2Many f.dstAddr.toNat ((List.range f.length.toNat).map
      (accumulatedElem f y fun i => Config.cvoMul (reducedElem f m x i) (scaleFactor f c)))) := by
  rw [effectsCvoScale, hc, orRaise_some, run_ok_bind, readL2Many_of_holds k hx, run_ok_bind, subtractEmax_holds hm,
    run_ok_bind, List.map_map, accumulate_holds hy]
  rfl

/-- The six element-wise functions are the skeleton at their numeric function (R201 to R205, R208). -/
theorem cvoEffects_unary {g : Elem → Elem} (h : cvoUnary func = some g) : cvoEffects func f = cvoMap g f := by
  cases func <;> simp only [cvoUnary, Option.some.injEq, reduceCtorEq] at h <;> subst h <;> rfl

/-! ### Checks -/

/-- A CVO instruction whose checks pass is accepted, or comes to its effects (R221, R212). -/
theorem exec_cvo_accepted (h : CvoReady func f s) (ha : f.async = true) :
    exec (cvoInstr func f) s = .next (s.addPending .cvo (.cvo func f)) := by
  rw [exec_cvoInstr, toResult_next_iff, cvo_ok, if_pos ha]
  exact ⟨h.1, cvoCheck_ready h, rfl⟩

/-- A check that refuses ends the instruction. -/
theorem exec_cvo_refused {r : Refusal} (hz : f.flagsRsvd = 0) (h : cvoCheck func f s = .error (.refused r)) :
    exec (cvoInstr func f) s = .refused r := by
  rw [exec_cvoInstr, cvo, cvoDispatchCheck, hz, h]
  rfl

theorem cvoCheck_flagNotApplicable (hr : f.recipScale = true) (hf : func ≠ .scale) :
    cvoCheck func f s = .error (.refused .flagNotApplicable) := by
  have hbit : (f.recipScale && func != .scale) = true := by simp [hr, hf]
  rw [cvoCheck, hbit]
  rfl

theorem cvoCheck_zeroExtent (hr : f.recipScale = true → func = .scale) (hl : f.length = 0) :
    cvoCheck func f s = .error (.refused .zeroExtent) := by
  have hbit : (f.recipScale && func != .scale) = false := by simpa using hr
  rw [cvoCheck, hbit, hl]
  rfl

/-- With a legal flag and a length, the ranges are checked, the input's first (R221). -/
theorem cvoCheck_of_length (hr : f.recipScale = true → func = .scale) (hl : f.length ≠ 0) :
    cvoCheck func f s = (do
      refuseIf (!fitsL2 (cvoVectorBase func f s) f.length.toNat) .addressRangeOverflow
      refuseIf (!fitsL2 f.dstAddr.toNat (cvoOutLen func f)) .addressRangeOverflow
      refuseIf (cvoOverlap func f s) .operandOverlap) := by
  have hbit : (f.recipScale && func != .scale) = false := by simpa using hr
  have hlen : (f.length == 0) = false := by simpa using hl
  rw [cvoCheck, hbit, hlen]
  rfl

theorem cvoCheck_overflow (hr : f.recipScale = true → func = .scale) (hl : f.length ≠ 0)
    (h : l2Size < cvoVectorBase func f s + f.length.toNat ∨ l2Size < f.dstAddr.toNat + cvoOutLen func f) :
    cvoCheck func f s = .error (.refused .addressRangeOverflow) := by
  rw [cvoCheck_of_length hr hl]
  cases hv : fitsL2 (cvoVectorBase func f s) f.length.toNat with
  | false => rfl
  | true =>
    have hd : fitsL2 f.dstAddr.toNat (cvoOutLen func f) = false := by
      simp only [fitsL2, decide_eq_true_eq, decide_eq_false_iff_not] at hv ⊢
      omega
    rw [hd]
    rfl

theorem cvoCheck_overlap (hr : f.recipScale = true → func = .scale) (hl : f.length ≠ 0)
    (h1 : cvoVectorBase func f s + f.length.toNat ≤ l2Size) (h2 : f.dstAddr.toNat + cvoOutLen func f ≤ l2Size)
    (h : ¬CvoRangesOk func f s) : cvoCheck func f s = .error (.refused .operandOverlap) := by
  have hv : fitsL2 (cvoVectorBase func f s) f.length.toNat = true := decide_eq_true h1
  have hd : fitsL2 f.dstAddr.toNat (cvoOutLen func f) = true := decide_eq_true h2
  have ho : cvoOverlap func f s = true := by simpa using mt (cvoOverlap_eq_false hl).mp h
  rw [cvoCheck_of_length hr hl, hv, hd, ho]
  rfl

/-! ### Where the reads stop -/

/-- The scalar of CVO_SCALE is read first (log 31). -/
theorem effectsCvoScale_emptyScalar {k : Nat} (h : s.readL2 f.srcAddr.toNat = none) :
    effectsCvoScale f k s = .error (.fault (.unwrittenRead (.l2 f.srcAddr.toNat) k)) := by
  rw [effectsCvoScale, h]
  rfl

/-- Every function reads its input at its vector base, CVO_SCALE after its scalar; where that read stops, the function
stops (R209, R218). -/
theorem cvoEffects_of_input_error {k : Nat} {e : Stop} (hc : func = .scale → s.readL2 f.srcAddr.toNat ≠ none)
    (h : s.readL2Many k (cvoVectorBase func f s) f.length.toNat = .error e) :
    cvoEffects func f k s = .error e := by
  have map_case (g : Elem → Elem) (h : s.readL2Many k f.srcAddr.toNat f.length.toNat = .error e) :
      cvoMap g f k s = .error e := by
    rw [cvoMap, h]
    rfl
  cases func with
  | scale =>
    obtain ⟨c, hc⟩ := Option.ne_none_iff_exists'.mp (hc rfl)
    rw [cvoEffects, effectsCvoScale, hc, orRaise_some, run_ok_bind, h]
    rfl
  | reduceSum =>
    rw [cvoEffects, effectsCvoReduceSum, show s.readL2Many k f.srcAddr.toNat f.length.toNat = .error e from h]
    rfl
  | exp | sqrt | gelu | sin | cos | recip => exact map_case _ h

/-- The input is reduced before anything else is done with it; where e_max is missing, the function stops (R209). -/
theorem cvoEffects_of_emax_missing {k : Nat} {xs : List Elem} (hc : func = .scale → s.readL2 f.srcAddr.toNat ≠ none)
    (hx : s.readL2Many k (cvoVectorBase func f s) f.length.toNat = .ok xs) (hs : f.subEmax = true)
    (hm : s.eMax = none) : cvoEffects func f k s = .error (.fault (.unwrittenRead .eMax k)) := by
  have hsub : subtractEmax f s k xs = .error (.fault (.unwrittenRead .eMax k)) := by
    rw [subtractEmax, if_pos hs, hm]
    rfl
  have map_case (g : Elem → Elem) (h : s.readL2Many k f.srcAddr.toNat f.length.toNat = .ok xs) :
      cvoMap g f k s = .error (.fault (.unwrittenRead .eMax k)) := by
    rw [cvoMap, h, run_ok_bind, hsub]
    rfl
  cases func with
  | scale =>
    obtain ⟨c, hc⟩ := Option.ne_none_iff_exists'.mp (hc rfl)
    rw [cvoEffects, effectsCvoScale, hc, orRaise_some, run_ok_bind, hx, run_ok_bind, hsub]
    rfl
  | reduceSum =>
    rw [cvoEffects, effectsCvoReduceSum, show s.readL2Many k f.srcAddr.toNat f.length.toNat = .ok xs from hx,
      run_ok_bind, hsub]
    rfl
  | exp | sqrt | gelu | sin | cos | recip => exact map_case _ hx

/-! ### What the effects read -/

/-- `sub_emax` reads e_max only, and only with the flag (R209). -/
theorem subtractEmax_congr {s' : State} {k k' : Nat} {xs ys : List Elem}
    (hm : f.subEmax = true → s'.eMax = s.eMax) (h : subtractEmax f s k xs = .ok ys) :
    subtractEmax f s' k' xs = .ok ys := by
  rw [subtractEmax_ok] at h ⊢
  rcases h with h | ⟨hf, m, he, hys⟩
  · exact .inl h
  · exact .inr ⟨hf, m, (hm hf).trans he, hys⟩

/-- `accm` reads the old destination only, and only with the flag (R211). -/
theorem accumulate_congr {s' : State} {k k' : Nat} {ys zs : List Elem}
    (hd : f.accm = true → ∀ a, f.dstAddr.toNat ≤ a → a < f.dstAddr.toNat + ys.length → s'.readL2 a = s.readL2 a)
    (h : accumulate f s k ys = .ok zs) : accumulate f s' k' ys = .ok zs := by
  rw [accumulate_ok] at h ⊢
  rcases h with h | ⟨hf, old, ho, hzs⟩
  · exact .inl h
  · exact .inr ⟨hf, old, readL2Many_congr ho (hd hf), hzs⟩

/-- The effects of a CVO function read its vector, the scalar of CVO_SCALE, the old destination with `accm` and e_max with
`sub_emax`, and nothing else: two states that agree there get the same elements (R220). -/
theorem cvoEffects_congr {s' t : State} {k k' : Nat} (hp : s'.platform = s.platform)
    (hv : ∀ a, cvoVectorBase func f s ≤ a → a < cvoVectorBase func f s + f.length.toNat → s'.readL2 a = s.readL2 a)
    (hc : func = .scale → s'.readL2 f.srcAddr.toNat = s.readL2 f.srcAddr.toNat)
    (hd : f.accm = true → ∀ a, f.dstAddr.toNat ≤ a → a < f.dstAddr.toNat + cvoOutLen func f →
      s'.readL2 a = s.readL2 a)
    (hm : f.subEmax = true → s'.eMax = s.eMax) (h : cvoEffects func f k s = .ok t) :
    ∃ z : List Elem, z.length = cvoOutLen func f ∧ t = s.writeL2Many f.dstAddr.toNat z ∧
      cvoEffects func f k' s' = .ok (s'.writeL2Many f.dstAddr.toNat z) := by
  have map_case (g : Elem → Elem) (ho : cvoOutLen func f = f.length.toNat)
      (hv : ∀ a, f.srcAddr.toNat ≤ a → a < f.srcAddr.toNat + f.length.toNat → s'.readL2 a = s.readL2 a)
      (h : cvoMap g f k s = .ok t) :
      ∃ z : List Elem, z.length = cvoOutLen func f ∧ t = s.writeL2Many f.dstAddr.toNat z ∧
        cvoMap g f k' s' = .ok (s'.writeL2Many f.dstAddr.toNat z) := by
    obtain ⟨x, hx, y, hy, z, hz, rfl⟩ := (cvoMap_ok g f k s t).mp h
    have hlen : (y.map g).length = cvoOutLen func f := by
      rw [List.length_map, length_subtractEmax hy, ((readL2Many_ok _ _ _ _ _).mp hx).1, ho]
    refine ⟨z, (length_accumulate hz).trans hlen, rfl, (cvoMap_ok g f k' s' _).mpr ?_⟩
    exact ⟨x, readL2Many_congr hx hv, y, subtractEmax_congr hm hy, z, accumulate_congr (by rwa [hlen]) hz, rfl⟩
  cases func with
  | reduceSum =>
    obtain ⟨x, hx, y, hy, z, hz, rfl⟩ := (effectsCvoReduceSum_ok f k s t).mp h
    refine ⟨z, length_accumulate hz, rfl, (effectsCvoReduceSum_ok f k' s' _).mpr ?_⟩
    exact ⟨x, readL2Many_congr hx hv, y, subtractEmax_congr hm hy, z, accumulate_congr hd hz, rfl⟩
  | scale =>
    obtain ⟨c, hsc, x, hx, y, hy, z, hz, rfl⟩ := (effectsCvoScale_ok f k s t).mp h
    have hbase : cvoVectorBase .scale f s' = cvoVectorBase .scale f s := by simp only [cvoVectorBase, hp]
    have hlen : (y.map fun v => Config.cvoMul v (scaleFactor f c)).length = cvoOutLen .scale f := by
      rw [List.length_map, length_subtractEmax hy, ((readL2Many_ok _ _ _ _ _).mp hx).1]
      rfl
    refine ⟨z, (length_accumulate hz).trans hlen, rfl, (effectsCvoScale_ok f k' s' _).mpr ?_⟩
    exact ⟨c, (hc rfl).trans hsc, x, by rw [hbase]; exact readL2Many_congr hx hv, y, subtractEmax_congr hm hy, z,
      accumulate_congr (by rwa [hlen]) hz, rfl⟩
  | exp | sqrt | gelu | sin | cos | recip => exact map_case _ rfl hv h

/-! ### The flag `accm` -/

/-- With `accm`, what the function would store without it is added to the old destination (R211). -/
theorem exec_cvo_accm {u : State} (hacc : f.accm = true) (hsync : f.async = false)
    (h : exec (cvoInstr func { f with accm := false }) s = .next u) :
    ∃ z : List Elem, z.length = cvoOutLen func f ∧ u = s.writeL2Many f.dstAddr.toNat z ∧
      exec (cvoInstr func f) s = toResult (do
        let z' ← accumulate f s (s.runningNumber .cvo) z
        return s.writeL2Many f.dstAddr.toNat z') := by
  obtain ⟨srcAddr, dstAddr, length, subEmax, recipScale, accm, flagsRsvd, async⟩ := f
  obtain rfl : accm = true := hacc
  obtain rfl : async = false := hsync
  rw [exec_cvoInstr, toResult_next_iff, cvo_ok] at h
  obtain ⟨hz, hcheck, heff⟩ := h
  simp only [Bool.false_eq_true, if_false] at heff
  obtain ⟨z, hlen, hu, hwith⟩ := cvoEffects_accm rfl heff
  refine ⟨z, hlen.trans (by cases func <;> rfl), hu, ?_⟩
  rw [← hwith, exec_cvoInstr, cvo, cvoDispatchCheck]
  dsimp only at hz
  rw [hz, show cvoCheck func _ s = .ok () from (by cases func <;> exact hcheck)]
  rfl

theorem getElem?_zipWith_range {z : List Elem} {n i : Nat} {y : Nat → Elem} {v : Elem} (hn : i < n)
    (hv : z[i]? = some v) :
    (List.zipWith Config.cvoAdd ((List.range n).map y) z)[i]? = some (Config.cvoAdd (y i) v) := by
  rw [List.getElem?_zipWith, hv]
  simp [hn]

/-- One element of a range that was stored. -/
theorem readL2_writeL2Many_offset (s : State) (b i : Nat) (z : List Elem) (hi : i < z.length) :
    (s.writeL2Many b z).readL2 (b + i) = z[i]? := by
  rw [readL2_writeL2Many, if_pos ⟨by omega, by omega⟩, Nat.add_sub_cancel_left]

/-- The checks of a CVO instruction look at the platform alone. -/
theorem cvoCheck_congr {s' : State} (hp : s'.platform = s.platform) : cvoCheck func f s' = cvoCheck func f s := by
  cases func <;> simp only [cvoCheck, cvoOverlap, cvoVectorBase, hp]

end

end Sys2Proof.Machine

namespace Sys2Proof.Proofs

open Sys2Proof.Machine

/-- Settles O35: the element-wise skeleton, on operands that are held. -/
theorem elementwiseResult : Obligations.ElementwiseResult := by
  intro func g f s x y m hg h hsync hx hm hy
  refine ⟨s.writeL2Many f.dstAddr.toNat ((List.range f.length.toNat).map _), ?_,
    onlyL2Range_writeL2Many s _ _ _ (by simp), l2Holds_writeL2Many s _ _ _⟩
  rw [exec_cvo_ready h hsync, cvoEffects_unary hg, cvoMap_holds hx hm hy]
  rfl

/-- Settles O36: the reduction, on operands that are held. -/
theorem reduceSumResult : Obligations.ReduceSumResult := by
  intro f s x y m h hsync hx hm hy
  have hy' : f.accm = true → L2Holds s f.dstAddr.toNat 1 fun _ => y := by
    intro hacc i hi
    obtain rfl : i = 0 := by omega
    exact hy hacc
  have heff := effectsCvoReduceSum_holds (k := s.runningNumber .cvo) hx hm hy'
  exact ⟨_, (exec_cvo_ready h hsync).trans (congrArg toResult heff), onlyL2Range_writeL2Many s _ _ _ (by simp),
    l2Holds_writeL2Many s _ 1 _ 0 Nat.one_pos⟩

/-- Settles O37: the scaling, on operands that are held. -/
theorem scaleResult : Obligations.ScaleResult := by
  intro f s c x y m h hsync hc hx hm hy
  have hx' : L2Holds s (cvoVectorBase .scale f s) f.length.toNat x := by
    simp only [cvoVectorBase, scaleBase]
    exact hx
  have heff := effectsCvoScale_holds (k := s.runningNumber .cvo) hc hx' hm hy
  exact ⟨_, (exec_cvo_ready h hsync).trans (congrArg toResult heff), onlyL2Range_writeL2Many s _ _ _ (by simp),
    l2Holds_writeL2Many s _ _ _⟩

/-- Settles O38: `exec_cvo_accm` for the instruction with `accm`, and without it `cvoEffects_congr`, since what it reads is
apart from its destination. -/
theorem cvoAccumulate : Obligations.CvoAccumulate := by
  refine ⟨fun func f s u y hacc hsync h hy => ?sum, fun func f s u a hacc hsync h he => ?empty,
    fun func f s s' t hacc hsync hapart hs h => ?overwrite⟩
  case sum =>
    obtain ⟨z, hlen, rfl, hexec⟩ := exec_cvo_accm hacc hsync h
    have hold : accumulate f s (s.runningNumber .cvo) z =
        .ok (List.zipWith Config.cvoAdd ((List.range (cvoOutLen func f)).map y) z) :=
      (accumulate_ok _ _ _ _ _).mpr (.inr ⟨hacc, _, by rw [hlen]; exact readL2Many_of_holds _ hy, rfl⟩)
    rw [hold, run_ok_bind] at hexec
    refine ⟨_, hexec, fun i hi => ?_⟩
    have hzi : z[i]? = some z[i] := List.getElem?_eq_getElem (hlen.symm ▸ hi)
    refine ⟨z[i], ?_, ?_⟩
    · rw [readL2_writeL2Many_offset _ _ _ _ (hlen.symm ▸ hi), hzi]
    · rw [readL2_writeL2Many_offset _ _ _ _ (by simp [hlen, hi]), getElem?_zipWith_range hi hzi]
  case empty =>
    obtain ⟨z, hlen, _, hexec⟩ := exec_cvo_accm hacc hsync h
    rw [hexec, accumulate, if_pos hacc, hlen, readL2Many_firstEmpty _ he]
    rfl
  case overwrite =>
    rw [exec_cvoInstr, toResult_next_iff, cvo_ok, hsync] at h
    obtain ⟨hz, hcheck, heff⟩ := h
    obtain ⟨_, hl, _, _, hoverlap⟩ := (cvoCheck_ok _ _ _ _).mp hcheck
    have hranges := (cvoOverlap_eq_false hl).mp hoverlap
    have hscalar : func = .scale → s'.readL2 f.srcAddr.toNat = s.readL2 f.srcAddr.toNat := by
      rintro rfl
      have := hranges.1
      exact hs.1 _ (by simp only [Apart, cvoOutLen] at this ⊢; omega)
    have hframe := eq_withL2_of_onlyL2Range hs
    obtain ⟨z, hlen, rfl, heff'⟩ := cvoEffects_congr (s' := s') (k' := s'.runningNumber .cvo) (by rw [hframe])
      (fun a h1 h2 => hs.1 a (by simp only [Apart] at hapart; omega)) hscalar (by simp [hacc])
      (fun _ => by rw [hframe]) heff
    refine ⟨s'.writeL2Many f.dstAddr.toNat z, ?_, fun i hi => ?_⟩
    · rw [exec_cvoInstr, toResult_next_iff, cvo_ok, hsync, cvoCheck_congr (s := s) (by rw [hframe])]
      exact ⟨hz, hcheck, heff'⟩
    · rw [readL2_writeL2Many_offset _ _ _ _ (hlen.symm ▸ hi), readL2_writeL2Many_offset _ _ _ _ (hlen.symm ▸ hi)]
      exact ⟨by simp [hlen, hi], rfl⟩

/-- Settles O39: `cellRead_addPending`. -/
theorem cvoAccepted : Obligations.CvoAccepted := fun _ _ _ _ h hasync hrun =>
  ⟨_, exec_cvo_accepted h hasync, rfl, cellRead_addPending _ hrun⟩

/-- Settles O40: one lemma for each check and each read, in their order. -/
theorem cvoStops : Obligations.CvoStops := by
  refine fun func f s hz => ⟨fun hr hf => exec_cvo_refused hz (cvoCheck_flagNotApplicable hr hf),
    fun hr => ⟨fun hl => exec_cvo_refused hz (cvoCheck_zeroExtent hr hl), fun hl =>
      ⟨fun h => exec_cvo_refused hz (cvoCheck_overflow hr hl h),
        fun h1 h2 h => exec_cvo_refused hz (cvoCheck_overlap hr hl h1 h2 h)⟩⟩,
    fun h hsync => ⟨fun hf hc => ?scalar, fun hc => ⟨fun a he => ?input, fun x hx hsub hm => ?emax⟩⟩⟩
  all_goals rw [exec_cvo_ready h hsync]
  case scalar =>
    subst hf
    rw [cvoEffects, effectsCvoScale_emptyScalar hc]
    rfl
  case input =>
    rw [cvoEffects_of_input_error hc (readL2Many_firstEmpty _ he)]
    rfl
  case emax =>
    rw [cvoEffects_of_emax_missing hc (readL2Many_of_holds _ hx) hsub hm]
    rfl

end Sys2Proof.Proofs
end

section
/-! PROOFS. Footprints and effects (20_memory.md R76, 44_uops_and_dispatch.md R256): an instruction changes what it writes
and depends on what it reads; an accepted one does later what it would have done at once. -/

namespace Sys2Proof.Machine

/-! ### What an instruction that answers has done -/

/-- What a synchronous instruction does to the state, with the checks it has passed: one store of elements, of bytes or of
a descriptor entry, and of e_max beside it for a multiply (R151, R171, R191, R221). -/
inductive SyncEffect (s : State) : Instr → State → Prop where
  | multiply {kind : GemxKind} {f : GemxFields} {nIn : Nat} {out : List Elem} (hin : gemxInLen kind f s = some nIn)
      (hout : gemxOutLen kind f s = some out.length) (hfit : f.destReg.toNat + out.length ≤ l2Size) :
      SyncEffect s (gemxInstr kind f)
        { s.writeL2Many f.destReg.toNat out with eMax := gemxEmax kind f s out }
  | fromHost {f : MemcpyFields} {vs : List Elem} (hroute : copyRoute f = some .hostToL2)
      (hlen : copyLen .hostToL2 f s = some vs.length) (hfit : f.destAddr.toNat + vs.length ≤ l2Size) :
      SyncEffect s (.memcpy f) (s.writeL2Many f.destAddr.toNat vs)
  | toHost {f : MemcpyFields} {n b : Nat} {bytes : List Byte} (hroute : copyRoute f = some .l2ToHost)
      (hlen : copyLen .l2ToHost f s = some n) (hrange : hostRange s.platform f.destAddr n = some (b, bytes.length)) :
      SyncEffect s (.memcpy f) (s.writeHostMany b bytes)
  | fmapEntry {f : MemsetFields} (hcache : f.destCache = 0) :
      SyncEffect s (.memset f) (s.writeFmapShape f.destAddr (memsetEntry f))
  | weightEntry {f : MemsetFields} (hcache : f.destCache = 1) :
      SyncEffect s (.memset f) (s.writeWeightShape f.destAddr (memsetEntry f))
  | function {func : CvoFunc} {f : CvoFields} {z : List Elem} (hlen : z.length = cvoOutLen func f)
      (hfit : f.dstAddr.toNat + z.length ≤ l2Size) :
      SyncEffect s (cvoInstr func f) (s.writeL2Many f.dstAddr.toNat z)

/-- A synchronous instruction that answers has had one of these effects. -/
theorem syncEffect_of_exec {i : Instr} {s t : State} (ha : instrIsAsync i = false) (h : exec i s = .next t) :
    SyncEffect s i t := by
  rcases instr_cases i with ⟨kind, f, rfl⟩ | ⟨f, rfl⟩ | ⟨f, rfl⟩ | ⟨func, f, rfl⟩
  · rw [exec_gemxInstr, toResult_next_iff, gemx_ok] at h
    obtain ⟨_, nIn, nOut, hin, hout, _, _, _, hfit, _, x, _, old, _, rfl⟩ := h
    exact .multiply hin (by simpa using hout) (by simpa [fitsL2] using hfit)
  · replace ha : f.async = false := ha
    rw [exec, execMemcpy, toResult_next_iff, memcpy_ok, ha] at h
    obtain ⟨_, route, n, hroute, hlen, _, _, hfit, h⟩ := h
    cases route with
    | hostToL2 =>
      obtain ⟨r, _, rfl⟩ := (copyFromHost_ok _ _ _ _ _).mp h
      exact .fromHost hroute (by simpa using hlen) (by simpa [fitsL2] using hfit rfl)
    | l2ToHost =>
      obtain ⟨vs, _, r, hrange, rfl⟩ := (copyToHost_ok _ _ _ _ _ _).mp h
      exact .toHost hroute hlen (by simpa using hrange)
  · rw [exec, execMemset, toResult_next_iff, memset_ok] at h
    obtain ⟨_, hcache, rfl⟩ := h
    by_cases h0 : f.destCache = 0
    · rw [if_pos h0]
      exact .fmapEntry h0
    · rw [if_neg h0]
      refine .weightEntry (BitVec.eq_of_toNat_eq ?_)
      have : f.destCache.toNat ≠ 0 := fun h => h0 (BitVec.eq_of_toNat_eq h)
      change f.destCache.toNat = 1
      omega
  · rw [instrIsAsync_cvoInstr] at ha
    rw [exec_cvoInstr, toResult_next_iff, cvo_ok, ha] at h
    obtain ⟨_, hcheck, h⟩ := h
    obtain ⟨z, hlen, rfl⟩ := cvoEffects_ok h
    obtain ⟨_, _, _, hfit, _⟩ := (cvoCheck_ok _ _ _ _).mp hcheck
    exact .function hlen (by rw [hlen]; simpa [fitsL2] using hfit)

/-- An asynchronous instruction that answers is pending, its range checked (R180, R212). -/
theorem addPending_of_exec {i : Instr} {s t : State} (ha : instrIsAsync i = true) (h : exec i s = .next t) :
    ∃ e op, t = s.addPending e op ∧ op.fits := by
  rcases instr_cases i with ⟨kind, f, rfl⟩ | ⟨f, rfl⟩ | ⟨f, rfl⟩ | ⟨func, f, rfl⟩
  · simp [instrIsAsync_gemxInstr] at ha
  · replace ha : f.async = true := ha
    rw [exec, execMemcpy, toResult_next_iff, memcpy_ok, ha] at h
    obtain ⟨_, route, n, _, _, _, _, hfit, h⟩ := h
    obtain rfl := Except.ok.inj h
    refine ⟨_, _, rfl, ?_⟩
    cases route with
    | hostToL2 => simpa [fitsL2, Deferred.fits] using hfit rfl
    | l2ToHost => trivial
  · cases ha
  · rw [instrIsAsync_cvoInstr] at ha
    rw [exec_cvoInstr, toResult_next_iff, cvo_ok, if_pos ha] at h
    obtain ⟨_, hcheck, h⟩ := h
    obtain rfl := Except.ok.inj h
    obtain ⟨_, _, _, hfit, _⟩ := (cvoCheck_ok _ _ _ _).mp hcheck
    exact ⟨_, _, rfl, by simpa [fitsL2, Deferred.fits] using hfit⟩

/-! ### What a store leaves alone, and what two states hold after the same store -/

theorem sameAt_writeL2Many {s : State} {b : Nat} {vs : List Elem} {l : Loc}
    (h : ¬(Region.l2 b vs.length).holds l) : sameAt s (s.writeL2Many b vs) l := by
  cases l with
  | l2 a => exact (readL2_writeL2Many s b a vs).trans (if_neg h)
  | host | fmapShape | weightShape | eMax => rfl

theorem sameAt_writeHostMany {s : State} {b : Nat} {bytes : List Byte} {l : Loc}
    (h : ¬(Region.host b bytes.length).holds l) : sameAt s (s.writeHostMany b bytes) l := by
  cases l with
  | host a => exact (readHost_writeHostMany s b a bytes).trans (if_neg h)
  | l2 | fmapShape | weightShape | eMax => rfl

theorem sameAt_writeFmapShape {s : State} {p : Ptr} {d : Descriptor} {l : Loc}
    (h : ¬(Region.fmapShape p).holds l) : sameAt s (s.writeFmapShape p d) l := by
  cases l with
  | fmapShape q => exact (readFmapShape_writeFmapShape s p q d).trans (if_neg fun hq => h hq.symm)
  | l2 | host | weightShape | eMax => rfl

theorem sameAt_writeWeightShape {s : State} {p : Ptr} {d : Descriptor} {l : Loc}
    (h : ¬(Region.weightShape p).holds l) : sameAt s (s.writeWeightShape p d) l := by
  cases l with
  | weightShape q => exact (readWeightShape_writeWeightShape s p q d).trans (if_neg fun hq => h hq.symm)
  | l2 | host | fmapShape | eMax => rfl

theorem sameAt_of_holds_l2 {s s' : State} {b : Nat} {vs : List Elem} {l : Loc}
    (h : (Region.l2 b vs.length).holds l) : sameAt (s.writeL2Many b vs) (s'.writeL2Many b vs) l := by
  obtain ⟨a, rfl, ha⟩ := (holds_l2_iff _ _ _).mp h
  exact ((readL2_writeL2Many s' b a vs).trans (if_pos ha)).trans
    ((readL2_writeL2Many s b a vs).trans (if_pos ha)).symm

theorem sameAt_of_holds_host {s s' : State} {b : Nat} {bytes : List Byte} {l : Loc}
    (h : (Region.host b bytes.length).holds l) : sameAt (s.writeHostMany b bytes) (s'.writeHostMany b bytes) l := by
  obtain ⟨a, rfl, ha⟩ := (holds_host_iff _ _ _).mp h
  exact ((readHost_writeHostMany s' b a bytes).trans (if_pos ha)).trans
    ((readHost_writeHostMany s b a bytes).trans (if_pos ha)).symm

theorem sameAt_of_holds_fmapShape {s s' : State} {p : Ptr} {d : Descriptor} {l : Loc}
    (h : (Region.fmapShape p).holds l) : sameAt (s.writeFmapShape p d) (s'.writeFmapShape p d) l := by
  obtain rfl := (holds_fmapShape_iff _ _).mp h
  simp only [sameAt, readFmapShape_writeFmapShape, if_true]

theorem sameAt_of_holds_weightShape {s s' : State} {p : Ptr} {d : Descriptor} {l : Loc}
    (h : (Region.weightShape p).holds l) : sameAt (s.writeWeightShape p d) (s'.writeWeightShape p d) l := by
  obtain rfl := (holds_weightShape_iff _ _).mp h
  simp only [sameAt, readWeightShape_writeWeightShape, if_true]

/-! ### The frame -/

theorem mem_regionIf (c : Bool) (r q : Region) : q ∈ regionIf c r ↔ c = true ∧ q = r := by
  cases c <;> simp [regionIf]

/-- The footprint of a multiply with both extents (R150). -/
theorem gemxFootprint_of_extents {kind : GemxKind} {f : GemxFields} {s : State} {nIn nOut : Nat}
    (hin : gemxInLen kind f s = some nIn) (hout : gemxOutLen kind f s = some nOut) :
    gemxFootprint kind f s =
      { known := true
        reads :=
          [.fmapShape f.shapePtr, .weightShape f.shapePtr, .fmapShape f.sizePtr, .weightShape f.sizePtr,
            .l2 f.srcAddr.toNat nIn] ++ regionIf f.accm (.l2 f.destReg.toNat nOut) ++ regionIf f.findemax .eMax
        writes := [.l2 f.destReg.toNat nOut] ++ regionIf f.findemax .eMax } := by
  simp only [gemxFootprint, hin, hout]

/-- A location outside every region an instruction writes is not written. -/
theorem not_holds_of_not_writesLoc {fp : Footprint} {l : Loc} (h : ¬fp.writesLoc l) {r : Region} (hr : r ∈ fp.writes) :
    ¬r.holds l := fun hl => h ⟨r, hr, hl⟩

/-- What a synchronous instruction leaves alone: every location outside its write footprint. -/
theorem SyncEffect.frame {s t : State} {i : Instr} {l : Loc} (he : SyncEffect s i t)
    (hl : ¬(instrFootprint i s).writesLoc l) : sameAt s t l := by
  have outside {r : Region} (hr : r ∈ (instrFootprint i s).writes) : ¬r.holds l := not_holds_of_not_writesLoc hl hr
  cases he with
  | @multiply kind f nIn out hin hout hfit =>
    rw [instrFootprint_gemxInstr, gemxFootprint_of_extents hin hout] at outside
    by_cases hle : l = .eMax
    · subst hle
      have hf : f.findemax = false := by
        by_contra hf
        refine outside (r := .eMax) ?_ trivial
        simp [mem_regionIf, Bool.not_eq_false _ ▸ hf]
      simp only [sameAt, gemxEmax, hf, Bool.false_eq_true, if_false]
    · have hstore : sameAt s (s.writeL2Many f.destReg.toNat out) l := sameAt_writeL2Many (outside (by simp))
      cases l with
      | eMax => exact absurd rfl hle
      | l2 | host | fmapShape | weightShape => exact hstore
  | fromHost hroute hlen hfit =>
    refine sameAt_writeL2Many (outside ?_)
    simp [instrFootprint, memcpyFootprint_hostToL2 hroute hlen]
  | toHost hroute hlen hrange =>
    refine sameAt_writeHostMany (outside ?_)
    simp [instrFootprint, memcpyFootprint_l2ToHost hroute hlen, hostRegions_of_hostRange hrange]
  | fmapEntry hcache =>
    refine sameAt_writeFmapShape (outside ?_)
    simp [instrFootprint, memsetFootprint, mem_regionIf, hcache]
  | weightEntry hcache =>
    refine sameAt_writeWeightShape (outside ?_)
    simp [instrFootprint, memsetFootprint, mem_regionIf, hcache]
  | function hlen hfit =>
    refine sameAt_writeL2Many (outside ?_)
    simp [instrFootprint_cvoInstr, cvoFootprint, hlen]

/-- A synchronous instruction changes the stores alone. -/
theorem SyncEffect.stores_only {s t : State} {i : Instr} (he : SyncEffect s i t) :
    { t with
      l2 := s.l2
      hostMem := s.hostMem
      fmapShape := s.fmapShape
      weightShape := s.weightShape
      eMax := s.eMax } = s := by
  cases he <;> rfl

theorem sameAt_addPending (s : State) (e : Engine) (op : Deferred) (l : Loc) : sameAt s (s.addPending e op) l := by
  cases l <;> rfl

/-! ### What an instruction reads -/

/-- Two states agree on every location a region holds. -/
def AgreeOn (s s' : State) (r : Region) : Prop := ∀ l, r.holds l → sameAt s s' l

theorem AgreeOn.readL2 {s s' : State} {b n : Nat} (h : AgreeOn s s' (.l2 b n)) (a : Nat) (h1 : b ≤ a)
    (h2 : a < b + n) : s'.readL2 a = s.readL2 a :=
  h (.l2 a) ⟨h1, h2⟩

/-- Two states that agree on a descriptor bundle's four entries have the same bundle (R147). -/
theorem gemxBundle_congr {f : GemxFields} {s s' : State} (h1 : AgreeOn s s' (.fmapShape f.shapePtr))
    (h2 : AgreeOn s s' (.weightShape f.shapePtr)) (h3 : AgreeOn s s' (.fmapShape f.sizePtr))
    (h4 : AgreeOn s s' (.weightShape f.sizePtr)) : gemxBundle f s' = gemxBundle f s := by
  simp only [gemxBundle, show s'.readFmapShape f.shapePtr = _ from h1 (.fmapShape _) rfl,
    show s'.readWeightShape f.shapePtr = _ from h2 (.weightShape _) rfl,
    show s'.readFmapShape f.sizePtr = _ from h3 (.fmapShape _) rfl,
    show s'.readWeightShape f.sizePtr = _ from h4 (.weightShape _) rfl]

theorem copyLen_congr {route : CopyRoute} {f : MemcpyFields} {s s' : State} (hp : s'.platform = s.platform)
    (h1 : AgreeOn s s' (.fmapShape f.shapePtr)) (h2 : AgreeOn s s' (.weightShape f.shapePtr)) :
    copyLen route f s' = copyLen route f s := by
  simp only [copyLen, copyBundle, hp, show s'.readFmapShape f.shapePtr = _ from h1 (.fmapShape _) rfl,
    show s'.readWeightShape f.shapePtr = _ from h2 (.weightShape _) rfl]

/-- Two states that agree on a host range read the same elements from it (R64). -/
theorem readHostElems_congr {s s' : State} {b len : Nat} (n : Nat) (h : AgreeOn s s' (.host b len)) :
    s'.readHostElems b len n = s.readHostElems b len n := by
  have hbytes : ((List.range len).map fun j => s'.hostByte (b + j)) =
      (List.range len).map fun j => s.hostByte (b + j) := by
    refine List.map_congr_left fun j hj => ?_
    have hj : j < len := List.mem_range.mp hj
    have hbyte : s'.readHost (b + j) = s.readHost (b + j) := h (.host (b + j)) ⟨by omega, by omega⟩
    rw [State.hostByte, hbyte, ← State.hostByte]
  rw [State.readHostElems, hbytes, ← State.readHostElems]

/-- The regions an instruction reads are regions on which two states agree that agree on its read footprint. -/
theorem agreeOn_of_reads {fp : Footprint} {s s' : State} (h : ∀ l, fp.readsLoc l → sameAt s s' l) {r : Region}
    (hr : r ∈ fp.reads) : AgreeOn s s' r := fun l hl => h l ⟨r, hr, hl⟩

section

variable {s s' t : State}

/-- A multiply depends on its bundle, its source, the old destination with `accm` and e_max with `findemax` (R150). -/
theorem exec_gemx_congr {kind : GemxKind} {f : GemxFields} (hp : s'.platform = s.platform)
    (hreads : ∀ l, (gemxFootprint kind f s).readsLoc l → sameAt s s' l) (h : gemx kind f s = .ok t) :
    ∃ t', gemx kind f s' = .ok t' ∧ ∀ l, (gemxFootprint kind f s).writesLoc l → sameAt t t' l := by
  rw [gemx_ok] at h
  obtain ⟨hz, nIn, nOut, hin, hout, h1, h2, h3, h4, h5, x, hx, old, hold, rfl⟩ := h
  have agree {r : Region} := agreeOn_of_reads (r := r) hreads
  rw [gemxFootprint_of_extents hin hout] at agree ⊢
  have hbundle : gemxBundle f s' = gemxBundle f s :=
    gemxBundle_congr (agree (by simp)) (agree (by simp)) (agree (by simp)) (agree (by simp))
  have hsrc : AgreeOn s s' (.l2 f.srcAddr.toNat nIn) := agree (by simp)
  have hold' : gemxOld f s' (s'.runningNumber (gemxEngine kind)) nOut = .ok old := by
    rw [gemxOld_ok] at hold ⊢
    refine hold.imp_right fun ⟨hacc, xs, hxs, he⟩ => ⟨hacc, xs, readL2Many_congr hxs ?_, he⟩
    exact (agree (by simp [mem_regionIf, hacc])).readL2
  have helem : gemxElem kind f s' x old = gemxElem kind f s x old := by rw [gemxElem_eq, gemxElem_eq, hbundle]
  refine ⟨_, (gemx_ok kind f s' _).mpr ⟨hz, nIn, nOut, ?_, ?_, h1, h2, h3, h4, h5, x, readL2Many_congr hx hsrc.readL2,
    old, hold', rfl⟩, fun l ⟨r, hr, hl⟩ => ?_⟩
  · rw [gemxInLen, hp, hbundle]
    exact hin
  · rw [gemxOutLen, hp, hbundle]
    exact hout
  · rw [helem]
    simp only [List.mem_append, List.mem_singleton, mem_regionIf] at hr
    rcases hr with rfl | ⟨hf, rfl⟩
    · obtain ⟨a, rfl, ha⟩ := (holds_l2_iff _ _ _).mp hl
      exact sameAt_of_holds_l2 (s := s) (s' := s') (l := .l2 a) (by simpa [Region.holds] using ha)
    · obtain rfl := (holds_eMax_iff l).mp hl
      have hm : s'.eMax = s.eMax := agree (r := .eMax) (by simp [mem_regionIf, hf]) .eMax trivial
      simp only [sameAt, gemxEmax, hf, if_true, hm]

/-- A synchronous copy depends on its two descriptor entries and its source (R179). -/
theorem exec_memcpy_congr {f : MemcpyFields} (hsync : f.async = false) (hp : s'.platform = s.platform)
    (hreads : ∀ l, (memcpyFootprint f s).readsLoc l → sameAt s s' l) (h : memcpy f s = .ok t) :
    ∃ t', memcpy f s' = .ok t' ∧ ∀ l, (memcpyFootprint f s).writesLoc l → sameAt t t' l := by
  rw [memcpy_ok, hsync] at h
  obtain ⟨ha, route, n, hroute, hn, hpos, hsrc, hdest, h⟩ := h
  have agree {r : Region} := agreeOn_of_reads (r := r) hreads
  cases route with
  | hostToL2 =>
    obtain ⟨r, hr, rfl⟩ := (copyFromHost_ok _ _ _ _ _).mp h
    rw [memcpyFootprint_hostToL2 hroute hn, hostRegions_of_hostRange hr] at agree ⊢
    have hn' : copyLen .hostToL2 f s' = some n :=
      (copyLen_congr hp (agree (by simp)) (agree (by simp))).trans hn
    have helems := readHostElems_congr n (agree (r := .host r.1 r.2) (by simp))
    refine ⟨s'.writeL2Many f.destAddr.toNat (s.readHostElems r.1 r.2 n), ?_, ?_⟩
    · rw [memcpy_ok, hsync]
      exact ⟨ha, _, n, hroute, hn', hpos, hsrc, hdest,
        (copyFromHost_ok _ _ _ _ _).mpr ⟨r, by rw [hp]; exact hr, by rw [helems]⟩⟩
    · rintro l ⟨q, hq, hl⟩
      obtain rfl := List.mem_singleton.mp hq
      exact sameAt_of_holds_l2 (by simpa using hl)
  | l2ToHost =>
    obtain ⟨vs, hvs, r, hr, rfl⟩ := (copyToHost_ok _ _ _ _ _ _).mp h
    rw [memcpyFootprint_l2ToHost hroute hn, hostRegions_of_hostRange hr] at agree ⊢
    have hn' : copyLen .l2ToHost f s' = some n :=
      (copyLen_congr hp (agree (by simp)) (agree (by simp))).trans hn
    have hvs' := readL2Many_congr (s' := s') (k' := s'.runningNumber .mem) hvs
      (agree (r := .l2 f.srcAddr.toNat n) (by simp)).readL2
    refine ⟨s'.writeHostMany r.1 (encodeHost vs r.2), ?_, ?_⟩
    · rw [memcpy_ok, hsync]
      exact ⟨ha, _, n, hroute, hn', hpos, hsrc, hdest,
        (copyToHost_ok _ _ _ _ _ _).mpr ⟨vs, hvs', r, by rw [hp]; exact hr, rfl⟩⟩
    · rintro l ⟨q, hq, hl⟩
      obtain rfl := List.mem_singleton.mp hq
      exact sameAt_of_holds_host (by simpa using hl)

/-- A MEMSET depends on nothing (R191). -/
theorem exec_memset_congr {f : MemsetFields} (s' : State) (h : memset f s = .ok t) :
    ∃ t', memset f s' = .ok t' ∧ ∀ l, (memsetFootprint f).writesLoc l → sameAt t t' l := by
  rw [memset_ok] at h
  obtain ⟨hz, hc, rfl⟩ := h
  refine ⟨_, (memset_ok f s' _).mpr ⟨hz, hc, rfl⟩, fun l ⟨r, hr, hl⟩ => ?_⟩
  simp only [memsetFootprint, List.mem_append, mem_regionIf, beq_iff_eq] at hr
  rcases hr with ⟨hcache, rfl⟩ | ⟨hcache, rfl⟩
  · rw [if_pos hcache, if_pos hcache]
    exact sameAt_of_holds_fmapShape hl
  · have h0 : ¬f.destCache = 0 := by rw [hcache]; decide
    rw [if_neg h0, if_neg h0]
    exact sameAt_of_holds_weightShape hl

/-- A synchronous CVO function depends on its input regions, the old destination with `accm` and e_max with `sub_emax`
(R220). -/
theorem exec_cvo_congr {func : CvoFunc} {f : CvoFields} (hsync : f.async = false) (hp : s'.platform = s.platform)
    (hreads : ∀ l, (cvoFootprint func f s).readsLoc l → sameAt s s' l)
    (h : cvo func (cvoEffects func) f s = .ok t) :
    ∃ t', cvo func (cvoEffects func) f s' = .ok t' ∧
      ∀ l, (cvoFootprint func f s).writesLoc l → sameAt t t' l := by
  rw [cvo_ok, hsync] at h
  obtain ⟨hz, hcheck, heff⟩ := h
  have agree {r : Region} := agreeOn_of_reads (r := r) hreads
  have hvec : AgreeOn s s' (.l2 (cvoVectorBase func f s) f.length.toNat) :=
    agree (by cases func <;> simp [cvoFootprint, cvoInputs])
  have hscalar : func = .scale → s'.readL2 f.srcAddr.toNat = s.readL2 f.srcAddr.toNat := by
    rintro rfl
    exact (agree (r := .l2 f.srcAddr.toNat 1) (by simp [cvoFootprint, cvoInputs])).readL2 _ (by omega) (by omega)
  obtain ⟨z, hlen, rfl, heff'⟩ := cvoEffects_congr (s' := s') (k' := s'.runningNumber .cvo) hp hvec.readL2 hscalar
    (fun hacc => (agree (r := .l2 f.dstAddr.toNat (cvoOutLen func f))
      (by simp [cvoFootprint, mem_regionIf, hacc])).readL2)
    (fun hsub => agree (r := .eMax) (by simp [cvoFootprint, mem_regionIf, hsub]) .eMax trivial) heff
  refine ⟨s'.writeL2Many f.dstAddr.toNat z, ?_, ?_⟩
  · rw [cvo_ok, hsync, cvoCheck_congr hp]
    exact ⟨hz, hcheck, heff'⟩
  · rintro l ⟨q, hq, hl⟩
    obtain rfl := List.mem_singleton.mp hq
    exact sameAt_of_holds_l2 (by simpa [hlen] using hl)

end

/-! ### A deferred operation is its synchronous form -/

theorem toResult_fault_iff (r : Run State) (e : Fault) : toResult r = .fault e ↔ r = .error (.fault e) := by
  rcases r with (_ | _) | _ <;> simp [toResult]

/-- A sequence faults where its first part does, or where that answers and the second part faults. -/
theorem run_bind_fault {α β : Type} (x : Run α) (g : α → Run β) (e : Fault) :
    (x >>= g) = .error (.fault e) ↔ x = .error (.fault e) ∨ ∃ a, x = .ok a ∧ g a = .error (.fault e) := by
  cases x <;> simp

theorem refuseIf_ne_fault (c : Bool) (r : Refusal) (e : Fault) : refuseIf c r ≠ .error (.fault e) := by
  cases c <;> simp

/-- The checks of a CVO instruction refuse; a fault is of its effects (R221). -/
theorem cvo_fault {func : CvoFunc} {f : CvoFields} {s : State} {e : Fault} (hsync : f.async = false)
    (h : cvo func (cvoEffects func) f s = .error (.fault e)) :
    cvoEffects func f (s.runningNumber .cvo) s = .error (.fault e) := by
  simp only [cvo, cvoDispatchCheck, cvoCheck, run_bind_fault, refuseIf_ne_fault, false_or, and_false, exists_false,
    hsync] at h
  obtain ⟨_, _, _, _, h⟩ := h
  exact h

/-- Of a copy with a route and an extent, a fault is of its transfer (R171). -/
theorem memcpy_fault {f : MemcpyFields} {s : State} {route : CopyRoute} {n : Nat} {e : Fault}
    (hsync : f.async = false) (hr : copyRoute f = some route) (hn : copyLen route f s = some n)
    (h : memcpy f s = .error (.fault e)) :
    copyTransfer route f.destAddr f.srcAddr n (s.runningNumber .mem) s = .error (.fault e) := by
  simp only [memcpy, memcpyDispatchCheck, run_bind_fault, refuseIf_ne_fault, false_or, and_false, exists_false, hr, hn,
    orRaise_some, run_ok_bind, hsync] at h
  obtain ⟨_, _, _, _, _, _, _, _, h⟩ := h
  exact h

/-- The state with other entries running. -/
def withRunning (r : PerEngine (Option Entry)) (s : State) : State := { s with running := r }

/-- The effects of a CVO function look at no running entry. -/
theorem cvoEffects_withRunning (func : CvoFunc) (f : CvoFields) (k : Nat) (s : State) (r : PerEngine (Option Entry)) :
    cvoEffects func f k (withRunning r s) = withRunning r <$> cvoEffects func f k s := by
  have map_case (g : Elem → Elem) : cvoMap g f k (withRunning r s) = withRunning r <$> cvoMap g f k s := by
    simp only [cvoMap, map_bind, map_pure]
    rfl
  cases func with
  | reduceSum =>
    simp only [cvoEffects, effectsCvoReduceSum, map_bind, map_pure]
    rfl
  | scale =>
    simp only [cvoEffects, effectsCvoScale, map_bind, map_pure]
    rfl
  | exp | sqrt | gelu | sin | cos | recip => exact map_case _

/-- A transfer looks at no running entry. -/
theorem copyTransfer_withRunning (route : CopyRoute) (dest src : Addr) (n k : Nat) (s : State)
    (r : PerEngine (Option Entry)) :
    copyTransfer route dest src n k (withRunning r s) = withRunning r <$> copyTransfer route dest src n k s := by
  cases route with
  | hostToL2 =>
    simp only [copyTransfer, copyFromHost, map_bind, map_pure]
    rfl
  | l2ToHost =>
    simp only [copyTransfer, copyToHost, map_bind, map_pure]
    rfl

/-- The asynchronous agent's step for an operation that is pending (R256). -/
theorem step_performs {s : State} {k : Nat} {p : Pending} {rest : List Move} (hr : Running s)
    (hs : s.script = .performAsync k :: rest) (hp : cellRead s.pendingAsync k = some p) :
    step s = mapNext (removePending k) (toResult (performDeferred p.op k { s with script := rest })) := by
  rw [step_of_script hr hs]
  simp only [moveStep, asyncStep, hp]

/-- If the same operation, on the state with an entry running beside it, comes to `now`, the asynchronous agent comes to
the same next state without that entry and without the operation, or to the same fault. -/
theorem step_performs_as {s : State} {k : Nat} {p : Pending} {rest : List Move} {r : PerEngine (Option Entry)}
    (hr : Running s) (hs : s.script = .performAsync k :: rest) (hp : cellRead s.pendingAsync k = some p)
    {op : State → Run State} (hop : performDeferred p.op k { s with script := rest } = op { s with script := rest })
    (hrun : ∀ s, op (withRunning r s) = withRunning r <$> op s) :
    (∀ u, op (withRunning r { s with script := rest }) = .ok u →
      step s = .next { u with running := s.running, pendingAsync := cellErase s.pendingAsync k }) ∧
    ∀ e, op (withRunning r { s with script := rest }) = .error (.fault e) → step s = .fault e := by
  rw [step_performs hr hs hp, hop, hrun]
  cases hv : op { s with script := rest } with
  | error e =>
    refine ⟨fun u h => ?_, fun e' h => ?_⟩
    · cases h
    · cases h; rfl
  | ok v =>
    refine ⟨fun u h => ?_, fun e' h => ?_⟩
    · cases h
      have hframe := performDeferred_frame (hop.trans hv)
      have hrunning : v.running = s.running := (congrArg State.running hframe :)
      have hpending : v.pendingAsync = s.pendingAsync := (congrArg State.pendingAsync hframe :)
      simp only [toResult_ok, mapNext, removePending, withRunning, ← hrunning, hpending]
    · cases h

end Sys2Proof.Machine

namespace Sys2Proof.Proofs

open Sys2Proof.Machine

/-- Settles O45: `SyncEffect.frame` for what is done at once; what is accepted only joins the pending operations. -/
theorem frameByFootprint : Obligations.FrameByFootprint := by
  intro i s t h
  cases ha : instrIsAsync i with
  | true =>
    obtain ⟨e, op, rfl, _⟩ := addPending_of_exec ha h
    exact ⟨fun l _ => sameAt_addPending s e op l, fun _ => rfl, nofun⟩
  | false =>
    have heff := syncEffect_of_exec ha h
    exact ⟨fun l hl => heff.frame hl, nofun, fun _ => heff.stores_only⟩

/-- Settles O46: one lemma for each kind of instruction. -/
theorem readsOnlyItsFootprint : Obligations.ReadsOnlyItsFootprint := by
  intro i s s' t hsync hp hreads h
  rcases instr_cases i with ⟨kind, f, rfl⟩ | ⟨f, rfl⟩ | ⟨f, rfl⟩ | ⟨func, f, rfl⟩
  · rw [instrFootprint_gemxInstr] at hreads ⊢
    rw [exec_gemxInstr, toResult_next_iff] at h
    simp only [exec_gemxInstr, toResult_next_iff]
    exact exec_gemx_congr hp hreads h
  · simp only [exec, execMemcpy, toResult_next_iff] at h ⊢
    exact exec_memcpy_congr hsync hp hreads h
  · simp only [exec, execMemset, toResult_next_iff] at h ⊢
    exact exec_memset_congr s' h
  · rw [instrFootprint_cvoInstr] at hreads ⊢
    rw [instrIsAsync_cvoInstr] at hsync
    rw [exec_cvoInstr, toResult_next_iff] at h
    simp only [exec_cvoInstr, toResult_next_iff]
    exact exec_cvo_congr hsync hp hreads h

/-- Settles O41: what the instruction's own meaning comes to is its effects (`cvo_ok`, `cvo_fault`, and their like for a
copy), and these look at no running entry. -/
theorem asyncPerformsTheEffect : Obligations.AsyncPerformsTheEffect := by
  refine ⟨?function, ?copy⟩
  case function =>
    intro s rest k func f en hr hs hk hp now
    have hnum : (withRunning (s.running.set .cvo (some en)) { s with script := rest }).runningNumber .cvo = k := hk
    have hperform := step_performs_as hr hs hp (op := cvoEffects func { f with async := false } k)
      (by cases func <;> rfl) (cvoEffects_withRunning func _ k · (s.running.set .cvo (some en)))
    refine ⟨fun u hu => hperform.1 u ?_, fun e he => hperform.2 e ?_⟩
    · rw [← hnum]
      exact ((cvo_ok _ _ _ _ _).mp ((toResult_next_iff _ _).mp ((exec_cvoInstr func _ _).symm.trans hu))).2.2
    · rw [← hnum]
      exact cvo_fault rfl ((toResult_fault_iff _ _).mp ((exec_cvoInstr func _ _).symm.trans he))
  case copy =>
    intro s rest k route f n en hr hs hk hp hroute hn now
    have hnum : (withRunning (s.running.set .mem (some en)) { s with script := rest }).runningNumber .mem = k := hk
    have hperform := step_performs_as hr hs hp (op := copyTransfer route f.destAddr f.srcAddr n k) rfl
      (copyTransfer_withRunning route _ _ n k · (s.running.set .mem (some en)))
    refine ⟨fun u hu => hperform.1 u ?_, fun e he => hperform.2 e ?_⟩
    · obtain ⟨_, route', n', hroute', hn', _, _, _, h⟩ := (memcpy_ok _ _ _).mp ((toResult_next_iff _ _).mp hu)
      obtain rfl : route = route' := Option.some.inj (hroute.symm.trans hroute')
      obtain rfl : n = n' := Option.some.inj (hn.symm.trans hn')
      rw [← hnum]
      exact h
    · rw [← hnum]
      exact memcpy_fault (f := { f with async := false }) rfl hroute hn ((toResult_fault_iff _ _).mp he)

end Sys2Proof.Proofs
end

section
/-! PROOFS. The invariants every step keeps (44_uops_and_dispatch.md sections 3 and 4, 20_memory.md sections 1 to 3): the
records of a run, the memories, the bookkeeping of issue and queues, and the freedom from races. -/

namespace Sys2Proof.Machine

/-- A property that no move breaks, and that does not look at the script, is kept by every step. -/
theorem step_keeps {P : State → Prop} (hscript : ∀ s ms, P s → P { s with script := ms })
    (hmove : ∀ m s t, P s → moveStep m s = .next t → P t) {s t : State} (hs : P s) (h : step s = .next t) : P t := by
  obtain ⟨_, ⟨m, hm, _⟩ | ⟨rfl, _⟩⟩ := step_move h
  · exact hmove m _ t (hscript s _ hs) hm
  · exact hs

/-! ### What no move changes or forgets -/

/-- Parameters and stops as they were, the same script, every completion kept, at most one latch. -/
def KeepsRecords (s t : State) : Prop :=
  t.platform = s.platform ∧ t.faults = s.faults ∧ t.refused = s.refused ∧ t.script = s.script ∧
    (∀ k ∈ s.completed, k ∈ t.completed) ∧ (t.nLatched = s.nLatched ∨ t.nLatched = s.nLatched + 1)

theorem KeepsRecords.refl (s : State) : KeepsRecords s s := ⟨rfl, rfl, rfl, rfl, fun _ h => h, .inl rfl⟩

/-- What an engine run leaves of the fields that no store is made of. -/
theorem retire_fields {e : Engine} {en : Entry} {rest : List Entry} {i : Instr} {s u : State}
    (h : exec i (popState e en rest s) = .next u) :
    (retire e en.number u).latched = s.latched ∧ (retire e en.number u).fifo = s.fifo.set e rest ∧
      (retire e en.number u).running = s.running.set e none ∧ (retire e en.number u).nLatched = s.nLatched ∧
      (retire e en.number u).issueOk = s.issueOk ∧ (retire e en.number u).platform = s.platform ∧
      (retire e en.number u).completed = numberInsert s.completed en.number := by
  have hframe := engineRun_frame h
  exact ⟨(congrArg State.latched hframe :), (congrArg State.fifo hframe :), (congrArg State.running hframe :),
    (congrArg State.nLatched hframe :), (congrArg State.issueOk hframe :), (congrArg State.platform hframe :),
    (congrArg State.completed hframe :)⟩

theorem moveStep_keepsRecords {m : Move} {s t : State} (h : moveStep m s = .next t) : KeepsRecords s t := by
  rcases moveStep_next h with rfl | ⟨_, _, _, _, rfl⟩ | ⟨_, _, _, _, _, _, _, rfl⟩ | ⟨_, _, rfl⟩ | ⟨_, _, _, _, rfl⟩ |
    ⟨en, d, _, _, _, _, _, rfl⟩ | ⟨d, en, rest, i, u, _, _, _, _, hx, rfl⟩ | ⟨k, p, u, _, _, hp, rfl⟩
  case inr.inr.inl => exact ⟨rfl, rfl, rfl, rfl, fun _ h => h, .inr rfl⟩
  case inr.inr.inr.inr.inr.inr.inl =>
    have hframe := engineRun_frame hx
    obtain ⟨_, _, _, hn, _, hplat, hcompleted⟩ := retire_fields hx
    refine ⟨hplat, (congrArg State.faults hframe :), (congrArg State.refused hframe :),
      (congrArg State.script hframe :), fun k hk => ?_, .inl hn⟩
    rw [hcompleted]
    exact (mem_numberInsert _ _ _).mpr (.inr hk)
  case inr.inr.inr.inr.inr.inr.inr =>
    have hframe := performDeferred_frame hp
    exact ⟨(congrArg State.platform hframe :), (congrArg State.faults hframe :), (congrArg State.refused hframe :),
      (congrArg State.script hframe :), fun k hk => (congrArg State.completed hframe :).symm ▸ hk,
      .inl (congrArg State.nLatched hframe :)⟩
  all_goals exact KeepsRecords.refl _

/-! ### The memories -/

/-- What is read from a store stands in it. -/
theorem mem_of_cellRead {α : Type} {m : List (Nat × α)} {k : Nat} {v : α} (h : cellRead m k = some v) :
    (k, v) ∈ m := by
  induction m with
  | nil => cases h
  | cons c m ih =>
    obtain ⟨j, w⟩ := c
    unfold cellRead at h
    split at h
    · next hk =>
      obtain rfl := Option.some.inj h
      simp [hk]
    · exact List.mem_cons_of_mem _ (ih h)

/-- The stores a synchronous instruction makes stay in canonical form inside their address spaces. -/
theorem SyncEffect.memory_wf {s t : State} {i : Instr} (he : SyncEffect s i t) (h : Memory.wf s = true) :
    Memory.wf t = true := by
  cases he with
  | multiply _ _ hfit => exact memory_wf_writeL2Many h hfit
  | fromHost _ _ hfit => exact memory_wf_writeL2Many h hfit
  | toHost => exact memory_wf_writeHostMany _ _ h
  | fmapEntry => exact memory_wf_writeFmapShape _ _ h
  | weightEntry => exact memory_wf_writeWeightShape _ _ h
  | function _ hfit => exact memory_wf_writeL2Many h hfit

theorem SyncEffect.pendingAsync_eq {s t : State} {i : Instr} (he : SyncEffect s i t) :
    t.pendingAsync = s.pendingAsync := by
  cases he <;> rfl

theorem exec_memoryInv {i : Instr} {s t : State} (h : MemoryInv s) (hx : exec i s = .next t) : MemoryInv t := by
  obtain ⟨hwf, hfits⟩ := h
  cases ha : instrIsAsync i with
  | false =>
    have heff := syncEffect_of_exec ha hx
    exact ⟨heff.memory_wf hwf, by rw [heff.pendingAsync_eq]; exact hfits⟩
  | true =>
    obtain ⟨e, op, rfl, hop⟩ := addPending_of_exec ha hx
    refine ⟨hwf, fun c hc => ?_⟩
    rcases fst_cellWrite _ _ _ c hc with rfl | hc
    · exact hop
    · exact hfits c hc

/-- A pending operation that fits, performed, keeps the memories in form. -/
theorem performDeferred_memory_wf {op : Deferred} {k : Nat} {s t : State} (hop : op.fits) (h : Memory.wf s = true)
    (hp : performDeferred op k s = .ok t) : Memory.wf t = true := by
  cases op with
  | copy route dest src n =>
    cases route with
    | hostToL2 =>
      obtain ⟨r, _, rfl⟩ := (copyFromHost_ok _ _ _ _ _).mp hp
      exact memory_wf_writeL2Many h (by simpa [Deferred.fits] using hop)
    | l2ToHost =>
      obtain ⟨vs, _, r, _, rfl⟩ := (copyToHost_ok _ _ _ _ _ _).mp hp
      exact memory_wf_writeHostMany _ _ h
  | cvo func f =>
    obtain ⟨z, hlen, rfl⟩ := cvoEffects_ok hp
    exact memory_wf_writeL2Many h (by rw [hlen]; exact hop)

theorem moveStep_memoryInv {m : Move} {s t : State} (hs : MemoryInv s) (h : moveStep m s = .next t) :
    MemoryInv t := by
  rcases moveStep_next h with rfl | ⟨_, _, _, _, rfl⟩ | ⟨_, _, _, _, _, _, _, rfl⟩ | ⟨_, _, rfl⟩ | ⟨_, _, _, _, rfl⟩ |
    ⟨en, d, _, _, _, _, _, rfl⟩ | ⟨d, en, rest, i, u, _, _, _, _, hx, rfl⟩ | ⟨k, p, u, _, hk, hp, rfl⟩
  case inr.inr.inr.inr.inl => exact ⟨memory_wf_writeHostMany _ _ hs.1, hs.2⟩
  case inr.inr.inr.inr.inr.inr.inl => exact exec_memoryInv (s := popState d en rest s) (t := u) hs hx
  case inr.inr.inr.inr.inr.inr.inr =>
    obtain ⟨hwf, hfits⟩ := hs
    have hwf' : Memory.wf u = true := performDeferred_memory_wf (hfits _ (mem_of_cellRead hk)) hwf hp
    refine ⟨hwf', fun c hc => hfits c ?_⟩
    have hpending : u.pendingAsync = s.pendingAsync := (congrArg State.pendingAsync (performDeferred_frame hp) :)
    rw [← hpending]
    exact mem_of_mem_cellErase _ _ c hc
  all_goals exact hs

/-! ### The bookkeeping of issue, queues and completion -/

/-- What holds for the new thing of one engine, and held for the things of all, holds for all. -/
theorem perEngine_forall_set {α : Type} {P : Engine → α → Prop} {p : PerEngine α} {e : Engine} {v : α} (hv : P e v)
    (hp : ∀ d, P d (p.get d)) (d : Engine) : P d ((p.set e v).get d) := by
  by_cases h : d = e
  · subst h
    rwa [perEngine_get_set_same]
  · rw [perEngine_get_set_ne _ _ h]
    exact hp d

/-- What running the head of an engine's own queue does to `pending_async`. -/
theorem retire_pending {e : Engine} {en : Entry} {rest : List Entry} {i : Instr} {s u : State}
    (hd : decode en.word = .ok i) (he : engineOfOpcode (opcodeOf en.word) = some e)
    (h : exec i (popState e en rest s) = .next u) :
    (retire e en.number u).pendingAsync = s.pendingAsync ∨
      ∃ op, (retire e en.number u).pendingAsync =
        cellWrite s.pendingAsync en.number { op := op, footprint := en.footprint } :=
  exec_pending (s := popState e en rest s) (t := u) hd he (perEngine_get_set_same s.running e (some en)) h

theorem queueInv_latch {s : State} (v lo : Half) (h : QueueInv s) : QueueInv (latchState v lo s) := by
  obtain ⟨_, hrun, hdepth, hfifo, _, hdone, hsorted, hpend, hrising⟩ := h
  refine ⟨nofun, hrun, hdepth, fun e en hen => ?_, fun en hen => ?_, fun k hk => ?_, hsorted, fun c hc => ?_, hrising⟩
  · exact ⟨(hfifo e en hen).1, (hfifo e en hen).2.trans (Nat.le_succ _)⟩
  · obtain rfl := Option.some.inj hen
    rfl
  · exact (hdone k hk).trans (Nat.le_succ _)
  · exact (hpend c hc).trans (Nat.le_succ _)

/-- A status read allows an issue only where BUSY is 0, and BUSY is 1 while something is latched (R26, R276). -/
theorem queueInv_readStatus {s : State} (h : QueueInv s) : QueueInv (hostReadStatus s) := by
  obtain ⟨_, hrest⟩ := h
  refine ⟨fun hok => ?_, hrest⟩
  by_contra hl
  have hbusy : s.status.getLsbD 0 = true := by
    rw [status_busy]
    exact busy_of_latched _ hl
  simp only [hostReadStatus, hbusy, Bool.not_true, Bool.false_eq_true] at hok

/-- Each queue keeps within its depth. -/
def QueuesFit (p : Platform) (fifo : PerEngine (List Entry)) : Prop := ∀ e, (fifo.get e).length ≤ fifoDepth p e

/-- Each queue holds words of its own opcode, with numbers at most `n`. -/
def QueuesOwn (n : Nat) (fifo : PerEngine (List Entry)) : Prop :=
  ∀ e, ∀ en ∈ fifo.get e, engineOfOpcode (opcodeOf en.word) = some e ∧ en.number ≤ n

theorem QueuesFit.set {p : Platform} {fifo : PerEngine (List Entry)} (h : QueuesFit p fifo) {e : Engine}
    {q : List Entry} (hq : q.length ≤ fifoDepth p e) : QueuesFit p (fifo.set e q) :=
  perEngine_forall_set (P := fun d (q : List Entry) => q.length ≤ fifoDepth p d) hq h

theorem QueuesOwn.set {n : Nat} {fifo : PerEngine (List Entry)} (h : QueuesOwn n fifo) {e : Engine} {q : List Entry}
    (hq : ∀ en ∈ q, engineOfOpcode (opcodeOf en.word) = some e ∧ en.number ≤ n) : QueuesOwn n (fifo.set e q) :=
  perEngine_forall_set
    (P := fun d (q : List Entry) => ∀ en ∈ q, engineOfOpcode (opcodeOf en.word) = some d ∧ en.number ≤ n) hq h

theorem queueInv_dispatch {s : State} {e : Engine} {en : Entry} (hl : s.latched = some en)
    (he : engineOfOpcode (opcodeOf en.word) = some e) (hroom : fifoHasRoom e s = true) (h : QueueInv s) :
    QueueInv (dispatchState e en s) := by
  obtain ⟨_, hrun, hdepth, hfifo, hlast, hdone, hsorted, hpend, hrising⟩ := h
  have hfit : QueuesFit s.platform (s.fifo.set e (s.fifo.get e ++ [en])) := by
    refine QueuesFit.set hdepth ?_
    rw [List.length_append]
    exact of_decide_eq_true hroom
  have hown : QueuesOwn s.nLatched (s.fifo.set e (s.fifo.get e ++ [en])) := by
    refine QueuesOwn.set hfifo fun x hx => ?_
    rcases List.mem_append.mp hx with hx | hx
    · exact hfifo e x hx
    · obtain rfl := List.mem_singleton.mp hx
      exact ⟨he, (hlast x hl).le⟩
  exact ⟨fun _ => rfl, hrun, hfit, hown, nofun, hdone, hsorted, hpend, hrising⟩

theorem queueInv_run {s u : State} {e : Engine} {en : Entry} {rest : List Entry} {i : Instr}
    (hq : s.fifo.get e = en :: rest) (hd : decode en.word = .ok i) (hx : exec i (popState e en rest s) = .next u)
    (h : QueueInv s) : QueueInv (retire e en.number u) := by
  obtain ⟨hissue, hrun, hdepth, hfifo, hlast, hdone, hsorted, hpend, hrising⟩ := h
  have hhead := hfifo e en (by simp [hq])
  have hidle : s.running.set e none = s.running := by rw [← hrun e, perEngine_set_get]
  have hfit : QueuesFit s.platform (s.fifo.set e rest) := by
    refine QueuesFit.set hdepth ?_
    have := hdepth e
    rw [hq, List.length_cons] at this
    omega
  have hown : QueuesOwn s.nLatched (s.fifo.set e rest) :=
    QueuesOwn.set hfifo fun x hx => hfifo e x (by simp [hq, hx])
  have hdone' : ∀ k ∈ numberInsert s.completed en.number, k ≤ s.nLatched := by
    intro k hk
    rcases (mem_numberInsert _ _ _).mp hk with rfl | hk
    · exact hhead.2
    · exact hdone k hk
  have hpending : (∀ c ∈ (retire e en.number u).pendingAsync, c.1 ≤ s.nLatched) ∧
      cellsRising (retire e en.number u).pendingAsync = true := by
    rcases retire_pending hd hhead.1 hx with hp | ⟨op, hp⟩
    · rw [hp]
      exact ⟨hpend, hrising⟩
    · rw [hp]
      refine ⟨fun c hc => ?_, cellsRising_cellWrite _ _ _ hrising⟩
      rcases fst_cellWrite _ _ _ c hc with rfl | hc
      · exact hhead.2
      · exact hpend c hc
  obtain ⟨hlatchedEq, hfifoEq, hrunningEq, hnumberEq, hissueEq, hplatformEq, hcompletedEq⟩ := retire_fields hx
  unfold QueueInv
  rw [hlatchedEq, hfifoEq, hrunningEq, hnumberEq, hissueEq, hplatformEq, hcompletedEq, hidle]
  exact ⟨hissue, hrun, hfit, hown, hlast, hdone', pairwise_numberInsert _ _ hsorted, hpending⟩

theorem queueInv_removePending {s : State} (k : Nat) (h : QueueInv s) : QueueInv (removePending k s) := by
  obtain ⟨hissue, hrun, hdepth, hfifo, hlast, hdone, hsorted, hpend, hrising⟩ := h
  exact ⟨hissue, hrun, hdepth, hfifo, hlast, hdone, hsorted, fun c hc => hpend c (mem_of_mem_cellErase _ _ c hc),
    cellsRising_cellErase _ _ hrising⟩

theorem moveStep_queueInv {m : Move} {s t : State} (hs : QueueInv s) (h : moveStep m s = .next t) : QueueInv t := by
  rcases moveStep_next h with rfl | ⟨_, _, _, _, rfl⟩ | ⟨_, v, lo, _, _, _, _, rfl⟩ | ⟨_, _, rfl⟩ | ⟨_, _, _, _, rfl⟩ |
    ⟨en, d, _, hl, he, hroom, _, rfl⟩ | ⟨d, en, rest, i, u, _, _, hq, hd, hx, rfl⟩ | ⟨k, p, u, _, _, hp, rfl⟩
  · exact hs
  · exact hs
  · exact queueInv_latch v lo hs
  · exact queueInv_readStatus hs
  · exact hs
  · exact queueInv_dispatch hl he hroom hs
  · exact queueInv_run hq hd hx hs
  · refine queueInv_removePending k ?_
    rw [← performDeferred_frame hp] at hs
    exact hs

/-! ### The freedom from races -/

/-- The entries of all queues and running slots, in the order of the engines. -/
def queued (s : State) : List Entry := Engine.list.flatMap fun e => s.fifo.get e ++ (s.running.get e).toList

theorem inFlight_eq (s : State) :
    s.inFlight = (s.latched.toList ++ queued s).map (fun en => (en.number, en.footprint)) ++
      s.pendingAsync.map fun c => (c.1, c.2.footprint) := rfl

/-- If one list of a family holds one thing more, so do all of them together. -/
theorem flatMap_perm_cons {ι α : Type} {l : List ι} {e : ι} {f g : ι → List α} {x : α} (hn : l.Nodup) (he : e ∈ l)
    (hx : (f e).Perm (x :: g e)) (ho : ∀ d, d ≠ e → f d = g d) : (l.flatMap f).Perm (x :: l.flatMap g) := by
  induction l with
  | nil => cases he
  | cons d l ih =>
    obtain ⟨hd, hn⟩ := List.nodup_cons.mp hn
    simp only [List.flatMap_cons]
    by_cases h : d = e
    · subst h
      have hrest : l.flatMap f = l.flatMap g :=
        List.flatMap_congr fun c hc => ho c fun hce => hd (hce ▸ hc)
      rw [hrest]
      exact hx.append_right _
    · have hel : e ∈ l := (List.mem_cons.mp he).resolve_left (Ne.symm h)
      rw [ho d h]
      exact ((ih hn hel).append_left (g d)).trans List.perm_middle

theorem engine_list_complete (e : Engine) : e ∈ Engine.list := by cases e <;> decide

/-- One entry more in one queue is one entry more among the queued. -/
theorem queued_perm_cons {s t : State} {e : Engine} {en : Entry} (hrun : t.running = s.running)
    (hfifo : (s.fifo.get e).Perm (en :: t.fifo.get e)) (ho : ∀ d, d ≠ e → s.fifo.get d = t.fifo.get d) :
    (queued s).Perm (en :: queued t) := by
  refine flatMap_perm_cons (by decide) (engine_list_complete e) ?_ fun d hd => ?_
  · rw [hrun]
    exact hfifo.append_right _
  · rw [hrun, ho d hd]

/-- Freedom from races does not depend on the order, and goes over to parts. -/
theorem pairwise_not_conflicts_of_subperm {xs ys : List (Nat × Footprint)} (h : xs.Subperm ys)
    (hys : ys.Pairwise fun x y => ¬Footprint.conflicts x.2 y.2) :
    xs.Pairwise fun x y => ¬Footprint.conflicts x.2 y.2 := by
  obtain ⟨zs, hperm, hsub⟩ := h
  exact hperm.pairwise (hys.sublist hsub) fun hxy hyx => hxy (Footprint.conflicts_symm hyx)

theorem cellWrite_subperm {α : Type} (m : List (Nat × α)) (k : Nat) (v : α) :
    (cellWrite m k v).Subperm ((k, v) :: m) := by
  induction m with
  | nil => exact List.Subperm.refl _
  | cons c m ih =>
    obtain ⟨j, w⟩ := c
    unfold cellWrite
    split
    · exact List.Subperm.refl _
    · split
      · exact ((List.sublist_cons_self (j, w) m).cons_cons (k, v)).subperm
      · exact ((List.subperm_cons (j, w)).mpr ih).trans (List.Perm.swap _ _ _).subperm

theorem cellErase_sublist {α : Type} (m : List (Nat × α)) (k : Nat) : (cellErase m k).Sublist m := by
  induction m with
  | nil => exact List.Sublist.refl _
  | cons c m ih =>
    obtain ⟨j, w⟩ := c
    unfold cellErase
    split
    · exact ih.cons (j, w)
    · exact ih.cons_cons (j, w)

/-- The latch adds the new instruction to what is in flight, if nothing was latched. -/
theorem inFlight_latch {s : State} (v lo : Half) (hl : s.latched = none) :
    (latchState v lo s).inFlight = (s.nLatched + 1, footprintOf (assembleWord lo v) s) :: s.inFlight := by
  rw [inFlight_eq s, hl]
  rfl

/-- The dispatch step moves an entry from the latch to a queue. -/
theorem inFlight_dispatch {s : State} {e : Engine} {en : Entry} (hl : s.latched = some en) :
    (dispatchState e en s).inFlight.Perm s.inFlight := by
  have hqueued : (queued (dispatchState e en s)).Perm (en :: queued s) := by
    refine queued_perm_cons (e := e) rfl ?_ fun d hd => perEngine_get_set_ne _ _ hd
    rw [dispatchState_fifo, perEngine_get_set_same]
    exact List.perm_append_singleton en _
  rw [inFlight_eq s, hl]
  exact (hqueued.map _).append_right _

/-- An engine's step takes an entry out of its queue, and may leave it pending. -/
theorem inFlight_run {s u : State} {e : Engine} {en : Entry} {rest : List Entry} {i : Instr}
    (hidle : s.running.get e = none) (hq : s.fifo.get e = en :: rest) (hd : decode en.word = .ok i)
    (he : engineOfOpcode (opcodeOf en.word) = some e) (hx : exec i (popState e en rest s) = .next u) :
    (retire e en.number u).inFlight.Subperm s.inFlight := by
  obtain ⟨hlatched, hfifo, hrunning, -⟩ := retire_fields hx
  have hqueued : (queued s).Perm (en :: queued (retire e en.number u)) := by
    refine queued_perm_cons (e := e) ?_ ?_ fun d hd => ?_
    · rw [hrunning, ← hidle, perEngine_set_get]
    · rw [hfifo, perEngine_get_set_same, hq]
    · rw [hfifo, perEngine_get_set_ne _ _ hd]
  have hpending : ((retire e en.number u).pendingAsync.map fun c => (c.1, c.2.footprint)).Subperm
      ((en.number, en.footprint) :: s.pendingAsync.map fun c => (c.1, c.2.footprint)) := by
    rcases retire_pending hd he hx with hp | ⟨op, hp⟩
    · rw [hp]
      exact (List.sublist_cons_self _ _).subperm
    · rw [hp]
      obtain ⟨m, hperm, hsub⟩ := cellWrite_subperm s.pendingAsync en.number { op := op, footprint := en.footprint }
      exact ⟨_, hperm.map _, hsub.map _⟩
  have hmoved : s.inFlight.Perm
      ((s.latched.toList ++ queued (retire e en.number u)).map (fun en => (en.number, en.footprint)) ++
        (en.number, en.footprint) :: s.pendingAsync.map fun c => (c.1, c.2.footprint)) := by
    have hall : (s.latched.toList ++ queued s).Perm (en :: (s.latched.toList ++ queued (retire e en.number u))) :=
      (hqueued.append_left _).trans List.perm_middle
    exact ((hall.map _).append_right _).trans List.perm_middle.symm
  rw [inFlight_eq (retire e en.number u), hlatched]
  exact ((List.subperm_append_left _).mpr hpending).trans hmoved.symm.subperm

theorem moveStep_raceFree {m : Move} {s t : State} (hq : QueueInv s) (hs : RaceFree s) (h : moveStep m s = .next t) :
    RaceFree t := by
  rcases moveStep_next h with rfl | ⟨_, _, _, _, rfl⟩ | ⟨_, v, lo, _, hi, _, hfree, rfl⟩ | ⟨_, _, rfl⟩ |
    ⟨_, _, _, _, rfl⟩ | ⟨en, d, _, hl, _, _, _, rfl⟩ | ⟨d, en, rest, i, u, _, hidle, hhead, hd, hx, rfl⟩ |
    ⟨k, p, u, _, _, hp, rfl⟩
  · exact hs
  · exact hs
  · rw [RaceFree, inFlight_latch v lo (hq.1 hi)]
    exact List.pairwise_cons.mpr ⟨(firstConflict_eq_none_iff_not_conflicts _ _).mp hfree, hs⟩
  · exact hs
  · exact hs
  · exact pairwise_not_conflicts_of_subperm (inFlight_dispatch hl).subperm hs
  · obtain ⟨_, _, _, hfifo, _⟩ := hq
    exact pairwise_not_conflicts_of_subperm
      (inFlight_run hidle hhead hd (hfifo d en (by simp [hhead])).1 hx) hs
  · rw [← performDeferred_frame hp] at hs
    exact hs.sublist (((cellErase_sublist u.pendingAsync k).map _).append_left _)

/-! ### The drain -/

/-- Under the queue invariant the drain finds a move as long as anything is in flight. -/
theorem quiescent_of_drainMove_none {s : State} (h : QueueInv s) (hd : drainMove s = none) : s.quiescent = true := by
  obtain ⟨_, hrun, _, _, _, _, _, _, _⟩ := h
  unfold drainMove at hd
  split at hd
  · cases hd
  next hdispatch =>
  split at hd
  · cases hd
  next hengines =>
  split at hd
  · cases hd
  next hpending =>
  have hfifo (e : Engine) : s.fifo.get e = [] := by
    have := List.find?_eq_none.mp hengines e (engine_list_complete e)
    simpa [engineEnabled, hrun e] using this
  have hlatched : s.latched = none := by
    cases hl : s.latched with
    | none => rfl
    | some en =>
      refine absurd ((dispatchEnabled_iff s).mpr ⟨en, hl, fun e _ => ?_⟩) hdispatch
      simp [fifoHasRoom, hfifo e, fifoDepth]
  simp [State.quiescent, hlatched, hfifo, hrun, hpending]

/-- A quiescent machine drains nothing. -/
theorem drainMove_none_of_quiescent {s : State} (h : s.quiescent = true) : drainMove s = none := by
  simp only [State.quiescent, Bool.and_eq_true, Option.isNone_iff_eq_none, List.all_eq_true, List.isEmpty_iff] at h
  obtain ⟨⟨hlatched, hengines⟩, hpending⟩ := h
  cases hd : drainMove s with
  | none => rfl
  | some m =>
    rcases drainMove_some hd with ⟨hen, _⟩ | ⟨_, e, hen, _⟩ | ⟨_, _, k, p, rest, hp, _⟩
    · obtain ⟨en, hl, _⟩ := (dispatchEnabled_iff s).mp hen
      simp [hlatched] at hl
    · simp [engineEnabled, hengines e (engine_list_complete e)] at hen
    · simp [hpending] at hp

/-- The work left, by places. -/
theorem workLeft_eq (s : State) :
    workLeft s = 3 * s.latched.toList.length + 2 * (Engine.list.flatMap fun e => s.fifo.get e).length +
      s.pendingAsync.length := rfl

theorem workLeft_dispatch {s : State} {e : Engine} {en : Entry} (hl : s.latched = some en) :
    workLeft (dispatchState e en s) < workLeft s := by
  have hfifo : (Engine.list.flatMap fun d => (dispatchState e en s).fifo.get d).Perm
      (en :: Engine.list.flatMap fun d => s.fifo.get d) := by
    refine flatMap_perm_cons (by decide) (engine_list_complete e) ?_ fun d hd => perEngine_get_set_ne _ _ hd
    rw [dispatchState_fifo, perEngine_get_set_same]
    exact List.perm_append_singleton en _
  rw [workLeft_eq, workLeft_eq, hfifo.length_eq, hl, dispatchState_latched, dispatchState_pendingAsync]
  simp only [Option.toList_some, Option.toList_none, List.length_cons, List.length_nil]
  omega

theorem workLeft_run {s u : State} {e : Engine} {en : Entry} {rest : List Entry} {i : Instr}
    (hq : s.fifo.get e = en :: rest) (hd : decode en.word = .ok i) (he : engineOfOpcode (opcodeOf en.word) = some e)
    (hx : exec i (popState e en rest s) = .next u) : workLeft (retire e en.number u) < workLeft s := by
  obtain ⟨hlatched, hfifo, -⟩ := retire_fields hx
  have hqueues : (Engine.list.flatMap fun d => s.fifo.get d).Perm
      (en :: Engine.list.flatMap fun d => (retire e en.number u).fifo.get d) := by
    refine flatMap_perm_cons (by decide) (engine_list_complete e) ?_ fun d hd => ?_
    · rw [hfifo, perEngine_get_set_same, hq]
    · rw [hfifo, perEngine_get_set_ne _ _ hd]
  have hpending : (retire e en.number u).pendingAsync.length ≤ s.pendingAsync.length + 1 := by
    rcases retire_pending hd he hx with hp | ⟨op, hp⟩
    · rw [hp]
      exact Nat.le_succ _
    · rw [hp]
      exact (cellWrite_subperm _ _ _).length_le
  rw [workLeft_eq, workLeft_eq, hqueues.length_eq, hlatched, List.length_cons]
  omega

theorem workLeft_removePending {s : State} {k : Nat} {p : Pending} {rest : List (Nat × Pending)}
    (h : s.pendingAsync = (k, p) :: rest) : workLeft (removePending k s) < workLeft s := by
  have hless : (cellErase s.pendingAsync k).length < s.pendingAsync.length := by
    rw [h, cellErase, if_pos rfl, List.length_cons]
    exact Nat.lt_succ_of_le (cellErase_sublist rest k).length_le
  rw [workLeft_eq, workLeft_eq]
  exact Nat.add_lt_add_left hless _

/-- A drain move that answers leaves less work. -/
theorem workLeft_drain {s t : State} {m : Move} (hq : QueueInv s) (hd : drainMove s = some m)
    (h : moveStep m s = .next t) : workLeft t < workLeft s := by
  obtain ⟨_, _, _, hfifo, _⟩ := hq
  rcases drainMove_some hd with ⟨hen, rfl⟩ | ⟨_, e, hen, rfl⟩ | ⟨_, _, k, p, rest, hp, rfl⟩
  · obtain ⟨en, e, hl, rfl⟩ := dispatch_next_of_enabled hen h
    exact workLeft_dispatch hl
  · simp only [engineEnabled, Bool.and_eq_true, Option.isNone_iff_eq_none, Bool.not_eq_true',
      List.isEmpty_eq_false_iff] at hen
    obtain ⟨hidle, hne⟩ := hen
    obtain ⟨en, rest, hhead⟩ := List.exists_cons_of_ne_nil hne
    rw [moveStep, engineStep_enabled hidle hhead] at h
    cases hdec : decode en.word with
    | error d => simp [runEntry, hdec] at h
    | ok i =>
      rw [runEntry_of_decode _ hdec] at h
      obtain ⟨u, hx, rfl⟩ := (mapNext_next_iff _ _ _).mp h
      exact workLeft_run hhead hdec (hfifo e en (by simp [hhead])).1 hx
  · have hread : cellRead s.pendingAsync k = some p := by rw [hp, cellRead, if_pos rfl]
    simp only [moveStep, asyncStep, hread] at h
    obtain ⟨u, hu, rfl⟩ := (mapNext_next_iff _ _ _).mp h
    have hframe := performDeferred_frame ((toResult_next_iff _ _).mp hu)
    have hwork : workLeft u = workLeft s := by rw [← hframe]; rfl
    rw [← hwork]
    exact workLeft_removePending ((congrArg State.pendingAsync hframe :).trans hp)

end Sys2Proof.Machine

namespace Sys2Proof.Proofs

open Sys2Proof.Machine

/-- Settles O48: no move breaks the memory invariant (`moveStep_memoryInv`). -/
theorem stepKeepsMemoryInv : Obligations.StepKeepsMemoryInv := fun _ _ =>
  step_keeps (fun _ _ h => h) fun _ _ _ => moveStep_memoryInv

/-- Settles O49: the empty stores are in form, and nothing is pending. -/
theorem resetMemoryInv : Obligations.ResetMemoryInv := ⟨memory_wf_reset, nofun⟩

/-- Settles O50: no move breaks the queue invariant (`moveStep_queueInv`). -/
theorem stepKeepsQueueInv : Obligations.StepKeepsQueueInv := fun _ _ =>
  step_keeps (fun _ _ h => h) fun _ _ _ => moveStep_queueInv

/-- Settles O51: at reset every place is empty. -/
theorem resetQueueInv : Obligations.ResetQueueInv := by
  refine ⟨nofun, perEngine_get_all none, fun e => ?_, fun e en hen => ?_, nofun, nofun, .nil, nofun, rfl⟩
  · rw [show State.reset.fifo.get e = [] from perEngine_get_all [] e]
    exact Nat.zero_le _
  · rw [show State.reset.fifo.get e = [] from perEngine_get_all [] e] at hen
    cases hen

/-- Settles O47: no move breaks the queue invariant and the freedom from races together (`moveStep_raceFree`). -/
theorem stepKeepsRaceFreedom : Obligations.StepKeepsRaceFreedom := by
  refine ⟨.nil, fun s t hq hs h => ?_⟩
  exact (step_keeps (P := fun s => QueueInv s ∧ RaceFree s) (fun _ _ h => h)
    (fun _ _ _ ⟨hq, hs⟩ h => ⟨moveStep_queueInv hq h, moveStep_raceFree hq hs h⟩) ⟨hq, hs⟩ h).2

/-- Settles O53: a drain move leaves less work (`workLeft_drain`), and there is one as long as anything is in flight. -/
theorem drainRunsDry : Obligations.DrainRunsDry := by
  intro s t hq hs h
  have hr := running_of_step_next h
  refine ⟨fun hquiet => ?_, fun hbusy => ?_⟩
  · rw [step_of_idle hr ((nextMove_of_drain hs).trans (drainMove_none_of_quiescent hquiet))] at h
    exact (Host.Outcome.next.inj h).symm
  · cases hd : drainMove s with
    | none =>
      rw [quiescent_of_drainMove_none hq hd] at hbusy
      cases hbusy
    | some m =>
      rw [step_of_drain hr hs hd] at h
      obtain ⟨_, _, _, hscript, _⟩ := moveStep_keepsRecords h
      exact ⟨workLeft_drain hq hd h, hscript.trans hs⟩

/-- Settles O54: `moveStep_keepsRecords`, on the state whose script no longer names the move. -/
theorem stepKeepsRecords : Obligations.StepKeepsRecords := by
  intro s t h
  obtain ⟨⟨hfaults, hrefused⟩, ⟨m, hm, _⟩ | ⟨rfl, hscript, _⟩⟩ := step_move h
  · obtain ⟨hp, hf, hr, hs, hc, hn⟩ := moveStep_keepsRecords hm
    exact ⟨hp, hf.trans hfaults, hr.trans hrefused, hc, hn, hs⟩
  · exact ⟨rfl, hfaults, hrefused, fun _ hk => hk, .inl rfl, by rw [hscript]; rfl⟩

end Sys2Proof.Proofs
end

section
/-! PROOFS. The whole machine: who may write each store (10_state.md section 4), what a stop leaves (60_exceptions.md R291
to R294), and a serialised issue from the host's writes to the instruction (45_host_interface.md R279). -/

namespace Sys2Proof.Machine

/-! ### Which step can change a store -/

/-- A step that ran the head `en` of the queue of `e`, an instruction `i` that answered `u`. -/
structure RanHead (s t : State) (e : Engine) (en : Entry) (i : Instr) (u : State) : Prop where
  head : s.fifo.get e = en :: t.fifo.get e
  decodes : decode en.word = .ok i
  answers : exec i (popState e en (t.fifo.get e) { s with script := s.script.tail }) = .next u
  retires : t = retire e en.number u

/-- A step that performed the operation pending under `k`. -/
structure Performed (s t : State) (k : Nat) (p : Pending) (u : State) : Prop where
  pending : cellRead s.pendingAsync k = some p
  answers : performDeferred p.op k { s with script := s.script.tail } = .ok u
  removes : t = removePending k u

/-- A step that changes a store ran an instruction, performed a pending operation, or stored bytes of the host; every
other step leaves all the stores as they are. -/
theorem step_stores {s t : State} (h : step s = .next t) :
    (∃ e en i u, RanHead s t e en i u) ∨ (∃ k p u, Performed s t k p u) ∨
      (∃ b bytes, s.script = .host (.memWrite b bytes) :: t.script ∧
        t = ({ s with script := s.script.tail } : State).writeHostMany b bytes) ∨
      (t.l2 = s.l2 ∧ t.hostMem = s.hostMem ∧ t.fmapShape = s.fmapShape ∧ t.weightShape = s.weightShape ∧
        t.eMax = s.eMax) := by
  obtain ⟨_, ⟨m, hm, hnext⟩ | ⟨rfl, _⟩⟩ := step_move h
  · rcases moveStep_next hm with rfl | ⟨_, _, _, _, rfl⟩ | ⟨_, _, _, _, _, _, _, rfl⟩ | ⟨_, _, rfl⟩ |
      ⟨b, bytes, rfl, _, rfl⟩ | ⟨en, d, _, _, _, _, _, rfl⟩ | ⟨d, en, rest, i, u, _, _, hq, hd, hx, rfl⟩ |
      ⟨k, p, u, _, hk, hp, rfl⟩
    case inr.inr.inr.inr.inl =>
      rcases hnext with hs | ⟨_, hd⟩
      · exact .inr (.inr (.inl ⟨b, bytes, hs, rfl⟩))
      · exact absurd hd (drainMove_ne_host _)
    case inr.inr.inr.inr.inr.inr.inl =>
      have hrest : (retire d en.number u).fifo.get d = rest := by
        rw [(retire_fields hx).2.1, perEngine_get_set_same]
      exact .inl ⟨d, en, i, u, ⟨by rw [hrest]; exact hq, hd, by rw [hrest]; exact hx, rfl⟩⟩
    case inr.inr.inr.inr.inr.inr.inr => exact .inr (.inl ⟨k, p, u, ⟨hk, hp, rfl⟩⟩)
    all_goals exact .inr (.inr (.inr ⟨rfl, rfl, rfl, rfl, rfl⟩))
  · exact .inr (.inr (.inr ⟨rfl, rfl, rfl, rfl, rfl⟩))

/-- What is accepted changes no store; what is done at once has one of the effects of `SyncEffect`. -/
theorem exec_stores {i : Instr} {s t : State} (h : exec i s = .next t) :
    (instrIsAsync i = false ∧ SyncEffect s i t) ∨ ∃ e op, t = s.addPending e op := by
  cases ha : instrIsAsync i with
  | false => exact .inl ⟨rfl, syncEffect_of_exec ha h⟩
  | true =>
    obtain ⟨e, op, ht, _⟩ := addPending_of_exec ha h
    exact .inr ⟨e, op, ht⟩

theorem RanHead.completes {s t u : State} {e : Engine} {en : Entry} {i : Instr} (h : RanHead s t e en i u) :
    en.number ∈ t.completed := by
  rw [h.retires]
  exact (mem_numberInsert _ _ _).mpr (.inl rfl)

/-- A performed operation is pending no more. -/
theorem Performed.gone {s t u : State} {k : Nat} {p : Pending} (h : Performed s t k p u) :
    cellRead t.pendingAsync k = none := by
  rw [h.removes, removePending_pendingAsync, cellRead_cellErase, if_pos rfl]

/-- e_max changes only by a multiply with `findemax` (R34, R143). -/
theorem SyncEffect.eMax_changed {s t : State} {i : Instr} (he : SyncEffect s i t) (h : t.eMax ≠ s.eMax) :
    ∃ kind f, i = gemxInstr kind f ∧ f.findemax = true := by
  cases he with
  | @multiply kind f nIn out hin hout hfit =>
    refine ⟨kind, f, rfl, ?_⟩
    by_contra hf
    exact h (if_neg hf)
  | fromHost | toHost | fmapEntry | weightEntry | function => exact absurd rfl h

/-- An entry of cache 0 changes only by the MEMSET that names it (R29, R191). -/
theorem SyncEffect.fmapShape_changed {s t : State} {i : Instr} {p : Ptr} (he : SyncEffect s i t)
    (h : t.readFmapShape p ≠ s.readFmapShape p) :
    ∃ f, i = .memset f ∧ f.destCache = 0 ∧ f.destAddr = p ∧ t.readFmapShape p = some (memsetEntry f) := by
  cases he with
  | @fmapEntry f hcache =>
    by_cases hp : p = f.destAddr
    · exact ⟨f, rfl, hcache, hp.symm, by rw [readFmapShape_writeFmapShape, if_pos hp]⟩
    · exact absurd (by rw [readFmapShape_writeFmapShape, if_neg hp]) h
  | multiply | fromHost | toHost | weightEntry | function => exact absurd rfl h

/-- An entry of cache 1 changes only by the MEMSET that names it (R30, R191). -/
theorem SyncEffect.weightShape_changed {s t : State} {i : Instr} {p : Ptr} (he : SyncEffect s i t)
    (h : t.readWeightShape p ≠ s.readWeightShape p) :
    ∃ f, i = .memset f ∧ f.destCache = 1 ∧ f.destAddr = p ∧ t.readWeightShape p = some (memsetEntry f) := by
  cases he with
  | @weightEntry f hcache =>
    by_cases hp : p = f.destAddr
    · exact ⟨f, rfl, hcache, hp.symm, by rw [readWeightShape_writeWeightShape, if_pos hp]⟩
    · exact absurd (by rw [readWeightShape_writeWeightShape, if_neg hp]) h
  | multiply | fromHost | toHost | fmapEntry | function => exact absurd rfl h

/-- A host byte changes only by a copy to the host (R37, R173). -/
theorem SyncEffect.host_changed {s t : State} {i : Instr} {a : Nat} (he : SyncEffect s i t)
    (h : t.readHost a ≠ s.readHost a) : ∃ f, i = .memcpy f ∧ copyRoute f = some .l2ToHost := by
  cases he with
  | @toHost f n b bytes hroute hlen hrange => exact ⟨f, rfl, hroute⟩
  | multiply | fromHost | fmapEntry | weightEntry | function => exact absurd rfl h

/-- Of the pending operations only a copy to the host changes a host byte (R37, R173). -/
theorem performDeferred_host_changed {op : Deferred} {k a : Nat} {s t : State}
    (hp : performDeferred op k s = .ok t) (h : t.readHost a ≠ s.readHost a) :
    ∃ dest src n, op = .copy .l2ToHost dest src n := by
  cases op with
  | copy route dest src n =>
    cases route with
    | hostToL2 =>
      obtain ⟨r, _, rfl⟩ := (copyFromHost_ok _ _ _ _ _).mp hp
      exact absurd rfl h
    | l2ToHost => exact ⟨dest, src, n, rfl⟩
  | cvo func f =>
    obtain ⟨z, _, rfl⟩ := cvoEffects_ok hp
    exact absurd rfl h

/-- An instruction that an engine ran and that changed a store was a synchronous one. -/
theorem RanHead.effect {s t u : State} {e : Engine} {en : Entry} {i : Instr} {α : Type} {read : State → α}
    (h : RanHead s t e en i u)
    (hframe : ∀ (v : State) (e : Engine) (en : Entry) (q : List Entry) (ms : List Move),
      read (popState e en q { v with script := ms }) = read v)
    (hretire : ∀ (v : State) (e : Engine) (k : Nat), read (retire e k v) = read v)
    (hpending : ∀ (v : State) (e : Engine) (op : Deferred), read (v.addPending e op) = read v)
    (hne : read t ≠ read s) :
    instrIsAsync i = false ∧
      SyncEffect (popState e en (t.fifo.get e) { s with script := s.script.tail }) i u ∧
      read u ≠ read (popState e en (t.fifo.get e) { s with script := s.script.tail }) ∧ read t = read u := by
  have htu : read t = read u := by rw [h.retires, hretire]
  rw [hframe, ← htu]
  rcases exec_stores h.answers with ⟨ha, heff⟩ | ⟨d, op, hu⟩
  · exact ⟨ha, heff, hne, rfl⟩
  · rw [htu, hu, hpending, hframe] at hne
    exact absurd rfl hne

end Sys2Proof.Machine

namespace Sys2Proof.Proofs

open Sys2Proof.Machine

/-- Settles O42: of the steps that change a store only the run of an instruction reaches e_max, and of the instructions
only a multiply with `findemax`. -/
theorem emaxWrittenOnlyByFindemax : Obligations.EmaxWrittenOnlyByFindemax := by
  intro s t h hne
  rcases step_stores h with ⟨e, en, i, u, hrun⟩ | ⟨k, p, u, hperf⟩ | ⟨b, bytes, _, rfl⟩ | ⟨_, _, _, _, he⟩
  · obtain ⟨_, heff, hchanged, _⟩ := hrun.effect (read := State.eMax) (fun _ _ _ _ _ => rfl) (fun _ _ _ => rfl)
      (fun _ _ _ => rfl) hne
    obtain ⟨kind, f, rfl, hf⟩ := heff.eMax_changed hchanged
    exact ⟨e, en, kind, f, hrun.head, hrun.decodes, hf, hrun.completes⟩
  · rw [hperf.removes] at hne
    exact absurd (congrArg State.eMax (performDeferred_frame hperf.answers) :) hne
  · exact absurd rfl hne
  · exact absurd he hne

/-- Settles O43: of the steps that change a store only the run of an instruction reaches the descriptor caches, and of the
instructions only the MEMSET that names the entry. -/
theorem descriptorsWrittenOnlyByMemset : Obligations.DescriptorsWrittenOnlyByMemset := by
  refine fun s t p h => ⟨fun hne => ?fmap, fun hne => ?weight⟩
  case fmap =>
    rcases step_stores h with ⟨e, en, i, u, hrun⟩ | ⟨k, q, u, hperf⟩ | ⟨b, bytes, _, rfl⟩ | ⟨_, _, hf, _, _⟩
    · obtain ⟨_, heff, hchanged, htu⟩ := hrun.effect (read := fun v => v.readFmapShape p) (fun _ _ _ _ _ => rfl)
        (fun _ _ _ => rfl) (fun _ _ _ => rfl) hne
      obtain ⟨f, rfl, hcache, haddr, hentry⟩ := heff.fmapShape_changed hchanged
      exact ⟨e, en, f, hrun.head, hrun.decodes, hcache, haddr, htu.trans hentry⟩
    · rw [hperf.removes] at hne
      exact absurd (congrArg (State.readFmapShape · p) (performDeferred_frame hperf.answers) :) hne
    · exact absurd rfl hne
    · exact absurd (by simp only [State.readFmapShape, hf]) hne
  case weight =>
    rcases step_stores h with ⟨e, en, i, u, hrun⟩ | ⟨k, q, u, hperf⟩ | ⟨b, bytes, _, rfl⟩ | ⟨_, _, _, hw, _⟩
    · obtain ⟨_, heff, hchanged, htu⟩ := hrun.effect (read := fun v => v.readWeightShape p) (fun _ _ _ _ _ => rfl)
        (fun _ _ _ => rfl) (fun _ _ _ => rfl) hne
      obtain ⟨f, rfl, hcache, haddr, hentry⟩ := heff.weightShape_changed hchanged
      exact ⟨e, en, f, hrun.head, hrun.decodes, hcache, haddr, htu.trans hentry⟩
    · rw [hperf.removes] at hne
      exact absurd (congrArg (State.readWeightShape · p) (performDeferred_frame hperf.answers) :) hne
    · exact absurd rfl hne
    · exact absurd (by simp only [State.readWeightShape, hw]) hne

/-- Settles O44: the three kinds of step that change a store, and which of each reaches host memory. -/
theorem hostWrittenOnlyByCopyOrHost : Obligations.HostWrittenOnlyByCopyOrHost := by
  intro s t a h hne
  rcases step_stores h with ⟨e, en, i, u, hrun⟩ | ⟨k, p, u, hperf⟩ | ⟨b, bytes, hs, rfl⟩ | ⟨_, hh, _⟩
  · obtain ⟨hsync, heff, hchanged, _⟩ := hrun.effect (read := fun v => v.readHost a) (fun _ _ _ _ _ => rfl)
      (fun _ _ _ => rfl) (fun _ _ _ => rfl) hne
    obtain ⟨f, rfl, hroute⟩ := heff.host_changed hchanged
    obtain ⟨hfrom, hto⟩ := (copyRoute_l2ToHost f).mp hroute
    exact .inr (.inl ⟨e, en, f, hrun.head, hrun.decodes, hfrom, hto, hsync⟩)
  · have hread : u.readHost a ≠ s.readHost a := by
      rw [hperf.removes] at hne
      exact hne
    obtain ⟨dest, src, n, hop⟩ := performDeferred_host_changed hperf.answers hread
    exact .inr (.inr ⟨k, p, dest, src, n, hperf.pending, hop, hperf.gone⟩)
  · refine .inl ⟨b, bytes, hs, ?_⟩
    by_contra hout
    exact hne ((readHost_writeHostMany _ b a bytes).trans (if_neg hout))
  · exact absurd (by simp only [State.readHost, hh]) hne

end Sys2Proof.Proofs
end

section
/-! PROOFS. What a stop leaves (60_exceptions.md R291 to R294, R252), and a serialised issue from the host's writes to the
instruction (45_host_interface.md R279). -/

namespace Sys2Proof.Machine

/-! ### The state a stop leaves -/

/-- What a stop leaves as it was: every store, every record, the parameters (R292, log 9). -/
theorem stoppedState_fields (s : State) :
    (stoppedState s).faults = s.faults ∧ (stoppedState s).refused = s.refused ∧
      (stoppedState s).completed = s.completed ∧ ∀ l, sameAt s (stoppedState s) l := by
  cases hm : nextMove s with
  | none =>
    have hsame : stoppedState s = s := by simp only [stoppedState, hm]
    rw [hsame]
    exact ⟨rfl, rfl, rfl, fun l => by cases l <;> rfl⟩
  | some m =>
    have hframe := abandon_frame m s.advance
    simp only [stoppedState, hm]
    refine ⟨(congrArg State.faults hframe :), (congrArg State.refused hframe :), (congrArg State.completed hframe :),
      fun l => ?_⟩
    cases l with
    | l2 a => exact (congrArg (State.readL2 · a) hframe :)
    | host a => exact (congrArg (State.readHost · a) hframe :)
    | fmapShape p => exact (congrArg (State.readFmapShape · p) hframe :)
    | weightShape p => exact (congrArg (State.readWeightShape · p) hframe :)
    | eMax => exact (congrArg State.eMax hframe :)

/-- A host access that stopped leaves what is in flight. -/
theorem inFlight_abandonHost (a : HostAccess) (s : State) : (abandonHost a s).inFlight = s.inFlight := by
  cases a with
  | busWrite addr width v =>
    rw [abandonHost]
    split <;> rfl
  | busRead | memWrite | memRead => rfl

theorem mem_inFlight_iff (s : State) (x : Nat × Footprint) :
    x ∈ s.inFlight ↔ (∃ en, s.latched = some en ∧ (en.number, en.footprint) = x) ∨
      (∃ e, ∃ en, (en ∈ s.fifo.get e ∨ s.running.get e = some en) ∧ (en.number, en.footprint) = x) ∨
      ∃ c ∈ s.pendingAsync, (c.1, c.2.footprint) = x := by
  simp only [inFlight_eq, queued, List.mem_append, List.mem_map, Option.mem_toList, List.mem_flatMap, or_and_right,
    exists_or]
  constructor
  · rintro ((⟨en, hl, hx⟩ | ⟨en, ⟨e, _, hq⟩, hx⟩) | hp)
    · exact .inl ⟨en, hl, hx⟩
    · exact .inr (.inl (hq.imp (fun h => ⟨e, en, h, hx⟩) fun h => ⟨e, en, h, hx⟩))
    · exact .inr (.inr hp)
  · rintro (⟨en, hl, hx⟩ | (⟨e, en, hq, hx⟩ | ⟨e, en, hq, hx⟩) | hp)
    · exact .inl (.inl ⟨en, hl, hx⟩)
    · exact .inl (.inr ⟨en, ⟨e, engine_list_complete e, .inl hq⟩, hx⟩)
    · exact .inl (.inr ⟨en, ⟨e, engine_list_complete e, .inr hq⟩, hx⟩)
    · exact .inr hp

/-- A stop puts nothing in flight. -/
theorem inFlight_abandon_subset (m : Move) (s : State) : ∀ x ∈ (abandon m s).inFlight, x ∈ s.inFlight := by
  intro x hx
  cases m with
  | host a => rwa [abandon, inFlight_abandonHost] at hx
  | dispatch =>
    rw [mem_inFlight_iff] at hx ⊢
    rcases hx with ⟨en, hl, _⟩ | hx
    · cases hl
    · exact .inr hx
  | engine e =>
    rw [mem_inFlight_iff] at hx ⊢
    refine hx.imp_right (Or.imp_left ?_)
    rintro ⟨d, en, hq, hx⟩
    refine ⟨d, en, ?_, hx⟩
    by_cases hd : d = e
    · subst hd
      simp only [abandon, perEngine_get_set_same, reduceCtorEq, or_false] at hq
      exact .inl (List.mem_of_mem_tail hq)
    · simpa only [abandon, perEngine_get_set_ne _ _ hd] using hq
  | performAsync k =>
    rw [mem_inFlight_iff] at hx ⊢
    refine hx.imp_right (Or.imp_right ?_)
    rintro ⟨c, hc, hx⟩
    exact ⟨c, mem_of_mem_cellErase _ _ c hc, hx⟩

theorem inFlight_stoppedState_subset (s : State) : ∀ x ∈ (stoppedState s).inFlight, x ∈ s.inFlight := by
  cases hm : nextMove s with
  | none =>
    simp only [stoppedState, hm]
    exact fun _ h => h
  | some m =>
    simp only [stoppedState, hm]
    exact inFlight_abandon_subset m s.advance

/-! ### A recorded stop -/

theorem afterStep_of_fault {s : State} {r : Fault} (h : Running s) (hstep : step s = .fault r) :
    afterStep s = (stoppedState s).recordFault r := by
  rw [afterStep_of_running h, hstep]

theorem afterStep_of_refusal {s : State} {r : Refusal} (h : Running s) (hstep : step s = .refused r) :
    afterStep s = (stoppedState s).recordRefusal r := by
  rw [afterStep_of_running h, hstep]

theorem afterStep_of_stopped {s : State} (h : s.stopped = true) : afterStep s = s := by
  rw [afterStep, if_pos h]

/-! ### The bookkeeping after a stop -/

theorem queueInv_abandonHost {s : State} (a : HostAccess) (h : QueueInv s) : QueueInv (abandonHost a s) := by
  cases a with
  | busWrite addr width v =>
    rw [abandonHost]
    split
    · next hlatch =>
      obtain ⟨_, _, hmayIssue, _⟩ := hlatch
      obtain ⟨hissue, hrun, hdepth, hfifo, _, hdone, hsorted, hpend, hrising⟩ := h
      have hempty : s.latched = none := hissue hmayIssue
      exact ⟨nofun, hrun, hdepth, fun e en hen => ⟨(hfifo e en hen).1, (hfifo e en hen).2.trans (Nat.le_succ _)⟩,
        fun en hen => absurd (hempty.symm.trans hen) nofun, fun k hk => (hdone k hk).trans (Nat.le_succ _), hsorted,
        fun c hc => (hpend c hc).trans (Nat.le_succ _), hrising⟩
    · exact h
  | busRead | memWrite | memRead => exact h

/-- A stop leaves the bookkeeping in order (R244, R251, R252, log 9). -/
theorem queueInv_abandon {s : State} (m : Move) (h : QueueInv s) : QueueInv (abandon m s) := by
  cases m with
  | host a => exact queueInv_abandonHost a h
  | dispatch =>
    obtain ⟨_, hrun, hdepth, hfifo, _, hrest⟩ := h
    exact ⟨fun _ => rfl, hrun, hdepth, hfifo, nofun, hrest⟩
  | engine e =>
    obtain ⟨hissue, hrun, hdepth, hfifo, hrest⟩ := h
    have hidle : s.running.set e none = s.running := by rw [← hrun e, perEngine_set_get]
    have hfit : QueuesFit s.platform (s.fifo.set e (s.fifo.get e).tail) := by
      refine QueuesFit.set hdepth (le_trans ?_ (hdepth e))
      rw [List.length_tail]
      exact Nat.sub_le _ _
    have hown : QueuesOwn s.nLatched (s.fifo.set e (s.fifo.get e).tail) :=
      QueuesOwn.set hfifo fun x hx => hfifo e x (List.mem_of_mem_tail hx)
    rw [abandon, hidle]
    exact ⟨hissue, hrun, hfit, hown, hrest⟩
  | performAsync k => exact queueInv_removePending k h

theorem queueInv_stoppedState {s : State} (h : QueueInv s) : QueueInv (stoppedState s) := by
  cases hm : nextMove s with
  | none =>
    simp only [stoppedState, hm]
    exact h
  | some m =>
    simp only [stoppedState, hm]
    exact queueInv_abandon (s := s.advance) m h

/-- The queue invariant holds after every step, stops included. -/
theorem queueInv_afterStep {s : State} (h : QueueInv s) : QueueInv (afterStep s) := by
  cases hst : s.stopped with
  | true => rwa [afterStep_of_stopped hst]
  | false =>
    have hr := (stopped_eq_false_iff s).mp hst
    cases hstep : step s with
    | next t =>
      rw [afterStep_of_running hr, hstep]
      exact step_keeps (fun _ _ h => h) (fun _ _ _ => moveStep_queueInv) h hstep
    | fault r =>
      rw [afterStep_of_fault hr hstep]
      exact queueInv_stoppedState h
    | refused r =>
      rw [afterStep_of_refusal hr hstep]
      exact queueInv_stoppedState h

/-- After a step that stops on move `m`, every place of the bookkeeping is as `abandon` leaves it. -/
theorem afterStep_of_stop {s : State} {m : Move} (hr : Running s) (hno : ∀ t, step s ≠ .next t)
    (hm : nextMove s = some m) :
    ∃ (fs : List Fault) (r : Option Refusal),
      afterStep s = { abandon m s.advance with faults := fs, refused := r } := by
  have hstopped : stoppedState s = abandon m s.advance := by simp only [stoppedState, hm]
  cases hstep : step s with
  | next t => exact absurd hstep (hno t)
  | fault r =>
    rw [afterStep_of_fault hr hstep, hstopped]
    exact ⟨_, _, rfl⟩
  | refused r =>
    rw [afterStep_of_refusal hr hstep, hstopped]
    exact ⟨_, _, rfl⟩

/-- Only a latch finds a conflict of a new instruction, and it has the low word and the host's permission (R272). -/
theorem hostStep_instrConflict {a : HostAccess} {s : State} {j k : Nat} {loc : Option Loc}
    (h : hostStep a s = .fault (.inFlightConflict (.instr j) k loc)) :
    s.issueOk = true ∧ s.cmdLo.isSome = true ∧ ∃ v, a = .busWrite (s.platform.axilBase + 4) 32 v := by
  cases a with
  | busWrite addr width v =>
    simp only [hostStep, hostWriteLow, hostWriteHigh] at h
    split_ifs at h with _ _ hhigh hi
    split at h
    · cases h
    · next lo hlo => exact ⟨hi, by simp [hlo], v, by rw [hhigh.1, hhigh.2]⟩
  | busRead addr width =>
    simp only [hostStep] at h
    split at h <;> cases h
  | memWrite b bytes =>
    simp only [hostStep, hostMemWrite] at h
    split at h <;> cases h
  | memRead b len =>
    simp only [hostStep, hostMemRead] at h
    split at h <;> cases h

/-- What a conflicting latch has used up (R272, log 9). -/
theorem abandonHost_latch {s : State} (v : Half) (hi : s.issueOk = true) (hc : s.cmdLo.isSome = true) :
    abandonHost (.busWrite (s.platform.axilBase + 4) 32 v) s =
      { s with cmdLo := none, nLatched := s.nLatched + 1, issueOk := false } := by
  rw [abandonHost, if_pos ⟨rfl, rfl, hi, hc⟩]

/-! ### A serialised issue -/

/-- The two halves of a word, written low and high, make the word (R114). -/
theorem halves_append (w : Word) : w.extractLsb' 32 32 ++ w.extractLsb' 0 32 = w := by
  rw [BitVec.extractLsb'_append_extractLsb'_eq_extractLsb' (by decide)]
  exact BitVec.extractLsb'_eq_self

/-- What quiescence says of each place (R253). -/
theorem places_of_quiescent {s : State} (h : s.quiescent = true) :
    s.latched = none ∧ ∀ e, s.fifo.get e = [] ∧ s.running.get e = none := by
  simp only [State.quiescent, Bool.and_eq_true, Option.isNone_iff_eq_none, List.all_eq_true, List.isEmpty_iff] at h
  exact ⟨h.1.1, fun e => h.1.2 e (engine_list_complete e)⟩

/-- `s` after an issue whose entry stands alone in the queue of engine `e`, with the moves `rest` to come (R272, R244). -/
def queuedState (e : Engine) (w : Word) (rest : List Move) (s : State) : State :=
  { s with
    script := rest
    cmdLo := none
    nLatched := s.nLatched + 1
    issueOk := false
    fifo := s.fifo.set e [issueEntry w s]
    latched := none }

/-- The engine that takes the queued entry runs it in the issued state. -/
theorem popState_queuedState {e : Engine} {s : State} (w : Word) (hempty : s.fifo.get e = []) :
    popState e (issueEntry w s) [] (queuedState e w [] s) = issuedState e w s := by
  have hfifo : (s.fifo.set e [issueEntry w s]).set e [] = s.fifo := by
    rw [perEngine_set_set, ← hempty, perEngine_set_get]
  simp only [popState, queuedState, hfifo, issuedState]

/-- The first three steps of a serialised issue: the low word, the latch, the dispatch. -/
theorem run_issue {s : State} {w : Word} {i : Instr} {e : Engine} (hr : Running s) (hq : s.quiescent = true)
    (hi : s.issueOk = true) (hd : decode w = .ok i) (hwf : i.wellFormed = true)
    (he : engineOfOpcode (opcodeOf w) = some e) {rest : List Move}
    (hs : s.script = .host (.busWrite s.platform.axilBase 32 (w.extractLsb' 0 32)) ::
      .host (.busWrite (s.platform.axilBase + 4) 32 (w.extractLsb' 32 32)) :: .dispatch :: rest) (k : Nat) :
    core.run (k + 3) s = core.run k (queuedState e w rest s) := by
  let low : State := { s with
    script := .host (.busWrite (s.platform.axilBase + 4) 32 (w.extractLsb' 32 32)) :: .dispatch :: rest
    cmdLo := some (w.extractLsb' 0 32) }
  have hlow : step s = .next low := step_writesLow hr hi hs
  have hfree : low.inFlight = [] := (quiescent_iff_inFlight_nil s).mp hq
  have hlatch : step low = .next (latchState (w.extractLsb' 32 32) (w.extractLsb' 0 32)
      { low with script := .dispatch :: rest }) :=
    step_latches hr hi rfl rfl (by simp [hfree])
  have hentry : (latchState (w.extractLsb' 32 32) (w.extractLsb' 0 32) { low with script := .dispatch :: rest }).latched =
      some (issueEntry w s) := by
    have hfp : footprintOf w { low with script := .dispatch :: rest } = footprintOf w s := footprintOf_congr _ rfl rfl rfl
    simp only [latchState, assembleWord, halves_append, hfp]
    rfl
  have hempty : s.fifo.get e = [] := ((places_of_quiescent hq).2 e).1
  have hroom : (s.fifo.get e).length < fifoDepth s.platform e := by
    rw [hempty]
    exact Nat.succ_pos _
  have hdispatch := step_dispatches (e := e)
    (s := latchState (w.extractLsb' 32 32) (w.extractLsb' 0 32) { low with script := .dispatch :: rest }) hr rfl hentry
    (dispatchCheck_of_wellFormed hd hwf) he hroom
  rw [run_succ_of_step core (k + 2) hlow, run_succ_of_step core (k + 1) hlatch, run_succ_of_step core k hdispatch]
  simp only [dispatchState, latchState, low, queuedState, hempty, List.nil_append]

theorem run_succ_of_fault (M : Host.Core) {s : M.State} {r : M.Fault} (k : Nat) (h : M.step s = .fault r) :
    M.run (k + 1) s = .fault r := by
  rw [Host.Core.run, h]

theorem run_succ_of_refusal (M : Host.Core) {s : M.State} {r : M.Refusal} (k : Nat) (h : M.step s = .refused r) :
    M.run (k + 1) s = .refused r := by
  rw [Host.Core.run, h]

/-- One step of a run is the step. -/
theorem run_one (s : State) : core.run 1 s = step s := by
  cases h : step s with
  | next t => exact run_succ_of_step core 0 h
  | fault r => exact run_succ_of_fault core 0 h
  | refused r => exact run_succ_of_refusal core 0 h

end Sys2Proof.Machine

namespace Sys2Proof.Proofs

open Sys2Proof.Machine

/-- Settles O52: `run_issue` brings the word to the head of its engine's queue, and the engine's step runs it. -/
theorem serialIssueRunsTheInstruction : Obligations.SerialIssueRunsTheInstruction := by
  intro s w i e hr hq hi hd hwf he hs
  have hempty : s.fifo.get e = [] := ((places_of_quiescent hq).2 e).1
  have hidle : s.running.get e = none := ((places_of_quiescent hq).2 e).2
  have hrun : step (queuedState e w [.engine e] s) =
      runEntry e (issueEntry w s) (popState e (issueEntry w s) [] (queuedState e w [] s)) :=
    step_runsHead hr rfl hidle (perEngine_get_set_same _ _ _)
  refine (run_issue hr hq hi hd hwf he hs 1).trans ((run_one _).trans ?_)
  calc step (queuedState e w [.engine e] s)
      _ = runEntry e (issueEntry w s) (popState e (issueEntry w s) [] (queuedState e w [] s)) := hrun
      _ = runEntry e (issueEntry w s) (issuedState e w s) := by rw [popState_queuedState w hempty]
      _ = mapNext (retire e (s.nLatched + 1)) (exec i (issuedState e w s)) := runEntry_of_decode _ hd

/-- Settles O55: `stoppedState_fields` and `inFlight_stoppedState_subset` say what the stop leaves; with it recorded every
later step repeats it. -/
theorem recordedStopEndsTheRun : Obligations.RecordedStopEndsTheRun := by
  intro s hr t
  obtain ⟨hfaults, hrefused, hcompleted, hsame⟩ := stoppedState_fields s
  rw [hr.1] at hfaults
  rw [hr.2] at hrefused
  refine ⟨fun r hstep => ?fault, fun r hstep => ?refusal, fun hstop => ?frame⟩
  case fault =>
    have ht : t = (stoppedState s).recordFault r := afterStep_of_fault hr hstep
    have hf : t.faults = [r] := by rw [ht, recordFault_faults, hfaults, List.nil_append]
    refine ⟨hf, by rw [ht]; exact hrefused, by simp only [step, stepOf, hf], ?_⟩
    rw [status_done]
    exact done_of_fault _ (by simp [hf])
  case refusal =>
    have ht : t = (stoppedState s).recordRefusal r := afterStep_of_refusal hr hstep
    have hf : t.faults = [] := by rw [ht]; exact hfaults
    have href : t.refused = some r := by rw [ht]; rfl
    exact ⟨hf, href, by simp only [step, stepOf, hf, href]⟩
  case frame =>
    have hleft : t.stopped = true ∧ (∀ l, sameAt (stoppedState s) t l) ∧ t.completed = (stoppedState s).completed ∧
        t.inFlight = (stoppedState s).inFlight := by
      rcases hstop with ⟨r, hstep⟩ | ⟨r, hstep⟩
      · rw [show t = _ from afterStep_of_fault hr hstep]
        exact ⟨by simp [State.stopped, State.recordFault], fun l => by cases l <;> rfl, rfl, rfl⟩
      · rw [show t = _ from afterStep_of_refusal hr hstep]
        exact ⟨by simp [State.stopped, State.recordRefusal], fun l => by cases l <;> rfl, rfl, rfl⟩
    obtain ⟨hst, hsame', hcompleted', hflight⟩ := hleft
    refine ⟨afterStep_of_stopped hst, fun l => ?_, hcompleted'.trans hcompleted, ?_⟩
    · have h1 := hsame l
      have h2 := hsame' l
      cases l <;> exact Eq.trans h2 h1
    · rw [hflight]
      exact inFlight_stoppedState_subset s

/-- Settles O58: `queueInv_afterStep` for the bookkeeping; the places are read off `abandon` for each agent. -/
theorem stoppedInstructionIsInFlightNoMore : Obligations.StoppedInstructionIsInFlightNoMore := by
  refine ⟨fun s => queueInv_afterStep, fun s hr hno => ?_⟩
  intro t
  have stop {m : Move} := afterStep_of_stop (m := m) hr hno
  refine ⟨fun hm => ?dispatch, fun e hm => ?engine, fun k hm => ?async, fun a hm => ?host⟩
  all_goals
    obtain ⟨fs, r, ht⟩ := stop hm
    change t = _ at ht
    rw [ht]
  case dispatch => exact ⟨rfl, rfl, rfl, rfl⟩
  case engine => exact ⟨rfl, perEngine_get_set_same _ _ _, rfl, rfl⟩
  case async =>
    refine ⟨?_, fun j hj => ?_, rfl, rfl, rfl⟩
    · exact (cellRead_cellErase s.pendingAsync k k).trans (if_pos rfl)
    · exact (cellRead_cellErase s.pendingAsync k j).trans (if_neg hj)
  case host =>
    refine ⟨inFlight_abandonHost a s.advance, fun ⟨k, loc, hfault⟩ => ?_⟩
    rw [step_of_move hr hm] at hfault
    obtain ⟨hi, hc, v, rfl⟩ := hostStep_instrConflict hfault
    rw [abandon, abandonHost_latch v hi hc]
    exact ⟨rfl, rfl, rfl⟩

end Sys2Proof.Proofs
end
